-- ==== Sys2Proof/Word.lean ====
section
/-! DEFINITION. The bit-vector types of the block's interface (20_memory.md R60, 10_state.md R22 to R26). -/

namespace Sys2Proof

/-- A 32-bit register word, the only data width of the MMIO port (20_memory.md R60). -/
abbrev Word := BitVec 32

/-- A symbol, a character, or one byte of an output stream (30_encoding.md R81, 20_memory.md R66). -/
abbrev Byte := BitVec 8

/-- A 16-bit MMIO byte address, an offset from BASE (20_memory.md R60). -/
abbrev Addr := BitVec 16

/-- A 9-bit node index: 0 to 255 a leaf, 256 to 510 an internal node, 511 NULL (10_state.md R26). -/
abbrev NodeIx := BitVec 9

end Sys2Proof
end

