-- ==== Sys2Proof/Config.lean ====
section
/-! DEFINITION. The free values: what the spec leaves to "any value" (00_scope.md R16). Each is a constant
without a body, applied to the number of the draw (the field `draws` of State), so no proof can see its value. -/

namespace Sys2Proof

/-- The word that the n-th read "returning any value" sees while a command is pending (20_memory.md R64).
Free value: log entry 5. -/
opaque Config.busyRead : Nat → Word

/-- The length drawn for the accepted prefix of the output of a command that hardware reset cuts
(70_reset_and_hazards.md R251). It is taken modulo one more than the output's length, so every length
from 0 to all is admitted. Free value: log entry 6. -/
opaque Config.acceptedPrefix : Nat → Nat

end Sys2Proof
end

