-- ==== Sys2Proof/Syntax.lean ====
section
/-! DEFINITION. The block's operations: one constructor per row of spec/opcode_table.json (30_encoding.md R82, R87).
A command carries its ARG, a write its data, and the three catch-all rows the word or address they caught (log
entry 14). -/

namespace Sys2Proof

inductive Instr where
  -- commands: 32-bit words written to CMD (30_encoding.md R82)
  | nop
  | clrFreq
  | count (sym : Byte)
  | build
  | genCodes
  | encode (sym : Byte)
  | decStart
  | decChar (chr : Byte)
  | decEnd
  | reset
  /-- A command word that matches no row (30_encoding.md R84). -/
  | illegal (word : Word)
  -- MMIO writes (30_encoding.md R87)
  | wrCmd (val : Word)
  | wrErr (val : Word)
  | wrIrqEn (val : Word)
  | wrNodeSel (val : Word)
  | wrFreq (sym : Byte) (val : Word)
  /-- A write to a misaligned, unmapped or read-only address (20_memory.md R63). -/
  | wrBad (addr : Addr) (val : Word)
  -- MMIO reads: RD_REG, one row per register (10_state.md R35 to R48)
  | rdId
  | rdCmd
  | rdStatus
  | rdErr
  | rdErrInfo
  | rdIrqEn
  | rdRoot
  | rdTotal
  | rdDecCur
  | rdNodeSel
  | rdNodeFreq
  | rdNodeRep
  | rdNodeLink
  | rdParam
  | rdFreq (sym : Byte)
  /-- RD_CODE at 0x1000 to 0x1FFC: symbol `part`, 0 to 63, word `idx` (10_state.md R50). -/
  | rdCodeLow (part : BitVec 6) (idx : BitVec 4)
  /-- RD_CODE at 0x2000 to 0x3FFC: symbol 64 + `part`, 64 to 191. -/
  | rdCodeMid (part : BitVec 7) (idx : BitVec 4)
  /-- RD_CODE at 0x4000 to 0x4FFC: symbol 192 + `part`, 192 to 255. -/
  | rdCodeHigh (part : BitVec 6) (idx : BitVec 4)
  /-- A read of a misaligned or unmapped address (20_memory.md R62). -/
  | rdUnmapped (addr : Addr)
  deriving DecidableEq, Repr

end Sys2Proof
end

