-- ==== Sys2Proof/WellFormed.lean ====
section
/-! DEFINITION. Which terms of Instr stand for an operation of the block. Operand ranges are in the types, so the
checks are those of the three catch-all rows: each holds only a word or address that no other row of its kind
matches. The rows' masks and matches are those of 30_encoding.md R82 and R87 (spec/opcode_table.json), written
here apart from the decoder. -/

namespace Sys2Proof

/-- (mask, match) of the ten command rows (30_encoding.md R82). -/
def commandRows : List (Word × Word) :=
  [ (0xFFFFFFFF#32, 0x00000000#32), (0xFFFFFFFF#32, 0x00000001#32), (0xFFFF00FF#32, 0x00000002#32),
    (0xFFFFFFFF#32, 0x00000003#32), (0xFFFFFFFF#32, 0x00000004#32), (0xFFFF00FF#32, 0x00000005#32),
    (0xFFFFFFFF#32, 0x00000006#32), (0xFFFF00FF#32, 0x00000007#32), (0xFFFFFFFF#32, 0x00000008#32),
    (0xFFFFFFFF#32, 0x0000000F#32) ]

/-- (mask, match) of the write rows that name an address (30_encoding.md R87). -/
def writeRows : List (Addr × Addr) :=
  [ (0xFFFF#16, 0x0004#16), (0xFFFF#16, 0x000C#16), (0xFFFF#16, 0x0014#16), (0xFFFF#16, 0x0024#16),
    (0xFC03#16, 0x0400#16) ]

/-- (mask, match) of the read rows that name an address: 14 registers, the FREQ window, and the three rows
of the CODE window (30_encoding.md R87, spec/opcode_table.json). -/
def readRows : List (Addr × Addr) :=
  [ (0xFFFF#16, 0x0000#16), (0xFFFF#16, 0x0004#16), (0xFFFF#16, 0x0008#16), (0xFFFF#16, 0x000C#16),
    (0xFFFF#16, 0x0010#16), (0xFFFF#16, 0x0014#16), (0xFFFF#16, 0x0018#16), (0xFFFF#16, 0x001C#16),
    (0xFFFF#16, 0x0020#16), (0xFFFF#16, 0x0024#16), (0xFFFF#16, 0x0028#16), (0xFFFF#16, 0x002C#16),
    (0xFFFF#16, 0x0030#16), (0xFFFF#16, 0x0034#16),
    (0xFC03#16, 0x0400#16), (0xF003#16, 0x1000#16), (0xE003#16, 0x2000#16), (0xF003#16, 0x4000#16) ]

/-- A word selects a row whose match it shows under the row's mask (30_encoding.md R82). -/
def selects {n : Nat} (w : BitVec n) (row : BitVec n × BitVec n) : Bool := w &&& row.1 == row.2

/-- The check of one term of Instr. -/
def Instr.wellFormed : Instr → Bool
  | .illegal w => !commandRows.any (selects w)
  | .wrBad a _ => !writeRows.any (selects a)
  | .rdUnmapped a => !readRows.any (selects a)
  | .nop | .clrFreq | .count _ | .build | .genCodes | .encode _ | .decStart | .decChar _ | .decEnd | .reset
  | .wrCmd _ | .wrErr _ | .wrIrqEn _ | .wrNodeSel _ | .wrFreq _ _
  | .rdId | .rdCmd | .rdStatus | .rdErr | .rdErrInfo | .rdIrqEn | .rdRoot | .rdTotal | .rdDecCur | .rdNodeSel
  | .rdNodeFreq | .rdNodeRep | .rdNodeLink | .rdParam | .rdFreq _ | .rdCodeLow _ _ | .rdCodeMid _ _
  | .rdCodeHigh _ _ => true

end Sys2Proof
end

