-- ==== Sys2Proof/Decode.lean ====
section
/-! DEFINITION. Decoding (30_encoding.md R83, R87; 20_memory.md R61) and, after it, encoding. Both are total: every
32-bit word is one command or ILLEGAL (R85), and every access falls in one row. -/

namespace Sys2Proof

/-- How an operation reaches the block: a command word in PENDING, or an access at the MMIO port. The port tells a
write from a read; the address is the operation's only encoding (30_encoding.md R80, R87). -/
inductive Encoding where
  | command (word : Word)
  | write (addr : Addr) (val : Word)
  | read (addr : Addr)
  deriving DecidableEq, Repr

/-! ## Fields of a word (00_scope.md R9, 30_encoding.md R80) -/

/-- A field whose lowest bit stands at bit `lo` of a word that is 0 elsewhere. -/
def atBit {n : Nat} (lo : Nat) (v : BitVec n) : Word := v.setWidth 32 <<< lo

/-- OP, bits 3:0. -/
def opField (w : Word) : BitVec 4 := w.extractLsb' 0 4

/-- RSV0, bits 7:4. -/
def rsv0Field (w : Word) : BitVec 4 := w.extractLsb' 4 4

/-- ARG, bits 15:8. -/
def argField (w : Word) : Byte := w.extractLsb' 8 8

/-- RSV1, bits 31:16. -/
def rsv1Field (w : Word) : BitVec 16 := w.extractLsb' 16 16

/-- A command that takes no argument is illegal with one (30_encoding.md R83). -/
def decodeNoArg (w : Word) (i : Instr) : Instr := if argField w = 0#8 then i else .illegal w

/-- The total function `decode` of 30_encoding.md R83. -/
def decodeCommand (w : Word) : Instr :=
  if rsv0Field w ≠ 0#4 ∨ rsv1Field w ≠ 0#16 then .illegal w
  else match (opField w).toNat with
    | 0x0 => decodeNoArg w .nop
    | 0x1 => decodeNoArg w .clrFreq
    | 0x2 => .count (argField w)
    | 0x3 => decodeNoArg w .build
    | 0x4 => decodeNoArg w .genCodes
    | 0x5 => .encode (argField w)
    | 0x6 => decodeNoArg w .decStart
    | 0x7 => .decChar (argField w)
    | 0x8 => decodeNoArg w .decEnd
    | 0xF => decodeNoArg w .reset
    | _ => .illegal w

/-! ## The address map (20_memory.md R61) -/

/-- The address is a multiple of 4 (20_memory.md R65). -/
def aligned (a : Addr) : Bool := a.extractLsb' 0 2 == 0#2

/-- An address in 0x0400 to 0x07FF, the FREQ window. -/
def inFreqWindow (a : Addr) : Bool := a.extractLsb' 10 6 == 0b000001#6

/-- The operation a write of `v` at `a` is (20_memory.md R63, 30_encoding.md R87). -/
def decodeWrite (a : Addr) (v : Word) : Instr :=
  match a.toNat with
  | 0x0004 => .wrCmd v
  | 0x000C => .wrErr v
  | 0x0014 => .wrIrqEn v
  | 0x0024 => .wrNodeSel v
  | _ => if aligned a && inFreqWindow a then .wrFreq (a.extractLsb' 2 8) v else .wrBad a v

/-- The operation a read in one of the two windows is; any other address is unmapped. -/
def decodeReadWindow (a : Addr) : Instr :=
  if !aligned a then .rdUnmapped a
  else if inFreqWindow a then .rdFreq (a.extractLsb' 2 8)
  else if a.extractLsb' 12 4 = 0x1#4 then .rdCodeLow (a.extractLsb' 6 6) (a.extractLsb' 2 4)
  else if a.extractLsb' 13 3 = 0b001#3 then .rdCodeMid (a.extractLsb' 6 7) (a.extractLsb' 2 4)
  else if a.extractLsb' 12 4 = 0x4#4 then .rdCodeHigh (a.extractLsb' 6 6) (a.extractLsb' 2 4)
  else .rdUnmapped a

/-- The operation a read at `a` is (20_memory.md R62, 30_encoding.md R87). -/
def decodeRead (a : Addr) : Instr :=
  match a.toNat with
  | 0x0000 => .rdId
  | 0x0004 => .rdCmd
  | 0x0008 => .rdStatus
  | 0x000C => .rdErr
  | 0x0010 => .rdErrInfo
  | 0x0014 => .rdIrqEn
  | 0x0018 => .rdRoot
  | 0x001C => .rdTotal
  | 0x0020 => .rdDecCur
  | 0x0024 => .rdNodeSel
  | 0x0028 => .rdNodeFreq
  | 0x002C => .rdNodeRep
  | 0x0030 => .rdNodeLink
  | 0x0034 => .rdParam
  | _ => decodeReadWindow a

/-- The operation an encoding stands for. -/
def decode : Encoding → Instr
  | .command w => decodeCommand w
  | .write a v => decodeWrite a v
  | .read a => decodeRead a

/-! ## The encoder, written from 30_encoding.md R80, R82 and R87 -/

/-- The word with the OP and ARG fields as given and the reserved fields 0 (30_encoding.md R80). -/
def commandWord (op : BitVec 4) (arg : Byte) : Word := atBit 8 arg ||| atBit 0 op

/-- 0x0400 + 4*s (30_encoding.md R87). -/
def freqAddr (sym : Byte) : Addr := 0x0400#16 + 4#16 * sym.setWidth 16

/-- 0x1000 + 64*s + 4*w (10_state.md R50). -/
def codeAddr (sym : Byte) (idx : BitVec 4) : Addr := 0x1000#16 + 64#16 * sym.setWidth 16 + 4#16 * idx.setWidth 16

/-- The symbol a row of the CODE window names: `base`, the row's first symbol, and its part (10_state.md R50). -/
def codeSymbol {n : Nat} (base : Byte) (part : BitVec n) : Byte := base + part.setWidth 8

/-- The encoding of an operation. -/
def encode : Instr → Encoding
  | .nop => .command (commandWord 0x0#4 0#8)
  | .clrFreq => .command (commandWord 0x1#4 0#8)
  | .count sym => .command (commandWord 0x2#4 sym)
  | .build => .command (commandWord 0x3#4 0#8)
  | .genCodes => .command (commandWord 0x4#4 0#8)
  | .encode sym => .command (commandWord 0x5#4 sym)
  | .decStart => .command (commandWord 0x6#4 0#8)
  | .decChar chr => .command (commandWord 0x7#4 chr)
  | .decEnd => .command (commandWord 0x8#4 0#8)
  | .reset => .command (commandWord 0xF#4 0#8)
  | .illegal w => .command w
  | .wrCmd v => .write 0x0004#16 v
  | .wrErr v => .write 0x000C#16 v
  | .wrIrqEn v => .write 0x0014#16 v
  | .wrNodeSel v => .write 0x0024#16 v
  | .wrFreq sym v => .write (freqAddr sym) v
  | .wrBad a v => .write a v
  | .rdId => .read 0x0000#16
  | .rdCmd => .read 0x0004#16
  | .rdStatus => .read 0x0008#16
  | .rdErr => .read 0x000C#16
  | .rdErrInfo => .read 0x0010#16
  | .rdIrqEn => .read 0x0014#16
  | .rdRoot => .read 0x0018#16
  | .rdTotal => .read 0x001C#16
  | .rdDecCur => .read 0x0020#16
  | .rdNodeSel => .read 0x0024#16
  | .rdNodeFreq => .read 0x0028#16
  | .rdNodeRep => .read 0x002C#16
  | .rdNodeLink => .read 0x0030#16
  | .rdParam => .read 0x0034#16
  | .rdFreq sym => .read (freqAddr sym)
  | .rdCodeLow part idx => .read (codeAddr (codeSymbol 0#8 part) idx)
  | .rdCodeMid part idx => .read (codeAddr (codeSymbol 64#8 part) idx)
  | .rdCodeHigh part idx => .read (codeAddr (codeSymbol 192#8 part) idx)
  | .rdUnmapped a => .read a

/-! ## The words of spec/opcode_table.json -/

/-- The access a 16-bit address of the table stands for when nothing tells a write from a read: the write where a
write row names the address, else the read. DESIGN CHOICE, safe: the machine never asks it, only the host's
reading of the table does; log entry 11. -/
def tableAccess (a : Addr) : Encoding :=
  match decodeWrite a 0#32 with
  | .wrBad _ _ => .read a
  | _ => .write a 0#32

/-- The encoding of a table word: 32 bits are a command word, 16 bits an address (data of zeros); no row has
another length. -/
def tableEncoding (nbits w : Nat) : Option Encoding :=
  if nbits = 32 then some (.command (BitVec.ofNat 32 w))
  else if nbits = 16 then some (tableAccess (BitVec.ofNat 16 w))
  else none

/-- What this decoder reads from a word of spec/opcode_table.json, numbered as the table numbers its bits. -/
def decodeTableWord (nbits w : Nat) : Option Instr := (tableEncoding nbits w).map decode

end Sys2Proof
end

