-- ==== Sys2Proof/Machine/State.lean ====
section
/-! DEFINITION. The state of the block as plain data (10_state.md R22 to R31, 70_reset_and_hazards.md R250), and of
the environment the step reads: the acts still to come and what the host has read (00_scope.md R7). -/

namespace Sys2Proof.Machine

/-- TREE_STATE (10_state.md R24). -/
inductive TreeState where
  | none | empty | single | multi
  deriving DecidableEq, Repr

/-- DEC_STATE (10_state.md R28). The value 3 is never held, so it has no constructor. -/
inductive DecState where
  | idle | active | failed
  deriving DecidableEq, Repr

/-- The error causes (60_exceptions.md R220). -/
inductive ErrorCause where
  | illegalCmd | sequence | freqOverflow | unknownSymbol | malformedInput | truncatedInput | badAddr | busyViolation
  deriving DecidableEq, Repr

/-- One internal-node record (10_state.md R23). -/
structure Inode where
  freq  : Word
  rep   : Byte
  left  : NodeIx
  right : NodeIx
  deriving DecidableEq, Repr

/-- What an INODE record no BUILD has written holds. The spec gives no value and no read observes one
(10_state.md R23). DESIGN CHOICE: log entry 9. -/
def Inode.unwritten : Inode := { freq := 0#32, rep := 0#8, left := 0#9, right := 0#9 }

/-- One code table entry (10_state.md R25). -/
structure CodeEntry where
  valid : Bool
  len   : Byte
  bits  : BitVec 256
  deriving DecidableEq, Repr

/-- The absent code, `{ valid = 0, len = 0, bits = 0 }` (43_code_table.md R140). -/
def CodeEntry.absent : CodeEntry := { valid := false, len := 0#8, bits := 0#256 }

/-- An array with a default: (index, value) pairs, indexes strictly rising, no value equal to the default an
unlisted index reads as (log entry 15). -/
abbrev Table (α : Type) := List (Nat × α)

/-- One act of an agent (00_scope.md R7), or a change of the streams' consumer (20_memory.md R70). -/
inductive Event where
  /-- The host reads at an address (20_memory.md R62). -/
  | read (addr : Addr)
  /-- The host writes at an address (20_memory.md R63). -/
  | write (addr : Addr) (val : Word)
  /-- The Engine takes its step, if enabled (40_control.md R101). -/
  | engine
  /-- The Reset agent asserts hardware reset (70_reset_and_hazards.md R250). -/
  | hardReset
  /-- From here on the consumer accepts, or does not accept, the bytes of ENC_OUT and of DEC_OUT. -/
  | consumer (enc dec : Bool)
  deriving DecidableEq, Repr

structure State where
  -- the block (10_state.md R22 to R30)
  freq       : Table Word
  inode      : Table Inode
  treeState  : TreeState
  nsym       : BitVec 9
  root       : NodeIx
  total      : Word
  codesValid : Bool
  code       : Table CodeEntry
  decState   : DecState
  cur        : NodeIx
  err        : BitVec 8
  errInfo    : Word
  irqEn      : BitVec 2
  nodeSel    : NodeIx
  pending    : Option Word
  -- the output streams, oldest byte first (20_memory.md R70)
  encOut     : List Byte
  decOut     : List Byte
  -- the parameter FREQ_W, which no step writes (00_scope.md R6; log entry 2)
  freqW      : Nat
  -- the environment (log entries 1, 4, 5, 7)
  events     : List Event
  reads      : List Word
  encReady   : Bool
  decReady   : Bool
  draws      : Nat
  deriving DecidableEq, Repr

/-- The reasons the machine stops with a fault: none. "The block never stops accepting commands because of an
error" (60_exceptions.md R226): every error of the block is recorded in ERR and the machine goes on. Safe: the
model stops nowhere. -/
inductive Fault where
  deriving DecidableEq, Repr

/-- The reasons an instruction has no meaning. -/
inductive Refusal where
  /-- Raised only by an arm of `exec` whose instruction has no meaning yet; no arm raises it now. Safe: the machine
  stops where the hardware goes on. -/
  | notModelled (mnemonic : String)
  deriving DecidableEq, Repr

/-- The machine right after reset (70_reset_and_hazards.md R250), with FREQ_W in its reference configuration, both
streams empty, no act to come, and a consumer that drains both streams (the launch premises of R263). The values of
freqW, inode, code, events, reads, encReady, decReady and draws are DESIGN CHOICEs: log entries 1, 2, 4, 5, 7, 9. -/
def State.reset : State where
  freq       := []
  inode      := []
  treeState  := .none
  nsym       := 0#9
  root       := 0x1FF#9
  total      := 0#32
  codesValid := false
  code       := []
  decState   := .idle
  cur        := 0x1FF#9
  err        := 0#8
  errInfo    := 0#32
  irqEn      := 0#2
  nodeSel    := 0#9
  pending    := .none
  encOut     := []
  decOut     := []
  freqW      := 32
  events     := []
  reads      := []
  encReady   := true
  decReady   := true
  draws      := 0

end Sys2Proof.Machine
end

