-- ==== Sys2Proof/Machine/Ops.lean ====
section
/-! DEFINITION. The named operations every meaning is written with: the arrays, taking an error and clearing it,
INVALIDATE, completing a command, answering a read. -/

namespace Sys2Proof.Machine

/-! ## The arrays FREQ, INODE, CODE (log entry 15) -/

/-- The value at index `k`; an unlisted index reads as `d`. -/
def Table.get {α : Type} (d : α) : Table α → Nat → α
  | [], _ => d
  | (j, v) :: t, k => if j = k then v else Table.get d t k

/-- The table without index `k`. -/
def Table.erase {α : Type} : Table α → Nat → Table α
  | [], _ => []
  | (j, v) :: t, k => if j = k then Table.erase t k else (j, v) :: Table.erase t k

/-- The table with `(k, v)` placed before the first larger index. -/
def Table.place {α : Type} : Table α → Nat → α → Table α
  | [], k, v => [(k, v)]
  | (j, u) :: t, k, v => if k < j then (k, v) :: (j, u) :: t else (j, u) :: Table.place t k v

/-- `name[k] <- v`. Writing the default removes the entry, so equal arrays are equal lists. -/
def Table.set {α : Type} [DecidableEq α] (d : α) (t : Table α) (k : Nat) (v : α) : Table α :=
  if v = d then Table.erase t k else Table.place (Table.erase t k) k v

/-- The indexes rise strictly from `lo` and stay below `bound`, and no value is the default. -/
def Table.wfFrom {α : Type} [DecidableEq α] (d : α) (bound : Nat) : Nat → Table α → Bool
  | _, [] => true
  | lo, (k, v) :: t => decide (lo ≤ k) && decide (k < bound) && decide (v ≠ d) && Table.wfFrom d bound (k + 1) t

/-- The canonical form of an array of `bound` entries. -/
def Table.wf {α : Type} [DecidableEq α] (d : α) (bound : Nat) (t : Table α) : Bool := Table.wfFrom d bound 0 t

/-- FREQ[sym] of a frequency table (10_state.md R22). -/
def freqOf (f : Table Word) (sym : Byte) : Word := Table.get 0#32 f sym.toNat

/-- INODE[k] of an arena (10_state.md R23). -/
def inodeOf (n : Table Inode) (k : Nat) : Inode := Table.get Inode.unwritten n k

/-- CODE[sym] of a code table (10_state.md R25). -/
def codeOf (c : Table CodeEntry) (sym : Byte) : CodeEntry := Table.get CodeEntry.absent c sym.toNat

/-- FREQ[sym] (10_state.md R22). -/
def State.freqAt (s : State) (sym : Byte) : Word := freqOf s.freq sym

/-- CODE[sym] (10_state.md R25). -/
def State.codeAt (s : State) (sym : Byte) : CodeEntry := codeOf s.code sym

/-- FREQ[sym] <- v. -/
def State.setFreq (s : State) (sym : Byte) (v : Word) : State :=
  { s with freq := Table.set 0#32 s.freq sym.toNat v }

/-- The largest value of a counter, 2^FREQ_W - 1 (00_scope.md section 4, FREQ_MAX). -/
def State.freqMax (s : State) : Nat := 2 ^ s.freqW - 1

/-! ## Taking an error, and clearing it (60_exceptions.md R220 to R226) -/

/-- The cause code (60_exceptions.md R220); the ERR bit is one less. -/
def causeCode : ErrorCause → BitVec 4
  | .illegalCmd => 1#4
  | .sequence => 2#4
  | .freqOverflow => 3#4
  | .unknownSymbol => 4#4
  | .malformedInput => 5#4
  | .truncatedInput => 6#4
  | .badAddr => 7#4
  | .busyViolation => 8#4

/-- The ERR register with only the bit of the cause set (60_exceptions.md R220). -/
def causeBit (e : ErrorCause) : BitVec 8 := BitVec.twoPow 8 ((causeCode e).toNat - 1)

/-- The ERR_INFO word: CAUSE at bits 3:0, OP at 7:4, ARG at 15:8, ADDR at 31:16 (10_state.md R39). -/
def errorRecord (e : ErrorCause) (op : BitVec 4) (arg : Byte) (addr : Addr) : Word :=
  atBit 16 addr ||| atBit 8 arg ||| atBit 4 op ||| atBit 0 (causeCode e)

/-- `raise E(OP, ARG, ADDR)` (60_exceptions.md R221, R222): the one way an error is taken. -/
def State.raise (s : State) (e : ErrorCause) (op : BitVec 4) (arg : Byte) (addr : Addr) : State :=
  { s with
    errInfo := if s.err = 0#8 then errorRecord e op arg addr else s.errInfo
    err := s.err ||| causeBit e }

/-- The ERR write, write 1 to clear (60_exceptions.md R223): the host's return from an error (R226). -/
def State.clearErrors (s : State) (v : Word) : State :=
  { s with err := s.err &&& ~~~(v.extractLsb' 0 8) }

/-! ## The tree's lifetime -/

/-- INVALIDATE (10_state.md R32). INODE and CODE, which the spec leaves unspecified after it
(93_implementation_defined.md rows 13 and 14), keep their contents: DESIGN CHOICE, log entry 9. -/
def State.invalidate (s : State) : State :=
  { s with
    treeState := .none, nsym := 0#9, root := 0x1FF#9, total := 0#32
    codesValid := false, decState := .idle, cur := 0x1FF#9 }

/-- Every register and FREQ to its reset value, INODE and CODE left as they are (40_control.md R104,
70_reset_and_hazards.md R250; for hardware reset leaving INODE and CODE is a DESIGN CHOICE: log entry 9; the
fields of the environment stay, log entry 17). -/
def State.clearRegisters (s : State) : State :=
  { s with
    freq := [], treeState := .none, nsym := 0#9, root := 0x1FF#9, total := 0#32
    codesValid := false, decState := .idle, cur := 0x1FF#9
    err := 0#8, errInfo := 0#32, irqEn := 0#2, nodeSel := 0#9 }

/-! ## Issue and completion of a command (40_control.md R100, R101) -/

/-- BUSY is 1 exactly when PENDING holds a word (10_state.md R30). -/
def State.busy (s : State) : Bool := s.pending.isSome

/-- `PENDING <- v` (40_control.md R100). -/
def State.issue (s : State) (v : Word) : State := { s with pending := some v }

/-- `PENDING <- nothing`, the end of every completion (40_control.md R101). -/
def State.retire (s : State) : State := { s with pending := none }

/-- A command that emits nothing completes in the state its pseudocode leaves. -/
def finish (t : State) : Host.Outcome State Fault Refusal := .next t.retire

/-- A command ends in an error: the raise is recorded with ADDR = 0x0004, and the command still completes
(40_control.md R101, 60_exceptions.md R221). -/
def fail (t : State) (e : ErrorCause) (op : BitVec 4) (arg : Byte) : Host.Outcome State Fault Refusal :=
  finish (t.raise e op arg 0x0004#16)

/-- A command whose pseudocode leaves `t` and emits `bytes` on ENC_OUT. It completes once the consumer has accepted
every byte; while the consumer accepts none, the step changes nothing and BUSY stays 1 (20_memory.md R70,
40_control.md R101; log entry 7). -/
def finishEnc (s t : State) (bytes : List Byte) : Host.Outcome State Fault Refusal :=
  if bytes = [] ∨ s.encReady = true then finish { t with encOut := t.encOut ++ bytes } else .next s

/-- The same for DEC_OUT. -/
def finishDec (s t : State) (bytes : List Byte) : Host.Outcome State Fault Refusal :=
  if bytes = [] ∨ s.decReady = true then finish { t with decOut := t.decOut ++ bytes } else .next s

/-! ## Host accesses (20_memory.md R62 to R64) -/

/-- A write is dropped with an error; OP = ARG = 0 (20_memory.md R63). -/
def rejectWrite (s : State) (e : ErrorCause) (a : Addr) : Host.Outcome State Fault Refusal :=
  .next (s.raise e 0#4 0#8 a)

/-- A write that is accepted only while BUSY = 0 (20_memory.md R63): `t` is the state it leaves. -/
def acceptWrite (s : State) (a : Addr) (t : State) : Host.Outcome State Fault Refusal :=
  if s.busy = true then rejectWrite s .busyViolation a else .next t

/-- A read returns `v` to the host (20_memory.md R62): nothing else changes. -/
def answer (s : State) (v : Word) : Host.Outcome State Fault Refusal := .next { s with reads := s.reads ++ [v] }

/-- A read returns `f` of a free value (20_memory.md R64, 00_scope.md R16; log entry 5). -/
def answerDraw (s : State) (f : Word → Word) : Host.Outcome State Fault Refusal :=
  .next { s with reads := s.reads ++ [f (Config.busyRead s.draws)], draws := s.draws + 1 }

/-- A read that is exact only while BUSY = 0, and any value otherwise (20_memory.md R64). -/
def answerIdle (s : State) (v : Word) : Host.Outcome State Fault Refusal :=
  if s.busy = true then answerDraw s id else answer s v

end Sys2Proof.Machine
end

