-- ==== Sys2Proof/Machine/Operands.lean ====
section
/-! DEFINITION. What a node index names (10_state.md R26, R27, 42_tree_builder.md R120 to R122) and what a word of
the CODE window shows (10_state.md R50). -/

namespace Sys2Proof.Machine

/-- isLeaf(i): i[8] = 0 (10_state.md R26). -/
def isLeaf (i : NodeIx) : Bool := !i.getLsbD 8

/-- The node index of the leaf of a symbol (10_state.md R26). -/
def leafIx (sym : Byte) : NodeIx := sym.setWidth 9

/-- The node index 256 + k of the internal node INODE[k] (10_state.md R26). -/
def internalIx (k : Nat) : NodeIx := BitVec.ofNat 9 (256 + k)

/-- INODE[i - 256], the record of an internal node index. -/
def recordOf (n : Table Inode) (i : NodeIx) : Inode := inodeOf n (i.toNat - 256)

/-- nodeFreq(i) (10_state.md R27). -/
def nodeFreq (f : Table Word) (n : Table Inode) (i : NodeIx) : Word :=
  if isLeaf i then freqOf f (i.setWidth 8) else (recordOf n i).freq

/-- nodeRep(i) (10_state.md R27). -/
def nodeRep (n : Table Inode) (i : NodeIx) : Byte := if isLeaf i then i.setWidth 8 else (recordOf n i).rep

/-- nodeLeft(i) (10_state.md R27). -/
def nodeLeft (n : Table Inode) (i : NodeIx) : NodeIx := if isLeaf i then 0x1FF#9 else (recordOf n i).left

/-- nodeRight(i) (10_state.md R27). -/
def nodeRight (n : Table Inode) (i : NodeIx) : NodeIx := if isLeaf i then 0x1FF#9 else (recordOf n i).right

/-- NINT, the number of internal nodes of the tree (10_state.md R27). -/
def State.nint (s : State) : Nat := if s.treeState = .multi then s.nsym.toNat - 1 else 0

/-- nodeValid(i) (10_state.md R27). -/
def State.nodeValid (s : State) (i : NodeIx) : Bool :=
  (decide (i.toNat ≤ 255) && (s.treeState == .single || s.treeState == .multi)
    && decide (s.freqAt (i.setWidth 8) ≠ 0#32))
  || (decide (256 ≤ i.toNat) && decide (i.toNat ≤ 510) && s.treeState == .multi
    && decide (i.toNat - 256 < s.nint))

/-- comesBefore(a, b), the tie-breaking order (42_tree_builder.md R121). -/
def comesBefore (f : Table Word) (n : Table Inode) (a b : NodeIx) : Bool :=
  decide ((nodeFreq f n a).toNat < (nodeFreq f n b).toNat)
  || (nodeFreq f n a == nodeFreq f n b && decide ((nodeRep n a).toNat < (nodeRep n b).toNat))

/-- The CODE window word `idx` of a code entry (10_state.md R50, the case CODES_VALID = 1). -/
def codeWord (c : CodeEntry) (idx : BitVec 4) : Word :=
  if idx.toNat = 0 then atBit 31 (BitVec.ofBool c.valid) ||| atBit 0 c.len
  else if idx.toNat ≤ 8 then c.bits.extractLsb' (32 * (idx.toNat - 1)) 32
  else 0#32

end Sys2Proof.Machine
end

