-- ==== Sys2Proof/Machine/Flags.lean ====
section
/-! DEFINITION. The status flags, the values the registers show, and the interrupt output (10_state.md R35 to R50,
60_exceptions.md R227). -/

namespace Sys2Proof.Machine

/-- The two bits of TREE_STATE (10_state.md R24). -/
def treeCode : TreeState → BitVec 2
  | .none => 0#2
  | .empty => 1#2
  | .single => 2#2
  | .multi => 3#2

/-- The two bits of DEC_STATE (10_state.md R28). -/
def decCode : DecState → BitVec 2
  | .idle => 0#2
  | .active => 1#2
  | .failed => 2#2

/-- ERR_ANY (10_state.md R37). -/
def State.errAny (s : State) : Bool := decide (s.err ≠ 0#8)

/-- The STATUS word (10_state.md R37). -/
def State.statusWord (s : State) : Word :=
  atBit 8 s.nsym ||| atBit 6 (BitVec.ofBool s.errAny) ||| atBit 4 (decCode s.decState)
    ||| atBit 3 (BitVec.ofBool s.codesValid) ||| atBit 1 (treeCode s.treeState) ||| atBit 0 (BitVec.ofBool s.busy)

/-- STATUS while BUSY = 1: bit 0 reads 1, bit 6 is ERR_ANY, the rest of any value `d` (20_memory.md R64). -/
def State.busyStatusWord (s : State) (d : Word) : Word :=
  atBit 7 (d.extractLsb' 7 25) ||| atBit 6 (BitVec.ofBool s.errAny) ||| atBit 1 (d.extractLsb' 1 5) ||| atBit 0 1#1

/-- irq (60_exceptions.md R227; log entry 16). -/
def State.irq (s : State) : Bool := (s.irqEn.getLsbD 0 && !s.busy) || (s.irqEn.getLsbD 1 && s.errAny)

/-- NODE_FREQ (10_state.md R46). -/
def State.nodeFreqWord (s : State) : Word :=
  if s.nodeValid s.nodeSel then nodeFreq s.freq s.inode s.nodeSel else 0#32

/-- NODE_REP (10_state.md R47). -/
def State.nodeRepWord (s : State) : Word :=
  if s.nodeValid s.nodeSel then atBit 31 1#1 ||| atBit 0 (nodeRep s.inode s.nodeSel) else 0#32

/-- NODE_LINK (10_state.md R48). -/
def State.nodeLinkWord (s : State) : Word :=
  if s.nodeValid s.nodeSel then atBit 16 (nodeRight s.inode s.nodeSel) ||| atBit 0 (nodeLeft s.inode s.nodeSel)
  else 0#32

/-- PARAM (10_state.md R44). -/
def State.paramWord (s : State) : Word := atBit 0 (BitVec.ofNat 6 s.freqW)

/-- Word `idx` of CODE[sym] in the CODE window (10_state.md R50). -/
def State.codeWindowWord (s : State) (sym : Byte) (idx : BitVec 4) : Word :=
  if s.codesValid then codeWord (s.codeAt sym) idx else 0#32

end Sys2Proof.Machine
end

