-- ==== Sys2Proof/Machine/CodeTable.lean ====
section
/-! DEFINITION. GEN_CODES, ENCODE, and the reads of the CODE window (43_code_table.md, 10_state.md R50). -/

namespace Sys2Proof.Machine

/-- pack(path): bit j is path[j], 0 from the path's end on (43_code_table.md R142). -/
def packPath (path : List Bool) : BitVec 256 := (BitVec.ofBoolListLE path).setWidth 256

/-- CODE[sym] <- the code with the characters of `path` (43_code_table.md R140). -/
def setCode (c : Table CodeEntry) (sym : Byte) (path : List Bool) : Table CodeEntry :=
  Table.set CodeEntry.absent c sym.toNat
    { valid := true, len := BitVec.ofNat 8 path.length, bits := packPath path }

/-- walk(i, path) (43_code_table.md R140). `levels` bounds the nodes on a path; a tree of the block has at most 256
of them (R141), so the bound cuts no walk of a tree BUILD made (log entry 10). -/
def walk (n : Table Inode) : Nat → NodeIx → List Bool → Table CodeEntry → Table CodeEntry
  | 0, _, _, c => c
  | levels + 1, i, path, c =>
    if isLeaf i then setCode c (i.setWidth 8) path
    else walk n levels (nodeRight n i) (path ++ [true]) (walk n levels (nodeLeft n i) (path ++ [false]) c)

/-- GEN_CODES (43_code_table.md R140, R143). -/
def execGenCodes (s : State) : Host.Outcome State Fault Refusal :=
  if s.treeState = .none then fail s .sequence 0x4#4 0#8
  else finish { s with
    code := if s.treeState = .multi then walk s.inode 256 s.root [] [] else []
    codesValid := true }

/-- The characters of a code, first character first (43_code_table.md R145): 0x31 for a 1, 0x30 for a 0. -/
def codeBytes (c : CodeEntry) : List Byte :=
  (List.range c.len.toNat).map fun j => if c.bits.getLsbD j then 0x31#8 else 0x30#8

/-- ENCODE (43_code_table.md R145 to R147). -/
def execEncode (sym : Byte) (s : State) : Host.Outcome State Fault Refusal :=
  if s.codesValid = false then fail s .sequence 0x5#4 sym
  else if (s.codeAt sym).valid = true then finishEnc s s (codeBytes (s.codeAt sym))
  else if s.treeState = .single ∧ leafIx sym = s.root then finish s
  else fail s .unknownSymbol 0x5#4 sym

/-- RD_CODE, symbols 0 to 63 (10_state.md R50, 20_memory.md R64). -/
def execRdCodeLow (part : BitVec 6) (idx : BitVec 4) (s : State) : Host.Outcome State Fault Refusal :=
  answerIdle s (s.codeWindowWord (codeSymbol 0#8 part) idx)

/-- RD_CODE, symbols 64 to 191. -/
def execRdCodeMid (part : BitVec 7) (idx : BitVec 4) (s : State) : Host.Outcome State Fault Refusal :=
  answerIdle s (s.codeWindowWord (codeSymbol 64#8 part) idx)

/-- RD_CODE, symbols 192 to 255. -/
def execRdCodeHigh (part : BitVec 6) (idx : BitVec 4) (s : State) : Host.Outcome State Fault Refusal :=
  answerIdle s (s.codeWindowWord (codeSymbol 192#8 part) idx)

end Sys2Proof.Machine
end

