-- ==== Sys2Proof/Machine/Control.lean ====
section
/-! DEFINITION. Command issue, NOP, RESET and the illegal command (40_control.md). -/

namespace Sys2Proof.Machine

/-- NOP (40_control.md R103). -/
def execNop (s : State) : Host.Outcome State Fault Refusal := finish s

/-- RESET (40_control.md R104). -/
def execReset (s : State) : Host.Outcome State Fault Refusal := finish s.clearRegisters

/-- An illegal command word (40_control.md R102). -/
def execIllegal (w : Word) (s : State) : Host.Outcome State Fault Refusal :=
  fail s .illegalCmd (opField w) (argField w)

/-- WR_CMD: issue (40_control.md R100, 20_memory.md R63). -/
def execWrCmd (v : Word) (s : State) : Host.Outcome State Fault Refusal := acceptWrite s 0x0004#16 (s.issue v)

end Sys2Proof.Machine
end

