-- ==== Sys2Proof/Machine/Decoder.lean ====
section
/-! DEFINITION. The tree-walk decoder: DEC_START, DEC_CHAR, DEC_END (44_decoder.md). -/

namespace Sys2Proof.Machine

/-- DEC_START (44_decoder.md R160). -/
def execDecStart (s : State) : Host.Outcome State Fault Refusal :=
  if s.treeState = .none then fail s .sequence 0x6#4 0#8
  else finish { s with cur := s.root, decState := .active }

/-- The node a character moves to from `i`: left on 0x30, right on 0x31, else the character is malformed
(44_decoder.md R161). -/
def nextNode (n : Table Inode) (i : NodeIx) (chr : Byte) : Option NodeIx :=
  if chr = 0x30#8 then some (nodeLeft n i) else if chr = 0x31#8 then some (nodeRight n i) else none

/-- The walk arrives at `nxt`: a leaf is emitted at once and the walk returns to the root (44_decoder.md R161,
R163). -/
def moveTo (s : State) (nxt : NodeIx) : Host.Outcome State Fault Refusal :=
  if isLeaf nxt then finishDec s { s with cur := s.root } [nxt.setWidth 8]
  else finish { s with cur := nxt }

/-- DEC_CHAR in a MULTI tree (44_decoder.md R161, R167). -/
def decCharMulti (chr : Byte) (s : State) : Host.Outcome State Fault Refusal :=
  match nextNode s.inode s.cur chr with
  | some nxt => moveTo s nxt
  | none => fail { s with decState := .failed } .malformedInput 0x7#4 chr

/-- DEC_CHAR (44_decoder.md R161, R166). -/
def execDecChar (chr : Byte) (s : State) : Host.Outcome State Fault Refusal :=
  if s.decState ≠ .active then fail s .sequence 0x7#4 chr
  else if s.treeState = .empty ∨ s.treeState = .single then finish s
  else decCharMulti chr s

/-- DEC_END (44_decoder.md R162, R166, R167). -/
def execDecEnd (s : State) : Host.Outcome State Fault Refusal :=
  if s.decState ≠ .active then fail s .sequence 0x8#4 0#8
  else if s.treeState = .single then
    finishDec s { s with decState := .idle }
      (List.replicate (nodeFreq s.freq s.inode s.root).toNat (s.root.setWidth 8))
  else if s.treeState = .multi ∧ s.cur ≠ s.root then
    fail { s with decState := .failed } .truncatedInput 0x8#4 0#8
  else finish { s with decState := .idle }

end Sys2Proof.Machine
end

