-- ==== Sys2Proof/Machine/Frequency.lean ====
section
/-! DEFINITION. The frequency table: CLR_FREQ, COUNT and the FREQ window write (41_frequency.md). -/

namespace Sys2Proof.Machine

/-- CLR_FREQ (41_frequency.md R111). -/
def execClrFreq (s : State) : Host.Outcome State Fault Refusal :=
  finish ({ s with freq := [] } : State).invalidate

/-- COUNT (41_frequency.md R112). -/
def execCount (sym : Byte) (s : State) : Host.Outcome State Fault Refusal :=
  if (s.freqAt sym).toNat = s.freqMax then fail s .freqOverflow 0x2#4 sym
  else finish (s.setFreq sym (s.freqAt sym + 1#32)).invalidate

/-- v[FREQ_W-1:0], the value a FREQ write stores (41_frequency.md R110). -/
def State.lowFreqBits (s : State) (v : Word) : Word := BitVec.ofNat 32 (v.toNat % 2 ^ s.freqW)

/-- WR_FREQ (41_frequency.md R110). -/
def execWrFreq (sym : Byte) (v : Word) (s : State) : Host.Outcome State Fault Refusal :=
  acceptWrite s (freqAddr sym) (s.setFreq sym (s.lowFreqBits v)).invalidate

end Sys2Proof.Machine
end

