-- ==== Sys2Proof/Machine/Registers.lean ====
section
/-! DEFINITION. The reads of the registers and of the FREQ window, the ERR and IRQ_EN writes, and the accesses that
name no register (10_state.md R35 to R49, 20_memory.md R62 to R64, 60_exceptions.md R223, R228). -/

namespace Sys2Proof.Machine

/-- RD_REG of ID (10_state.md R35). -/
def execRdId (s : State) : Host.Outcome State Fault Refusal := answer s 0x48554631#32

/-- RD_REG of CMD, which reads 0 (10_state.md R36). -/
def execRdCmd (s : State) : Host.Outcome State Fault Refusal := answer s 0#32

/-- RD_REG of STATUS (10_state.md R37, 20_memory.md R64). -/
def execRdStatus (s : State) : Host.Outcome State Fault Refusal :=
  if s.busy = true then answerDraw s s.busyStatusWord else answer s s.statusWord

/-- RD_REG of ERR (10_state.md R38). -/
def execRdErr (s : State) : Host.Outcome State Fault Refusal := answer s (s.err.setWidth 32)

/-- RD_REG of ERR_INFO (10_state.md R39). -/
def execRdErrInfo (s : State) : Host.Outcome State Fault Refusal := answer s s.errInfo

/-- RD_REG of IRQ_EN (10_state.md R40). -/
def execRdIrqEn (s : State) : Host.Outcome State Fault Refusal := answer s (s.irqEn.setWidth 32)

/-- RD_REG of ROOT (10_state.md R41). -/
def execRdRoot (s : State) : Host.Outcome State Fault Refusal := answerIdle s (s.root.setWidth 32)

/-- RD_REG of TOTAL (10_state.md R42). -/
def execRdTotal (s : State) : Host.Outcome State Fault Refusal := answerIdle s s.total

/-- RD_REG of DEC_CUR (10_state.md R43). -/
def execRdDecCur (s : State) : Host.Outcome State Fault Refusal := answerIdle s (s.cur.setWidth 32)

/-- RD_REG of NODE_SEL (10_state.md R45). -/
def execRdNodeSel (s : State) : Host.Outcome State Fault Refusal := answer s (s.nodeSel.setWidth 32)

/-- RD_REG of NODE_FREQ (10_state.md R46). -/
def execRdNodeFreq (s : State) : Host.Outcome State Fault Refusal := answerIdle s s.nodeFreqWord

/-- RD_REG of NODE_REP (10_state.md R47). -/
def execRdNodeRep (s : State) : Host.Outcome State Fault Refusal := answerIdle s s.nodeRepWord

/-- RD_REG of NODE_LINK (10_state.md R48). -/
def execRdNodeLink (s : State) : Host.Outcome State Fault Refusal := answerIdle s s.nodeLinkWord

/-- RD_REG of PARAM (10_state.md R44). -/
def execRdParam (s : State) : Host.Outcome State Fault Refusal := answer s s.paramWord

/-- RD_FREQ (10_state.md R49). -/
def execRdFreq (sym : Byte) (s : State) : Host.Outcome State Fault Refusal := answerIdle s (s.freqAt sym)

/-- RD_UNMAPPED: an unmapped or misaligned address reads 0 (20_memory.md R61, R62, R65). -/
def execRdUnmapped (_ : Addr) (s : State) : Host.Outcome State Fault Refusal := answer s 0#32

/-- WR_ERR, accepted in every state (60_exceptions.md R223). -/
def execWrErr (v : Word) (s : State) : Host.Outcome State Fault Refusal := .next (s.clearErrors v)

/-- WR_IRQ_EN, accepted in every state (60_exceptions.md R228). -/
def execWrIrqEn (v : Word) (s : State) : Host.Outcome State Fault Refusal :=
  .next { s with irqEn := v.extractLsb' 0 2 }

/-- WR_BAD: BAD_ADDR, whether or not a command is pending (20_memory.md R63, 60_exceptions.md R224). -/
def execWrBad (a : Addr) (_ : Word) (s : State) : Host.Outcome State Fault Refusal := rejectWrite s .badAddr a

end Sys2Proof.Machine
end

