-- ==== Sys2Proof/Machine/TreeBuilder.lean ====
section
/-! DEFINITION. BUILD, the merge queue with its tie-breaking order, and the node selection (42_tree_builder.md). -/

namespace Sys2Proof.Machine

/-- The 256 symbols in ascending order. -/
def symbols : List Byte := (List.range 256).map (BitVec.ofNat 8)

/-- The exact sum of FREQ (42_tree_builder.md R124). -/
def freqTotal (f : Table Word) : Nat := (symbols.map fun x => (freqOf f x).toNat).sum

/-- L, the leaf indices in ascending symbol order (42_tree_builder.md R124, R125). -/
def leafList (f : Table Word) : List NodeIx := (symbols.filter fun x => freqOf f x ≠ 0#32).map leafIx

/-- Re-insertion: `m` goes before the first node that does not come before it, or to the end
(42_tree_builder.md R127). -/
def insertNode (f : Table Word) (n : Table Inode) (m : NodeIx) : List NodeIx → List NodeIx
  | [] => [m]
  | q :: qs => if comesBefore f n q m then q :: insertNode f n m qs else m :: q :: qs

/-- sorted(L): the same insertion, one node after another; there is one sorted list (42_tree_builder.md R123,
R125, R131). DEDUCED, safe: log entry 18. -/
def sortNodes (f : Table Word) (n : Table Inode) : List NodeIx → List NodeIx
  | [] => []
  | q :: qs => insertNode f n q (sortNodes f n qs)

/-- The record of a merge of `a`, the lower-ordered node, and `b` (42_tree_builder.md R126). -/
def mergeRecord (f : Table Word) (n : Table Inode) (a b : NodeIx) : Inode :=
  { freq := nodeFreq f n a + nodeFreq f n b
    rep := if (nodeRep n a).toNat ≤ (nodeRep n b).toNat then nodeRep n a else nodeRep n b
    left := a
    right := b }

/-- INODE[k] <- r. -/
def setInode (n : Table Inode) (k : Nat) (r : Inode) : Table Inode := Table.set Inode.unwritten n k r

/-- The merge loop from merge `k` on (42_tree_builder.md R124). Each merge shortens the queue by one, so as many
rounds as the queue is long are enough (R128). -/
def mergeLoop (f : Table Word) : Nat → Nat → Table Inode → List NodeIx → Table Inode × List NodeIx
  | rounds + 1, k, n, a :: b :: q =>
    let n' := setInode n k (mergeRecord f n a b)
    mergeLoop f rounds (k + 1) n' (insertNode f n' (internalIx k) q)
  | _, _, n, q => (n, q)

/-- The tree registers after a merge of two or more leaves (42_tree_builder.md R124, R128). -/
def State.builtMulti (s : State) (leaves : List NodeIx) : State :=
  let r := mergeLoop s.freq leaves.length 0 s.inode (sortNodes s.freq s.inode leaves)
  let top := r.2.headD 0x1FF#9
  { s with
    inode := r.1, treeState := .multi, nsym := BitVec.ofNat 9 leaves.length, root := top
    total := nodeFreq s.freq r.1 top }

/-- The tree registers of a one-symbol tree (42_tree_builder.md R124, R134). -/
def State.builtSingle (s : State) (leaf : NodeIx) : State :=
  { s with treeState := .single, nsym := 1#9, root := leaf, total := nodeFreq s.freq s.inode leaf }

/-- BUILD after INVALIDATE and the overflow check, by the number of leaves (42_tree_builder.md R124). -/
def State.buildFrom (s : State) : List NodeIx → State
  | [] => { s with treeState := .empty }
  | [leaf] => s.builtSingle leaf
  | a :: b :: leaves => s.builtMulti (a :: b :: leaves)

/-- BUILD (42_tree_builder.md R124, R129). -/
def execBuild (s : State) : Host.Outcome State Fault Refusal :=
  if freqTotal s.freq > s.freqMax then fail s.invalidate .freqOverflow 0x3#4 0#8
  else finish (s.invalidate.buildFrom (leafList s.freq))

/-- WR_NODE_SEL (42_tree_builder.md R130). -/
def execWrNodeSel (v : Word) (s : State) : Host.Outcome State Fault Refusal :=
  acceptWrite s 0x0024#16 { s with nodeSel := v.extractLsb' 0 9 }

end Sys2Proof.Machine
end

