-- ==== Sys2Proof/Machine/Dispatch.lean ====
section
/-! DEFINITION. The dispatch: one arm per constructor of Instr, one direct call of its meaning (log entry
13). -/

namespace Sys2Proof.Machine

def exec (i : Instr) (s : State) : Host.Outcome State Fault Refusal :=
  match i with
  | .nop => Sys2Proof.Machine.execNop s
  | .clrFreq => Sys2Proof.Machine.execClrFreq s
  | .count sym => Sys2Proof.Machine.execCount sym s
  | .build => Sys2Proof.Machine.execBuild s
  | .genCodes => Sys2Proof.Machine.execGenCodes s
  | .encode sym => Sys2Proof.Machine.execEncode sym s
  | .decStart => Sys2Proof.Machine.execDecStart s
  | .decChar chr => Sys2Proof.Machine.execDecChar chr s
  | .decEnd => Sys2Proof.Machine.execDecEnd s
  | .reset => Sys2Proof.Machine.execReset s
  | .illegal w => Sys2Proof.Machine.execIllegal w s
  | .wrCmd v => Sys2Proof.Machine.execWrCmd v s
  | .wrErr v => Sys2Proof.Machine.execWrErr v s
  | .wrIrqEn v => Sys2Proof.Machine.execWrIrqEn v s
  | .wrNodeSel v => Sys2Proof.Machine.execWrNodeSel v s
  | .wrFreq sym v => Sys2Proof.Machine.execWrFreq sym v s
  | .wrBad a v => Sys2Proof.Machine.execWrBad a v s
  | .rdId => Sys2Proof.Machine.execRdId s
  | .rdCmd => Sys2Proof.Machine.execRdCmd s
  | .rdStatus => Sys2Proof.Machine.execRdStatus s
  | .rdErr => Sys2Proof.Machine.execRdErr s
  | .rdErrInfo => Sys2Proof.Machine.execRdErrInfo s
  | .rdIrqEn => Sys2Proof.Machine.execRdIrqEn s
  | .rdRoot => Sys2Proof.Machine.execRdRoot s
  | .rdTotal => Sys2Proof.Machine.execRdTotal s
  | .rdDecCur => Sys2Proof.Machine.execRdDecCur s
  | .rdNodeSel => Sys2Proof.Machine.execRdNodeSel s
  | .rdNodeFreq => Sys2Proof.Machine.execRdNodeFreq s
  | .rdNodeRep => Sys2Proof.Machine.execRdNodeRep s
  | .rdNodeLink => Sys2Proof.Machine.execRdNodeLink s
  | .rdParam => Sys2Proof.Machine.execRdParam s
  | .rdFreq sym => Sys2Proof.Machine.execRdFreq sym s
  | .rdCodeLow part idx => Sys2Proof.Machine.execRdCodeLow part idx s
  | .rdCodeMid part idx => Sys2Proof.Machine.execRdCodeMid part idx s
  | .rdCodeHigh part idx => Sys2Proof.Machine.execRdCodeHigh part idx s
  | .rdUnmapped a => Sys2Proof.Machine.execRdUnmapped a s

end Sys2Proof.Machine
end

