-- ==== Sys2Proof/Machine/Agents.lean ====
section
/-! DEFINITION. What each agent does in one act (00_scope.md R7): the host's accesses, the Engine's completion
(40_control.md R101), hardware reset (70_reset_and_hazards.md R250, R251), and the streams' consumer
(20_memory.md R70). -/

namespace Sys2Proof.Machine

/-- The Engine's step: it decodes and runs the pending word (40_control.md R101). With nothing pending it is not
enabled, and nothing changes (log entry 3). -/
def engineStep (s : State) : Host.Outcome State Fault Refusal :=
  match s.pending with
  | some w => exec (decode (.command w)) s
  | none => .next s

/-- The bytes the pending command would put on ENC_OUT and on DEC_OUT if the consumer accepted them all. -/
def pendingOutput (s : State) : List Byte × List Byte :=
  match engineStep { s with encReady := true, decReady := true } with
  | .next t => (t.encOut.drop s.encOut.length, t.decOut.drop s.decOut.length)
  | _ => ([], [])

/-- The part of an output cut by hardware reset that the consumer had accepted: a prefix of a drawn length, from
none to all (70_reset_and_hazards.md R251; log entry 6). -/
def acceptedPart (draw : Nat) (bytes : List Byte) : List Byte :=
  bytes.take (Config.acceptedPrefix draw % (bytes.length + 1))

/-- A pending command abandoned by hardware reset: a prefix of its bytes may have been accepted, nothing else of it
survives (70_reset_and_hazards.md R251). -/
def State.abandon (s : State) : State :=
  if s.busy = true then
    { s with
      encOut := s.encOut ++ acceptedPart s.draws (pendingOutput s).1
      decOut := s.decOut ++ acceptedPart s.draws (pendingOutput s).2
      draws := s.draws + 1
      pending := none }
  else s

/-- Hardware reset (70_reset_and_hazards.md R250, R251). -/
def hardwareReset (s : State) : Host.Outcome State Fault Refusal := .next s.abandon.clearRegisters

/-- One act. -/
def perform (e : Event) (s : State) : Host.Outcome State Fault Refusal :=
  match e with
  | .read a => exec (decode (.read a)) s
  | .write a v => exec (decode (.write a v)) s
  | .engine => engineStep s
  | .hardReset => hardwareReset s
  | .consumer enc dec => .next { s with encReady := enc, decReady := dec }

/-- The next act of the list, which is taken off it; with no act left, the Engine's fairness (40_control.md R101):
a pending command completes, and otherwise the block idles (log entry 3). -/
def nextAct (s : State) : Host.Outcome State Fault Refusal :=
  match s.events with
  | [] => engineStep s
  | e :: rest => perform e { s with events := rest }

/-- `s` with an operation placed where the next step takes it: a command word in PENDING with the Engine's step
next, an access as the host's next act (log entry 12). -/
def State.place (s : State) (e : Encoding) : State :=
  match e with
  | .command w => { s with pending := some w, events := .engine :: s.events }
  | .write a v => { s with events := .write a v :: s.events }
  | .read a => { s with events := .read a :: s.events }

end Sys2Proof.Machine
end

