-- ==== Sys2Proof/Safety.lean ====
section
/-! DEFINITION. What claims about runs of the block are stated with: the launch premises and the end of a run
(70_reset_and_hazards.md R262, R263), the state invariants (10_state.md R33, 20_memory.md R74, 44_decoder.md R165),
runs of several operations, paths in the tree, and the address map as numbers (20_memory.md R61). -/

namespace Sys2Proof.Machine

/-! ## Runs -/

/-- The consumer drains both streams, the premise of every claim that needs a command to complete
(40_control.md R101, 70_reset_and_hazards.md R263). -/
def State.drained (s : State) : Prop := s.encReady = true ∧ s.decReady = true

/-- The shared clean start (70_reset_and_hazards.md R263), for any FREQ_W and any acts to come. -/
def State.cleanStart (s : State) : Prop := s = { State.reset with freqW := s.freqW, events := s.events }

/-- The end of a run: no act is to come, and BUSY = 0 (70_reset_and_hazards.md R262). -/
def State.runEnded (s : State) : Prop := s.events = [] ∧ s.busy = false

/-- Several operations, one after another, each completing before the next. -/
def execAll : List Instr → State → Host.Outcome State Fault Refusal
  | [], s => .next s
  | i :: is, s =>
    match exec i s with
    | .next t => execAll is t
    | .fault r => .fault r
    | .refused r => .refused r

/-! ## Invariants -/

/-- The parameter FREQ_W is legal (00_scope.md R6) and the arrays hold what their widths allow: canonical form, at
most 256, 255 and 256 entries, counters below 2^FREQ_W (10_state.md R22, R23, R25). -/
def State.storesOk (s : State) : Bool :=
  decide (1 ≤ s.freqW) && decide (s.freqW ≤ 32)
  && Table.wf 0#32 256 s.freq && s.freq.all (fun p => decide (p.2.toNat < 2 ^ s.freqW))
  && Table.wf Inode.unwritten 255 s.inode && Table.wf CodeEntry.absent 256 s.code

/-- Every node frequency and TOTAL is FREQ_W bits wide (00_scope.md R6, 10_state.md R23, R24), as `storesOk` says of
the counters. -/
def State.widthsOk (s : State) : Bool :=
  s.inode.all (fun p => decide (p.2.freq.toNat < 2 ^ s.freqW)) && decide (s.total.toNat < 2 ^ s.freqW)

/-- The first four bullets of 10_state.md R33, by TREE_STATE. -/
def State.treeRegsOk (s : State) : Prop :=
  match s.treeState with
  | .none => s.nsym = 0#9 ∧ s.root = 0x1FF#9 ∧ s.total = 0#32 ∧ s.codesValid = false ∧ s.decState = .idle
  | .empty => s.nsym = 0#9 ∧ s.root = 0x1FF#9 ∧ s.total = 0#32 ∧ ∀ x : Byte, s.freqAt x = 0#32
  | .single => s.nsym = 1#9 ∧ ∃ x : Byte, s.root = x.setWidth 9 ∧ s.freqAt x ≠ 0#32 ∧
      (∀ y : Byte, y ≠ x → s.freqAt y = 0#32) ∧ s.total = s.freqAt x
  | .multi => 2 ≤ s.nsym.toNat ∧ s.nsym.toNat ≤ 256 ∧ s.root.toNat = 256 + s.nsym.toNat - 2 ∧
      s.total = nodeFreq s.freq s.inode s.root ∧
      s.total.toNat = (symbols.map fun x => (s.freqAt x).toNat).sum

/-- The last bullet of 10_state.md R33 for the internal node 256 + k, and the order of the merges: a child made by a
merge was made by an earlier one (42_tree_builder.md R124). -/
def State.nodeOk (s : State) (k : Nat) : Prop :=
  let r := inodeOf s.inode k
  s.nodeValid r.left = true ∧ s.nodeValid r.right = true ∧
  r.left.toNat < 256 + k ∧ r.right.toNat < 256 + k ∧
  r.freq.toNat = (nodeFreq s.freq s.inode r.left).toNat + (nodeFreq s.freq s.inode r.right).toNat ∧
  r.rep.toNat = min (nodeRep s.inode r.left).toNat (nodeRep s.inode r.right).toNat

/-- Every internal node of the tree is as 10_state.md R33 says; the walk of an open bracket stands on a valid
internal node (44_decoder.md R165); and a valid code table is the one GEN_CODES makes of the current tree
(20_memory.md R74). -/
def State.treeOk (s : State) : Prop :=
  (∀ k, k < s.nint → s.nodeOk k) ∧
  (s.treeState = .multi → s.decState = .active → 256 ≤ s.cur.toNat ∧ s.cur.toNat - 256 < s.nint) ∧
  (s.codesValid = true → s.code = if s.treeState = .multi then walk s.inode 256 s.root [] [] else [])

/-! ## Trees -/

/-- The number of symbols with non-zero frequency, the leaves of the tree (42_tree_builder.md R124). -/
def State.leafCount (s : State) : Nat := symbols.countP fun x => decide (s.freqAt x ≠ 0#32)

/-- BUILD makes a MULTI tree: FREQ_W is legal, at least two symbols have a non-zero frequency, and the exact sum
does not pass FREQ_MAX (42_tree_builder.md R124). -/
def State.buildsTree (s : State) : Prop :=
  s.freqW ≤ 32 ∧ 2 ≤ s.leafCount ∧ (symbols.map fun x => (s.freqAt x).toNat).sum ≤ 2 ^ s.freqW - 1

/-! ## Paths -/

/-- The node reached from `i` along a path, false to the left and true to the right (43_code_table.md R141). -/
def follow (n : Table Inode) : NodeIx → List Bool → NodeIx
  | i, [] => i
  | i, b :: p => follow n (if b then nodeRight n i else nodeLeft n i) p

/-- The characters of a code as a path (43_code_table.md R142). -/
def codePath (c : CodeEntry) : List Bool := (List.range c.len.toNat).map fun j => c.bits.getLsbD j

/-- The source's reference loop (44_decoder.md R163, 90_conflicts.md C1): a leaf is noticed one character later, at
the top of the next round, and the last symbol is emitted after the loop. -/
def lazyDecode (n : Table Inode) (root : NodeIx) : NodeIx → List Byte → List Byte
  | i, [] => if isLeaf i then [i.setWidth 8] else []
  | i, chr :: chrs =>
    let here := if isLeaf i then root else i
    let out : List Byte := if isLeaf i then [i.setWidth 8] else []
    out ++ lazyDecode n root (if chr = 0x30#8 then nodeLeft n here else nodeRight n here) chrs

/-! ## The address map as numbers (20_memory.md R61, R63) -/

/-- The unmapped ranges. -/
def unmappedAddr (a : Nat) : Bool :=
  (decide (0x0038 ≤ a) && decide (a ≤ 0x03FF)) || (decide (0x0800 ≤ a) && decide (a ≤ 0x0FFF))
  || (decide (0x5000 ≤ a) && decide (a ≤ 0xFFFF))

/-- The read-only regions: ID, STATUS, ERR_INFO, ROOT, TOTAL, DEC_CUR, NODE_FREQ, NODE_REP, NODE_LINK, PARAM and the
CODE window. -/
def readOnlyAddr (a : Nat) : Bool :=
  decide (a ∈ [0x0000, 0x0008, 0x0010, 0x0018, 0x001C, 0x0020, 0x0028, 0x002C, 0x0030, 0x0034])
  || (decide (0x1000 ≤ a) && decide (a ≤ 0x4FFF))

/-- The STATUS word as a number (10_state.md R37). -/
def statusValue (s : State) : Nat :=
  s.busy.toNat + 2 * (treeCode s.treeState).toNat + 8 * s.codesValid.toNat + 16 * (decCode s.decState).toNat
    + 64 * (decide (s.err ≠ 0#8)).toNat + 256 * s.nsym.toNat

/-- Word `w` of a code entry as a number (10_state.md R50). -/
def codeWordValue (c : CodeEntry) (w : Nat) : Nat :=
  if w = 0 then 2 ^ 31 * c.valid.toNat + c.len.toNat
  else if w ≤ 8 then c.bits.toNat / 2 ^ (32 * (w - 1)) % 2 ^ 32
  else 0

/-- What a register or window shows at an aligned mapped address while BUSY = 0, by number (10_state.md R35 to
R50). -/
def readValue (s : State) (a : Nat) : Word :=
  if a = 0x0000 then 0x48554631#32
  else if a = 0x0004 then 0#32
  else if a = 0x0008 then BitVec.ofNat 32 (statusValue s)
  else if a = 0x000C then BitVec.ofNat 32 s.err.toNat
  else if a = 0x0010 then s.errInfo
  else if a = 0x0014 then BitVec.ofNat 32 s.irqEn.toNat
  else if a = 0x0018 then BitVec.ofNat 32 s.root.toNat
  else if a = 0x001C then s.total
  else if a = 0x0020 then BitVec.ofNat 32 s.cur.toNat
  else if a = 0x0024 then BitVec.ofNat 32 s.nodeSel.toNat
  else if a = 0x0028 then if s.nodeValid s.nodeSel then nodeFreq s.freq s.inode s.nodeSel else 0#32
  else if a = 0x002C then
    if s.nodeValid s.nodeSel then BitVec.ofNat 32 (2 ^ 31 + (nodeRep s.inode s.nodeSel).toNat) else 0#32
  else if a = 0x0030 then
    if s.nodeValid s.nodeSel then
      BitVec.ofNat 32 ((nodeLeft s.inode s.nodeSel).toNat + 2 ^ 16 * (nodeRight s.inode s.nodeSel).toNat)
    else 0#32
  else if a = 0x0034 then BitVec.ofNat 32 (s.freqW % 64)
  else if a ≤ 0x07FF then s.freqAt (BitVec.ofNat 8 ((a - 0x0400) / 4))
  else if s.codesValid then
    BitVec.ofNat 32 (codeWordValue (s.codeAt (BitVec.ofNat 8 ((a - 0x1000) / 64))) ((a - 0x1000) % 64 / 4))
  else 0#32

end Sys2Proof.Machine
end

