-- ==== Sys2Proof/Certificates/Slice0/Obligations.lean ====
section
/-! DEFINITION. The statements for the provers. Each docstring names the rule of spec/ it formalises. -/

open Sys2Proof Sys2Proof.Machine

/-! ## Encoding -/

/-- Thirteen command words, vectors V-E1 to V-E8, V-E11 to V-E13, V-E16 and V-E18 of 95_test_vectors.md (30_encoding.md
R82 to R84), and six accesses: WR_FREQ at 0x0584, WR_BAD at 0x1000, and reads at 0x0030 (NODE_LINK), 0x05E0 (FREQ),
0x2904 (CODE) and 0x0402 (misaligned) (R87). -/
def Obligations.SampleWordsDecode : Prop :=
  decode (.command 0x00000000#32) = .nop ∧
  decode (.command 0x00000001#32) = .clrFreq ∧
  decode (.command 0x00006102#32) = .count 0x61#8 ∧
  decode (.command 0x0000FF02#32) = .count 0xFF#8 ∧
  decode (.command 0x00000003#32) = .build ∧
  decode (.command 0x00000004#32) = .genCodes ∧
  decode (.command 0x00006605#32) = .encode 0x66#8 ∧
  decode (.command 0x00000006#32) = .decStart ∧
  decode (.command 0x00000A07#32) = .decChar 0x0A#8 ∧
  decode (.command 0x00000008#32) = .decEnd ∧
  decode (.command 0x0000000F#32) = .reset ∧
  decode (.command 0x00000103#32) = .illegal 0x00000103#32 ∧
  decode (.command 0x00016102#32) = .illegal 0x00016102#32 ∧
  decode (.write 0x0584#16 2#32) = .wrFreq 0x61#8 2#32 ∧
  decode (.write 0x1000#16 0#32) = .wrBad 0x1000#16 0#32 ∧
  decode (.read 0x0030#16) = .rdNodeLink ∧
  decode (.read 0x05E0#16) = .rdFreq 0x78#8 ∧
  decode (.read 0x2904#16) = .rdCodeMid 36#7 1#4 ∧
  decode (.read 0x0402#16) = .rdUnmapped 0x0402#16

/-- Every well-formed operation is what its encoding decodes to: no operand bit is dropped (30_encoding.md R80 to
R83, R87). -/
def Obligations.DecodeInvertsEncode : Prop :=
  ∀ i : Instr, i.wellFormed = true → decode (encode i) = i

/-- Every command word and every access is a well-formed operation, and encodes back to itself: every 32-bit word
has one meaning (30_encoding.md R85) and every access falls in one row (R87). -/
def Obligations.EncodeInvertsDecode : Prop :=
  ∀ e : Encoding, (decode e).wellFormed = true ∧ encode (decode e) = e

/-- 30_encoding.md R82: a word selects the row whose match it shows under the row's mask, and no two rows. -/
def Obligations.CommandRowsSelectOneCommand : Prop :=
  ∀ w : Word,
    (w &&& 0xFFFFFFFF#32 = 0x00000000#32 → decode (.command w) = .nop) ∧
    (w &&& 0xFFFFFFFF#32 = 0x00000001#32 → decode (.command w) = .clrFreq) ∧
    (w &&& 0xFFFF00FF#32 = 0x00000002#32 → decode (.command w) = .count (w.extractLsb' 8 8)) ∧
    (w &&& 0xFFFFFFFF#32 = 0x00000003#32 → decode (.command w) = .build) ∧
    (w &&& 0xFFFFFFFF#32 = 0x00000004#32 → decode (.command w) = .genCodes) ∧
    (w &&& 0xFFFF00FF#32 = 0x00000005#32 → decode (.command w) = .encode (w.extractLsb' 8 8)) ∧
    (w &&& 0xFFFFFFFF#32 = 0x00000006#32 → decode (.command w) = .decStart) ∧
    (w &&& 0xFFFF00FF#32 = 0x00000007#32 → decode (.command w) = .decChar (w.extractLsb' 8 8)) ∧
    (w &&& 0xFFFFFFFF#32 = 0x00000008#32 → decode (.command w) = .decEnd) ∧
    (w &&& 0xFFFFFFFF#32 = 0x0000000F#32 → decode (.command w) = .reset) ∧
    commandRows.countP (selects w) ≤ 1

/-- 30_encoding.md R84, 40_control.md R102: which words are illegal, and that an illegal word completes by raising
ILLEGAL_CMD with its OP and ARG and has no other effect. -/
def Obligations.IllegalWordsRaiseIllegalCmd : Prop :=
  ∀ (w : Word) (s : State),
    (decode (.command w) = .illegal w ↔
      (9 ≤ (w.extractLsb' 0 4).toNat ∧ (w.extractLsb' 0 4).toNat ≤ 14) ∨
      w.extractLsb' 4 4 ≠ 0#4 ∨ w.extractLsb' 16 16 ≠ 0#16 ∨
      (w.extractLsb' 8 8 ≠ 0#8 ∧ (w.extractLsb' 0 4).toNat ∉ [2, 5, 7])) ∧
    exec (.illegal w) s = .next { s with
      err := s.err ||| 0x01#8
      errInfo := if s.err = 0#8 then BitVec.ofNat 32
        (0x00040001 + 256 * (w.extractLsb' 8 8).toNat + 16 * (w.extractLsb' 0 4).toNat) else s.errInfo
      pending := none }

/-- 20_memory.md R61: the address map. The 14 registers, the FREQ window, the CODE window, and the unmapped ranges,
where a read returns 0 and a write raises BAD_ADDR and changes nothing else. -/
def Obligations.AddressMapRegions : Prop :=
  decode (.read 0x0000#16) = .rdId ∧ decode (.read 0x0004#16) = .rdCmd ∧
  decode (.read 0x0008#16) = .rdStatus ∧ decode (.read 0x000C#16) = .rdErr ∧
  decode (.read 0x0010#16) = .rdErrInfo ∧ decode (.read 0x0014#16) = .rdIrqEn ∧
  decode (.read 0x0018#16) = .rdRoot ∧ decode (.read 0x001C#16) = .rdTotal ∧
  decode (.read 0x0020#16) = .rdDecCur ∧ decode (.read 0x0024#16) = .rdNodeSel ∧
  decode (.read 0x0028#16) = .rdNodeFreq ∧ decode (.read 0x002C#16) = .rdNodeRep ∧
  decode (.read 0x0030#16) = .rdNodeLink ∧ decode (.read 0x0034#16) = .rdParam ∧
  (∀ sym : Byte, decode (.read (BitVec.ofNat 16 (0x0400 + 4 * sym.toNat))) = .rdFreq sym) ∧
  (∀ (sym : Byte) (w : BitVec 4) (s : State),
    exec (decode (.read (BitVec.ofNat 16 (0x1000 + 64 * sym.toNat + 4 * w.toNat)))) s
      = answerIdle s (s.codeWindowWord sym w)) ∧
  (∀ (a : Addr) (v : Word) (s : State), unmappedAddr a.toNat = true →
    exec (decode (.read a)) s = .next { s with reads := s.reads ++ [0#32] } ∧
    exec (decode (.write a v)) s = .next (s.raise .badAddr 0#4 0#8 a))

/-! ## The step -/

/-- A step runs the decoded operation: the next act of the list, or, with no act left, the pending command
(00_scope.md R7, 40_control.md R101, 20_memory.md R69; the event list and the Engine's turn when it is empty are the
model's own, log entries 1 and 3). -/
def Obligations.StepRunsDecodedOperation : Prop :=
  ∀ (s : State) (rest : List Event),
    (∀ a : Addr, s.events = .read a :: rest → step s = exec (decode (.read a)) { s with events := rest }) ∧
    (∀ (a : Addr) (v : Word), s.events = .write a v :: rest →
      step s = exec (decode (.write a v)) { s with events := rest }) ∧
    (∀ w : Word, s.events = .engine :: rest → s.pending = some w →
      step s = exec (decode (.command w)) { s with events := rest }) ∧
    (s.events = .engine :: rest → s.pending = none → step s = .next { s with events := rest }) ∧
    (∀ enc dec : Bool, s.events = .consumer enc dec :: rest →
      step s = .next { s with events := rest, encReady := enc, decReady := dec }) ∧
    (s.events = .hardReset :: rest → step s = hardwareReset { s with events := rest }) ∧
    (∀ w : Word, s.events = [] → s.pending = some w → step s = exec (decode (.command w)) s) ∧
    (s.runEnded → step s = .next s)

/-- A table word placed by withFetchWord is what the next step runs (the model's own placing, log entry 12). -/
def Obligations.PlacedTableWordRunsNext : Prop :=
  (∀ (s : State) (w : Nat), step (s.withFetchWord 32 w)
    = exec (decode (.command (BitVec.ofNat 32 w))) { s with pending := some (BitVec.ofNat 32 w) }) ∧
  (∀ (s : State) (w : Nat) (i : Instr), decodeTableWord 16 w = some i →
    step (s.withFetchWord 16 w) = exec i s)

/-- Nothing stops the machine: every operation in every state, and so every step, answers a next state
(60_exceptions.md R226: the block never stops accepting commands because of an error). -/
def Obligations.EveryOperationAnswersNext : Prop :=
  (∀ (i : Instr) (s : State), ∃ t, exec i s = .next t) ∧ (∀ s : State, ∃ t, step s = .next t)

/-! ## Reset -/

/-- The reset column of the register map (10_state.md section 3), read from State.reset; FREQ_W = 32 is the model's
reference configuration (log entry 2). -/
def Obligations.ResetStateReadsAsMap : Prop :=
  (∀ p ∈ ([(0x0000, 0x48554631), (0x0004, 0), (0x0008, 0), (0x000C, 0), (0x0010, 0), (0x0014, 0), (0x0018, 0x1FF),
      (0x001C, 0), (0x0020, 0x1FF), (0x0024, 0), (0x0028, 0), (0x002C, 0), (0x0030, 0), (0x0034, 32)]
      : List (Addr × Word)),
    exec (decode (.read p.1)) State.reset = .next { State.reset with reads := [p.2] }) ∧
  (∀ sym : Byte, exec (.rdFreq sym) State.reset = .next { State.reset with reads := [0#32] }) ∧
  (∀ (sym : Byte) (w : BitVec 4), State.reset.codeWindowWord sym w = 0#32) ∧
  State.reset.irq = false ∧ State.reset.busy = false

/-- 70_reset_and_hazards.md R250: hardware reset, in every state. INODE and CODE are unspecified there, so nothing is
said of them. -/
def Obligations.HardwareResetValues : Prop :=
  ∀ s : State, ∃ t, hardwareReset s = .next t ∧
    (∀ sym : Byte, t.freqAt sym = 0#32) ∧ t.treeState = .none ∧ t.nsym = 0#9 ∧ t.root = 0x1FF#9 ∧
    t.total = 0#32 ∧ t.codesValid = false ∧ t.decState = .idle ∧ t.cur = 0x1FF#9 ∧ t.err = 0#8 ∧
    t.errInfo = 0#32 ∧ t.irqEn = 0#2 ∧ t.irq = false ∧ t.nodeSel = 0#9 ∧ t.pending = none ∧
    (∀ p ∈ ([(0x0000, 0x48554631), (0x0004, 0), (0x0008, 0), (0x000C, 0), (0x0010, 0), (0x0014, 0),
        (0x0018, 0x1FF), (0x001C, 0), (0x0020, 0x1FF), (0x0024, 0), (0x0028, 0), (0x002C, 0), (0x0030, 0),
        (0x0034, BitVec.ofNat 32 (s.freqW % 64))] : List (Addr × Word)),
      exec (decode (.read p.1)) t = .next { t with reads := t.reads ++ [p.2] }) ∧
    (∀ sym : Byte, exec (.rdFreq sym) t = .next { t with reads := t.reads ++ [0#32] }) ∧
    (∀ (sym : Byte) (w : BitVec 4), t.codeWindowWord sym w = 0#32)

/-- 70_reset_and_hazards.md R251: a reset while a command is pending keeps none of its state effects (the block is as
R250 says; INODE and CODE are left out, being unspecified), and some prefix of the bytes it would have emitted may have
been accepted; with nothing pending both streams are as they were. The length of the prefix is a free value (log
entry 6). -/
def Obligations.HardwareResetCutsOutput : Prop :=
  ∀ s : State, ∃ t, hardwareReset s = .next t ∧
    { t with encOut := s.encOut, decOut := s.decOut, draws := s.draws, inode := s.inode, code := s.code }
      = ({ s with pending := none } : State).clearRegisters ∧
    (s.pending = none → t.encOut = s.encOut ∧ t.decOut = s.decOut ∧ t.draws = s.draws) ∧
    (∀ (w : Word) (u : State), s.pending = some w →
      exec (decode (.command w)) { s with encReady := true, decReady := true } = .next u →
      ∃ j k : Nat, t.encOut = s.encOut ++ (u.encOut.drop s.encOut.length).take j ∧
        t.decOut = s.decOut ++ (u.decOut.drop s.decOut.length).take k)

/-- 40_control.md R104: the RESET command. -/
def Obligations.ResetCommandRestoresRegisters : Prop :=
  ∀ s : State, ∃ t, exec .reset s = .next t ∧ (∀ sym : Byte, t.freqAt sym = 0#32) ∧
    { t with freq := s.freq } = { s with
      treeState := .none, nsym := 0#9, root := 0x1FF#9, total := 0#32, codesValid := false
      decState := .idle, cur := 0x1FF#9, err := 0#8, errInfo := 0#32, irqEn := 0#2, nodeSel := 0#9
      pending := none }

/-- 10_state.md R23, R25: no read observes an INODE record outside the tree, nor CODE while CODES_VALID = 0. Two
states that differ only there answer every read with the same value. -/
def Obligations.UnwrittenStoresUnobservable : Prop :=
  ∀ (s : State) (n : Table Inode) (c : Table CodeEntry) (a : Addr),
    (∀ k, k < s.nint → inodeOf n k = inodeOf s.inode k) → (s.codesValid = true → c = s.code) →
    ∃ t, exec (decode (.read a)) s = .next t ∧
      exec (decode (.read a)) { s with inode := n, code := c } = .next { t with inode := n, code := c }

/-! ## Reads -/

/-- 20_memory.md R62 and R64, with the values of 10_state.md R35 to R50 as numbers: what a read at any address
returns, and that it changes no state of the block. -/
def Obligations.MemReadOutcome : Prop :=
  ∀ (a : Addr) (s : State),
    exec (decode (.read a)) s =
      if a.toNat % 4 ≠ 0 ∨ unmappedAddr a.toNat = true then .next { s with reads := s.reads ++ [0#32] }
      else if s.busy = false then .next { s with reads := s.reads ++ [readValue s a.toNat] }
      else if a.toNat ∈ [0x0000, 0x0004, 0x000C, 0x0010, 0x0014, 0x0024, 0x0034] then
        .next { s with reads := s.reads ++ [readValue s a.toNat] }
      else if a.toNat = 0x0008 then
        .next { s with
          reads := s.reads ++ [(Config.busyRead s.draws &&& 0xFFFFFFBE#32) ||| 0x00000001#32
            ||| (if s.err = 0#8 then 0#32 else 0x00000040#32)]
          draws := s.draws + 1 }
      else .next { s with reads := s.reads ++ [Config.busyRead s.draws], draws := s.draws + 1 }

/-- 10_state.md R37: STATUS field by field; while BUSY = 1 only BUSY and ERR_ANY are exact; a write raises
BAD_ADDR. -/
def Obligations.StatusRegister : Prop :=
  ∀ (s : State) (v : Word),
    (s.busy = false → ∃ d : Word, exec .rdStatus s = .next { s with reads := s.reads ++ [d] } ∧
      d.getLsbD 0 = s.busy ∧ d.extractLsb' 1 2 = treeCode s.treeState ∧ d.getLsbD 3 = s.codesValid ∧
      d.extractLsb' 4 2 = decCode s.decState ∧ d.getLsbD 6 = decide (s.err ≠ 0#8) ∧ d.getLsbD 7 = false ∧
      d.extractLsb' 8 9 = s.nsym ∧ d.extractLsb' 17 15 = 0#15) ∧
    (s.busy = true → ∃ d : Word,
      exec .rdStatus s = .next { s with reads := s.reads ++ [d], draws := s.draws + 1 } ∧
      d.getLsbD 0 = true ∧ d.getLsbD 6 = decide (s.err ≠ 0#8)) ∧
    exec (decode (.write 0x0008#16 v)) s = .next (s.raise .badAddr 0#4 0#8 0x0008#16)

/-- 10_state.md R35, R36, R38, R39, R40, R44, R45, 20_memory.md R62: the reads that are exact in every state, BUSY or
not. -/
def Obligations.ExactReadsInEveryState : Prop :=
  ∀ (s : State) (a : Addr),
    exec .rdId s = .next { s with reads := s.reads ++ [0x48554631#32] } ∧
    exec .rdCmd s = .next { s with reads := s.reads ++ [0#32] } ∧
    exec .rdErr s = .next { s with reads := s.reads ++ [BitVec.ofNat 32 s.err.toNat] } ∧
    exec .rdErrInfo s = .next { s with reads := s.reads ++ [s.errInfo] } ∧
    exec .rdIrqEn s = .next { s with reads := s.reads ++ [BitVec.ofNat 32 s.irqEn.toNat] } ∧
    exec .rdNodeSel s = .next { s with reads := s.reads ++ [BitVec.ofNat 32 s.nodeSel.toNat] } ∧
    exec .rdParam s = .next { s with reads := s.reads ++ [BitVec.ofNat 32 (s.freqW % 64)] } ∧
    exec (.rdUnmapped a) s = .next { s with reads := s.reads ++ [0#32] }

/-- 10_state.md R37, R41 to R43, R49, R50, with BUSY = 0: the reads of STATUS, ROOT, TOTAL, DEC_CUR, the FREQ window
and the three rows of the CODE window complete with the register's value. -/
def Obligations.IdleReadsReturnRegisters : Prop :=
  ∀ s : State, s.busy = false →
    exec .rdStatus s = .next { s with reads := s.reads ++ [BitVec.ofNat 32 (statusValue s)] } ∧
    exec .rdRoot s = .next { s with reads := s.reads ++ [BitVec.ofNat 32 s.root.toNat] } ∧
    exec .rdTotal s = .next { s with reads := s.reads ++ [s.total] } ∧
    exec .rdDecCur s = .next { s with reads := s.reads ++ [BitVec.ofNat 32 s.cur.toNat] } ∧
    (∀ sym : Byte, exec (.rdFreq sym) s = .next { s with reads := s.reads ++ [s.freqAt sym] }) ∧
    (∀ (p : BitVec 6) (w : BitVec 4), exec (.rdCodeLow p w) s
      = .next { s with reads := s.reads ++ [s.codeWindowWord (BitVec.ofNat 8 p.toNat) w] }) ∧
    (∀ (p : BitVec 7) (w : BitVec 4), exec (.rdCodeMid p w) s
      = .next { s with reads := s.reads ++ [s.codeWindowWord (BitVec.ofNat 8 (64 + p.toNat)) w] }) ∧
    (∀ (p : BitVec 6) (w : BitVec 4), exec (.rdCodeHigh p w) s
      = .next { s with reads := s.reads ++ [s.codeWindowWord (BitVec.ofNat 8 (192 + p.toNat)) w] })

/-- 10_state.md R46, R47, R48, with BUSY = 0: the node read port for a node that is not valid, a valid leaf, and a
valid internal node. -/
def Obligations.NodeReadPort : Prop :=
  ∀ s : State, s.busy = false →
    ∃ f r l : Word,
      exec .rdNodeFreq s = .next { s with reads := s.reads ++ [f] } ∧
      exec .rdNodeRep s = .next { s with reads := s.reads ++ [r] } ∧
      exec .rdNodeLink s = .next { s with reads := s.reads ++ [l] } ∧
      (s.nodeValid s.nodeSel = false → f = 0#32 ∧ r = 0#32 ∧ l = 0#32) ∧
      (s.nodeValid s.nodeSel = true → s.nodeSel.toNat ≤ 255 →
        f = s.freqAt (BitVec.ofNat 8 s.nodeSel.toNat) ∧
        r = BitVec.ofNat 32 (0x80000000 + s.nodeSel.toNat) ∧ l = 0x01FF01FF#32) ∧
      (s.nodeValid s.nodeSel = true → 256 ≤ s.nodeSel.toNat →
        f = (inodeOf s.inode (s.nodeSel.toNat - 256)).freq ∧
        r = BitVec.ofNat 32 (0x80000000 + (inodeOf s.inode (s.nodeSel.toNat - 256)).rep.toNat) ∧
        l = BitVec.ofNat 32 ((inodeOf s.inode (s.nodeSel.toNat - 256)).left.toNat
          + 0x10000 * (inodeOf s.inode (s.nodeSel.toNat - 256)).right.toNat))

/-- 10_state.md R50: the CODE window by address, the place of a code character in it, and its writes. -/
def Obligations.CodeWindow : Prop :=
  ∀ (s : State) (a : Addr) (v : Word), 0x1000 ≤ a.toNat → a.toNat ≤ 0x4FFC → a.toNat % 4 = 0 →
    (s.busy = false → exec (decode (.read a)) s = .next { s with reads := s.reads ++
      [if s.codesValid = false then 0#32
       else BitVec.ofNat 32
        (codeWordValue (s.codeAt (BitVec.ofNat 8 ((a.toNat - 0x1000) / 64))) ((a.toNat - 0x1000) % 64 / 4))] }) ∧
    (∀ (c : CodeEntry) (j : Nat), j < 256 →
      c.bits.getLsbD j = (BitVec.ofNat 32 (codeWordValue c (1 + j / 32))).getLsbD (j % 32)) ∧
    exec (decode (.write a v)) s = .next (s.raise .badAddr 0#4 0#8 a)

/-! ## Writes, errors, the interrupt -/

/-- 20_memory.md R63: MemWrite at any address in any state, the first test that applies deciding. -/
def Obligations.MemWriteOutcome : Prop :=
  ∀ (a : Addr) (v : Word) (s : State), ∃ t, exec (decode (.write a v)) s = .next t ∧
    if a.toNat % 4 ≠ 0 ∨ unmappedAddr a.toNat = true ∨ readOnlyAddr a.toNat = true then
      t = s.raise .badAddr 0#4 0#8 a
    else if s.busy = true ∧ a.toNat ≠ 0x000C ∧ a.toNat ≠ 0x0014 then t = s.raise .busyViolation 0#4 0#8 a
    else if a.toNat = 0x0004 then t = { s with pending := some v }
    else if a.toNat = 0x000C then t = { s with err := s.err &&& ~~~(v.extractLsb' 0 8) }
    else if a.toNat = 0x0014 then t = { s with irqEn := v.extractLsb' 0 2 }
    else if a.toNat = 0x0024 then t = { s with nodeSel := v.extractLsb' 0 9 }
    else exec (.wrFreq (BitVec.ofNat 8 ((a.toNat - 0x0400) / 4)) v) s = .next t

/-- 40_control.md R100: issue sets PENDING and nothing else, and a CMD write while BUSY = 1 is rejected and leaves
PENDING unchanged. -/
def Obligations.IssueOnlySetsPending : Prop :=
  ∀ (s : State) (v : Word),
    (s.busy = false → exec (.wrCmd v) s = .next { s with pending := some v }) ∧
    (s.busy = true → ∃ t, exec (.wrCmd v) s = .next t ∧ t = s.raise .busyViolation 0#4 0#8 0x0004#16 ∧
      t.pending = s.pending)

/-- 60_exceptions.md R223: the ERR write clears the bits written as 1, in every state, and changes nothing else. -/
def Obligations.ErrWriteClearsOnes : Prop :=
  ∀ (s : State) (v : Word), ∃ t, exec (.wrErr v) s = .next t ∧ { t with err := s.err } = s ∧
    ∀ n, n < 8 → t.err.getLsbD n = (s.err.getLsbD n && !v.getLsbD n)

/-- 60_exceptions.md R227, R228: the IRQ_EN write, accepted in every state, and the interrupt output. -/
def Obligations.InterruptEnableAndLevel : Prop :=
  (∀ (s : State) (v : Word), ∃ t, exec (.wrIrqEn v) s = .next t ∧ { t with irqEn := s.irqEn } = s ∧
    t.irqEn.getLsbD 0 = v.getLsbD 0 ∧ t.irqEn.getLsbD 1 = v.getLsbD 1) ∧
  (∀ s : State, s.irq = true ↔
    (s.irqEn.getLsbD 0 = true ∧ s.busy = false) ∨ (s.irqEn.getLsbD 1 = true ∧ s.err ≠ 0#8))

/-- 42_tree_builder.md R130: the NODE_SEL write. -/
def Obligations.NodeSelWrite : Prop :=
  ∀ (s : State) (v : Word),
    (s.busy = false → exec (.wrNodeSel v) s = .next { s with nodeSel := BitVec.ofNat 9 (v.toNat % 512) }) ∧
    (s.busy = true → exec (.wrNodeSel v) s = .next (s.raise .busyViolation 0#4 0#8 0x0024#16))

/-- 41_frequency.md R110: the FREQ window write: the counter, INVALIDATE, and nothing else; its two errors. INODE and
CODE, unspecified after INVALIDATE, are kept by the model's choice, log entry 9. -/
def Obligations.FreqWriteStoresAndInvalidates : Prop :=
  ∀ (s : State) (sym : Byte) (v : Word),
    (s.busy = false → ∃ t, exec (.wrFreq sym v) s = .next t ∧
      (∀ y : Byte, t.freqAt y = if y = sym then BitVec.ofNat 32 (v.toNat % 2 ^ s.freqW) else s.freqAt y) ∧
      { t with freq := s.freq } = { s with
        treeState := .none, nsym := 0#9, root := 0x1FF#9, total := 0#32, codesValid := false
        decState := .idle, cur := 0x1FF#9 }) ∧
    (s.busy = true → exec (.wrFreq sym v) s
      = .next (s.raise .busyViolation 0#4 0#8 (BitVec.ofNat 16 (0x0400 + 4 * sym.toNat)))) ∧
    (∀ a : Addr, a.toNat % 4 ≠ 0 → exec (decode (.write a v)) s = .next (s.raise .badAddr 0#4 0#8 a))

/-- 20_memory.md R63, 60_exceptions.md R224: a write the address map rejects raises BAD_ADDR with ADDR = a, OP = 0 and
ARG = 0, whether or not a command is pending, and changes nothing else. -/
def Obligations.BadWriteRaisesBadAddr : Prop :=
  ∀ (s : State) (a : Addr) (v : Word), exec (.wrBad a v) s = .next { s with
    err := s.err ||| 0x40#8
    errInfo := if s.err = 0#8 then BitVec.ofNat 32 (65536 * a.toNat + 7) else s.errInfo }

/-- 60_exceptions.md R220, the eight cause codes, and R221, raise. The bit one below the cause's code is set and no
other bit changes; ERR_INFO records CAUSE, OP, ARG and ADDR when ERR was 0 and is kept otherwise; nothing else
changes. -/
def Obligations.RaiseRecordsError : Prop :=
  (causeCode .illegalCmd = 1#4 ∧ causeCode .sequence = 2#4 ∧ causeCode .freqOverflow = 3#4 ∧
    causeCode .unknownSymbol = 4#4 ∧ causeCode .malformedInput = 5#4 ∧ causeCode .truncatedInput = 6#4 ∧
    causeCode .badAddr = 7#4 ∧ causeCode .busyViolation = 8#4) ∧
  ∀ (s : State) (e : ErrorCause) (op : BitVec 4) (arg : Byte) (addr : Addr),
    let t := s.raise e op arg addr
    1 ≤ (causeCode e).toNat ∧ (causeCode e).toNat ≤ 8 ∧
    (∀ n, n < 8 → t.err.getLsbD n = (s.err.getLsbD n || decide (n = (causeCode e).toNat - 1))) ∧
    (s.err = 0#8 → t.errInfo.extractLsb' 0 4 = causeCode e ∧ t.errInfo.extractLsb' 4 4 = op ∧
      t.errInfo.extractLsb' 8 8 = arg ∧ t.errInfo.extractLsb' 16 16 = addr) ∧
    (s.err ≠ 0#8 → t.errInfo = s.errInfo) ∧
    { t with err := s.err, errInfo := s.errInfo } = s

/-- 60_exceptions.md R222: ERR_INFO changes only by an operation that finds ERR = 0 and leaves it non-zero, or by
RESET; the ERR write leaves it. -/
def Obligations.FirstErrorRecordKept : Prop :=
  ∀ (i : Instr) (s t : State), exec i s = .next t → i ≠ .reset →
    (s.err ≠ 0#8 → t.errInfo = s.errInfo) ∧
    (t.errInfo ≠ s.errInfo → s.err = 0#8 ∧ t.err ≠ 0#8) ∧
    (s.err = 0#8 → t.err ≠ 0#8 → 1 ≤ (t.errInfo.extractLsb' 0 4).toNat ∧ (t.errInfo.extractLsb' 0 4).toNat ≤ 8)

/-- 10_state.md section 4 and 60_exceptions.md R220 to R226: an error bit is sticky. No operation but the ERR write
and RESET clears one, and no operation sets more than one. -/
def Obligations.ErrorBitsSticky : Prop :=
  ∀ (i : Instr) (s t : State), exec i s = .next t → i ≠ .reset → (∀ v : Word, i ≠ .wrErr v) →
    t.err = s.err ∨ ∃ e : ErrorCause, t.err = s.err ||| causeBit e

/-! ## Command mechanism and the frequency table -/

/-- 40_control.md R100, R101, 20_memory.md R69: BUSY rises only by a CMD write that finds it 0, and falls only by a
command; a command either completes or changes nothing at all, which is the model's choice of all-or-none acceptance of its
output, log entry 7. -/
def Obligations.OnlyIssueRaisesBusy : Prop :=
  ∀ (i : Instr) (s t : State), exec i s = .next t →
    (∀ w : Word, t.pending = some w → s.pending = some w ∨ (s.pending = none ∧ i = .wrCmd w)) ∧
    (∀ w : Word, encode i = .command w → t.pending = none ∨ t = s) ∧
    ((∀ w : Word, encode i ≠ .command w) → s.busy = true → t.pending = s.pending)

/-- 40_control.md R103: NOP writes nothing but PENDING. -/
def Obligations.NopOnlyRetires : Prop :=
  ∀ s : State, exec .nop s = .next { s with pending := none }

/-- 41_frequency.md R111: CLR_FREQ. INODE and CODE, unspecified after INVALIDATE, are kept by the model's choice, log
entry 9. -/
def Obligations.ClrFreqClearsTable : Prop :=
  ∀ s : State, ∃ t, exec .clrFreq s = .next t ∧ (∀ sym : Byte, t.freqAt sym = 0#32) ∧
    { t with freq := s.freq } = { s with
      treeState := .none, nsym := 0#9, root := 0x1FF#9, total := 0#32, codesValid := false
      decState := .idle, cur := 0x1FF#9, pending := none }

/-- 41_frequency.md R112: COUNT increments and invalidates, or, at the largest value, raises FREQ_OVERFLOW and
changes nothing else. INODE and CODE, unspecified after INVALIDATE, are kept by the model's choice, log entry 9. -/
def Obligations.CountIncrementsOrOverflows : Prop :=
  ∀ (s : State) (sym : Byte),
    ((s.freqAt sym).toNat = 2 ^ s.freqW - 1 → exec (.count sym) s = .next { s with
      err := s.err ||| 0x04#8
      errInfo := if s.err = 0#8 then BitVec.ofNat 32 (0x00040023 + 256 * sym.toNat) else s.errInfo
      pending := none }) ∧
    ((s.freqAt sym).toNat ≠ 2 ^ s.freqW - 1 → ∃ t, exec (.count sym) s = .next t ∧
      (∀ y : Byte, t.freqAt y = if y = sym then s.freqAt sym + 1#32 else s.freqAt y) ∧
      ((s.freqAt sym).toNat < 2 ^ s.freqW - 1 → s.freqW ≤ 32 →
        (t.freqAt sym).toNat = (s.freqAt sym).toNat + 1) ∧
      { t with freq := s.freq } = { s with
        treeState := .none, nsym := 0#9, root := 0x1FF#9, total := 0#32, codesValid := false
        decState := .idle, cur := 0x1FF#9, pending := none })

/-- 41_frequency.md R113: CLR_FREQ and then COUNT of every byte of a sequence, none of whose counts passes the
largest value, leaves FREQ[c] equal to the number of bytes equal to c, and raises nothing. -/
def Obligations.CountingASource : Prop :=
  ∀ (s : State) (src : List Byte), s.freqW ≤ 32 → (∀ c : Byte, src.count c ≤ 2 ^ s.freqW - 1) →
    ∃ t, execAll (.clrFreq :: src.map .count) s = .next t ∧ t.err = s.err ∧
      ∀ c : Byte, (t.freqAt c).toNat = src.count c

/-- 70_reset_and_hazards.md R257, 10_state.md R32: an operation that changes a counter leaves no tree, no code table
and no open bracket; and so does BUILD as to the codes and the bracket. -/
def Obligations.FreqChangeDiscardsTree : Prop :=
  ∀ (i : Instr) (s t : State), exec i s = .next t →
    ((∃ sym : Byte, t.freqAt sym ≠ s.freqAt sym) →
      t.treeState = .none ∧ t.nsym = 0#9 ∧ t.root = 0x1FF#9 ∧ t.total = 0#32 ∧ t.codesValid = false ∧
      t.decState = .idle ∧ t.cur = 0x1FF#9) ∧
    (i = .build → t.codesValid = false ∧ t.decState = .idle ∧ t.cur = 0x1FF#9)

/-! ## The tree builder -/

/-- 42_tree_builder.md R122: the comparator is the unsigned comparison of {freq, rep}; and of two nodes with
different keys exactly one comes before the other. -/
def Obligations.ComparatorIsKeyComparison : Prop :=
  ∀ (f : Table Word) (n : Table Inode) (a b : NodeIx),
    comesBefore f n a b = BitVec.ult (nodeFreq f n a ++ nodeRep n a) (nodeFreq f n b ++ nodeRep n b) ∧
    ((nodeFreq f n a, nodeRep n a) ≠ (nodeFreq f n b, nodeRep n b) →
      comesBefore f n a b = !comesBefore f n b a)

/-- 42_tree_builder.md R125: the initial queue holds exactly the leaves of the symbols with non-zero frequency, each
once, in the one order in which each comes before the next. -/
def Obligations.LeafQueueIsTheSortedLeaves : Prop :=
  ∀ (f : Table Word) (n : Table Inode),
    (∀ i : NodeIx, i ∈ sortNodes f n (leafList f) ↔
      ∃ sym : Byte, i = sym.setWidth 9 ∧ freqOf f sym ≠ 0#32) ∧
    (sortNodes f n (leafList f)).Nodup ∧
    (sortNodes f n (leafList f)).Pairwise (fun a b => comesBefore f n a b = true) ∧
    (∀ l : List NodeIx, l.Perm (leafList f) → l.Pairwise (fun a b => comesBefore f n a b = true) →
      l = sortNodes f n (leafList f))

/-- 42_tree_builder.md R127: re-insertion at the first position whose occupant does not precede the new node, or at
the end; and a queue in order stays in order when no occupant has the new node's key. -/
def Obligations.InsertionAtFirstNonPreceding : Prop :=
  ∀ (f : Table Word) (n : Table Inode) (m : NodeIx) (q : List NodeIx),
    (∃ i, i ≤ q.length ∧ insertNode f n m q = q.take i ++ m :: q.drop i ∧
      (∀ x ∈ q.take i, comesBefore f n x m = true) ∧
      (∀ x, (q.drop i).head? = some x → comesBefore f n x m = false)) ∧
    (q.Pairwise (fun a b => comesBefore f n a b = true) →
      (∀ x ∈ q, (nodeFreq f n x, nodeRep n x) ≠ (nodeFreq f n m, nodeRep n m)) →
      (insertNode f n m q).Pairwise (fun a b => comesBefore f n a b = true))

/-- 42_tree_builder.md R124, R129: when the exact sum passes 2^FREQ_W - 1, BUILD raises FREQ_OVERFLOW after
INVALIDATE, and builds nothing. INODE and CODE, unspecified after INVALIDATE, are kept by the model's choice, log
entry 9. -/
def Obligations.BuildOverflow : Prop :=
  ∀ s : State, 2 ^ s.freqW - 1 < (symbols.map fun x => (s.freqAt x).toNat).sum →
    exec .build s = .next { s with
      treeState := .none, nsym := 0#9, root := 0x1FF#9, total := 0#32, codesValid := false
      decState := .idle, cur := 0x1FF#9
      err := s.err ||| 0x04#8
      errInfo := if s.err = 0#8 then 0x00040033#32 else s.errInfo
      pending := none }

/-- 42_tree_builder.md R134: the degenerate trees. INODE and CODE, unspecified after INVALIDATE, are kept by the
model's choice, log entry 9. -/
def Obligations.BuildDegenerateTrees : Prop :=
  ∀ s : State,
    ((∀ x : Byte, s.freqAt x = 0#32) → exec .build s = .next { s with
      treeState := .empty, nsym := 0#9, root := 0x1FF#9, total := 0#32, codesValid := false
      decState := .idle, cur := 0x1FF#9, pending := none }) ∧
    (∀ x : Byte, s.freqAt x ≠ 0#32 → (∀ y : Byte, y ≠ x → s.freqAt y = 0#32) →
      (s.freqAt x).toNat ≤ 2 ^ s.freqW - 1 → exec .build s = .next { s with
      treeState := .single, nsym := 1#9, root := x.setWidth 9, total := s.freqAt x, codesValid := false
      decState := .idle, cur := 0x1FF#9, pending := none })

/-- 42_tree_builder.md R128 and the state written by R124: with n leaves, n at least 2, NSYM = n, ROOT = 256 + n - 2,
TOTAL = nodeFreq(ROOT) = the sum of FREQ, INODE written at 0 to n-2 only, and nothing else but INVALIDATE's fields.
That INODE beyond n-2 and CODE, unspecified after INVALIDATE, are kept is the model's choice, log entry 9. -/
def Obligations.BuildMultiRegisters : Prop :=
  ∀ s : State, s.buildsTree → ∃ t, exec .build s = .next t ∧
    t.nsym.toNat = s.leafCount ∧ t.root.toNat = 256 + s.leafCount - 2 ∧
    t.total = nodeFreq t.freq t.inode t.root ∧ t.total.toNat = (symbols.map fun x => (s.freqAt x).toNat).sum ∧
    (∀ k, s.leafCount - 1 ≤ k → inodeOf t.inode k = inodeOf s.inode k) ∧
    { t with inode := s.inode, nsym := s.nsym, root := s.root, total := s.total } = { s with
      treeState := .multi, codesValid := false, decState := .idle, cur := 0x1FF#9, pending := none }

/-- 42_tree_builder.md R132: BUILD's result is a function of FREQ alone (and of FREQ_W, the block's parameter). -/
def Obligations.BuildDependsOnFreqOnly : Prop :=
  ∀ s s' t t' : State, s.freqW = s'.freqW → (∀ x : Byte, s.freqAt x = s'.freqAt x) →
    exec .build s = .next t → exec .build s' = .next t' →
    t.treeState = t'.treeState ∧ t.nsym = t'.nsym ∧ t.root = t'.root ∧ t.total = t'.total ∧
      ∀ k, k < t.nint → inodeOf t.inode k = inodeOf t'.inode k

/-- 42_tree_builder.md R133: after a BUILD of two or more leaves the valid nodes are exactly those reached from ROOT,
every valid node but the root is a child of exactly one internal node, on one side, and the root of none; and the
invariants of 10_state.md R33 hold. -/
def Obligations.BuildTreeIsStrictBinary : Prop :=
  ∀ s : State, s.buildsTree → ∃ t, exec .build s = .next t ∧
    (∀ i : NodeIx, t.nodeValid i = true ↔ ∃ p : List Bool, p.length < 256 ∧ follow t.inode t.root p = i ∧
      ∀ j, j < p.length → isLeaf (follow t.inode t.root (p.take j)) = false) ∧
    (∀ i : NodeIx, t.nodeValid i = true → i ≠ t.root → ∃! p : Nat × Bool, p.1 < t.nint ∧
      i = if p.2 then (inodeOf t.inode p.1).right else (inodeOf t.inode p.1).left) ∧
    (∀ k, k < t.nint → (inodeOf t.inode k).left ≠ t.root ∧ (inodeOf t.inode k).right ≠ t.root) ∧
    t.treeRegsOk ∧ t.treeOk

/-! ## The code table and the encoder port -/

/-- 43_code_table.md R140, R143: GEN_CODES without a tree raises SEQUENCE; on an EMPTY or SINGLE tree every entry is
absent; on a MULTI tree it writes CODE and CODES_VALID only. -/
def Obligations.GenCodesOutcome : Prop :=
  ∀ s : State,
    (s.treeState = .none → exec .genCodes s = .next { s with
      err := s.err ||| 0x02#8
      errInfo := if s.err = 0#8 then 0x00040042#32 else s.errInfo
      pending := none }) ∧
    (s.treeState ≠ .none → ∃ t, exec .genCodes s = .next t ∧
      { t with code := s.code } = { s with codesValid := true, pending := none } ∧
      (s.treeState = .empty ∨ s.treeState = .single →
        ∀ sym : Byte, t.codeAt sym = { valid := false, len := 0#8, bits := 0#256 }))

/-- 43_code_table.md R141: after BUILD and GEN_CODES of a MULTI tree exactly the symbols with non-zero frequency have
a code, of length 1 to NSYM - 1, and the code is the path of edges from ROOT to the symbol's leaf. -/
def Obligations.CodeIsPathToLeaf : Prop :=
  ∀ s : State, s.buildsTree → ∃ t u, exec .build s = .next t ∧ exec .genCodes t = .next u ∧
    ∀ sym : Byte,
      ((u.codeAt sym).valid = true ↔ u.freqAt sym ≠ 0#32) ∧
      ((u.codeAt sym).valid = true →
        1 ≤ (u.codeAt sym).len.toNat ∧ (u.codeAt sym).len.toNat ≤ u.nsym.toNat - 1 ∧
        follow u.inode u.root (codePath (u.codeAt sym)) = sym.setWidth 9 ∧
        ∀ j, (u.codeAt sym).len.toNat ≤ j → (u.codeAt sym).bits.getLsbD j = false)

/-- 43_code_table.md R144: the codes of a MULTI tree are prefix-free and their Kraft sum is 1 (in units of
2^-255). -/
def Obligations.CodesPrefixFreeAndComplete : Prop :=
  ∀ s : State, s.buildsTree → ∃ t u, exec .build s = .next t ∧ exec .genCodes t = .next u ∧
    (∀ x y : Byte, (u.codeAt x).valid = true → (u.codeAt y).valid = true → x ≠ y →
      ¬ codePath (u.codeAt x) <+: codePath (u.codeAt y)) ∧
    (symbols.map fun x => if (u.codeAt x).valid then 2 ^ (255 - (u.codeAt x).len.toNat) else 0).sum = 2 ^ 255

/-- 43_code_table.md R145 to R147: ENCODE, with a consumer that accepts ENC_OUT. -/
def Obligations.EncodeOutcome : Prop :=
  ∀ (s : State) (sym : Byte), s.encReady = true →
    (s.codesValid = false → exec (.encode sym) s = .next { s with
      err := s.err ||| 0x02#8
      errInfo := if s.err = 0#8 then BitVec.ofNat 32 (0x00040052 + 256 * sym.toNat) else s.errInfo
      pending := none }) ∧
    (s.codesValid = true → (s.codeAt sym).valid = true → exec (.encode sym) s = .next { s with
      encOut := s.encOut ++ (codePath (s.codeAt sym)).map (fun b => if b then 0x31#8 else 0x30#8)
      pending := none }) ∧
    (s.codesValid = true → (s.codeAt sym).valid = false → s.treeState = .single → sym.setWidth 9 = s.root →
      exec (.encode sym) s = .next { s with pending := none }) ∧
    (s.codesValid = true → (s.codeAt sym).valid = false → (s.treeState ≠ .single ∨ sym.setWidth 9 ≠ s.root) →
      exec (.encode sym) s = .next { s with
        err := s.err ||| 0x08#8
        errInfo := if s.err = 0#8 then BitVec.ofNat 32 (0x00040054 + 256 * sym.toNat) else s.errInfo
        pending := none })

/-! ## The decoder -/

/-- 44_decoder.md R160: DEC_START. -/
def Obligations.DecStartOpensBracket : Prop :=
  ∀ s : State,
    (s.treeState = .none → exec .decStart s = .next { s with
      err := s.err ||| 0x02#8
      errInfo := if s.err = 0#8 then 0x00040062#32 else s.errInfo
      pending := none }) ∧
    (s.treeState ≠ .none → exec .decStart s = .next { s with
      cur := s.root, decState := .active, pending := none })

/-- 44_decoder.md R161: DEC_CHAR, with a consumer that accepts DEC_OUT: outside a bracket, in a degenerate tree, and
from an internal node of a MULTI tree to the child its character names, to a leaf, or to FAILED. -/
def Obligations.DecCharWalksTree : Prop :=
  ∀ (s : State) (chr : Byte), s.decReady = true →
    (s.decState ≠ .active → exec (.decChar chr) s = .next { s with
      err := s.err ||| 0x02#8
      errInfo := if s.err = 0#8 then BitVec.ofNat 32 (0x00040072 + 256 * chr.toNat) else s.errInfo
      pending := none }) ∧
    (s.decState = .active → (s.treeState = .empty ∨ s.treeState = .single) →
      exec (.decChar chr) s = .next { s with pending := none }) ∧
    (s.decState = .active → s.treeState = .multi → 256 ≤ s.cur.toNat →
      let r := inodeOf s.inode (s.cur.toNat - 256)
      let nxt := if chr = 0x30#8 then r.left else r.right
      (chr = 0x30#8 ∨ chr = 0x31#8 → nxt.toNat ≤ 255 → exec (.decChar chr) s = .next { s with
        decOut := s.decOut ++ [BitVec.ofNat 8 nxt.toNat], cur := s.root, pending := none }) ∧
      (chr = 0x30#8 ∨ chr = 0x31#8 → 256 ≤ nxt.toNat → exec (.decChar chr) s = .next { s with
        cur := nxt, pending := none }) ∧
      (chr ≠ 0x30#8 → chr ≠ 0x31#8 → exec (.decChar chr) s = .next { s with
        decState := .failed
        err := s.err ||| 0x10#8
        errInfo := if s.err = 0#8 then BitVec.ofNat 32 (0x00040075 + 256 * chr.toNat) else s.errInfo
        pending := none }))

/-- 44_decoder.md R162: DEC_END, with a consumer that accepts DEC_OUT. -/
def Obligations.DecEndClosesBracket : Prop :=
  ∀ s : State, s.decReady = true →
    (s.decState ≠ .active → exec .decEnd s = .next { s with
      err := s.err ||| 0x02#8
      errInfo := if s.err = 0#8 then 0x00040082#32 else s.errInfo
      pending := none }) ∧
    (s.decState = .active → s.treeState = .single → s.root.toNat ≤ 255 → exec .decEnd s = .next { s with
      decOut := s.decOut ++ List.replicate (s.freqAt (BitVec.ofNat 8 s.root.toNat)).toNat (BitVec.ofNat 8 s.root.toNat)
      decState := .idle, pending := none }) ∧
    (s.decState = .active → s.treeState = .multi → s.cur ≠ s.root → exec .decEnd s = .next { s with
      decState := .failed
      err := s.err ||| 0x20#8
      errInfo := if s.err = 0#8 then 0x00040086#32 else s.errInfo
      pending := none }) ∧
    (s.decState = .active → s.treeState = .multi → s.cur = s.root →
      exec .decEnd s = .next { s with decState := .idle, pending := none }) ∧
    (s.decState = .active → s.treeState = .empty →
      exec .decEnd s = .next { s with decState := .idle, pending := none })

/-- 44_decoder.md R167: FAILED is left only by DEC_START, by INVALIDATE and by RESET, and no operation adds to DEC_OUT
while the decoder is FAILED: the rest of the stream is not silently accepted. -/
def Obligations.FailedBracketStaysFailed : Prop :=
  ∀ (i : Instr) (s t : State), exec i s = .next t → s.decState = .failed →
    t.decOut = s.decOut ∧
    (t.decState = .failed ∨ i = .decStart ∨ i = .build ∨ i = .clrFreq ∨ i = .reset ∨ (∃ x, i = .count x) ∨
      ∃ x v, i = .wrFreq x v)

/-- 44_decoder.md R163: on a tree that is as 10_state.md R33 says, from ROOT, with a consumer that accepts DEC_OUT,
the eager form (DEC_CHAR by DEC_CHAR) emits, for every stream of '0' and '1' characters, the same symbols as the source's
loop, and raises nothing. -/
def Obligations.EagerDecodeEqualsSourceLoop : Prop :=
  ∀ (s : State) (chrs : List Byte), s.treeState = .multi → s.treeRegsOk → s.treeOk → s.decState = .active →
    s.cur = s.root → s.decReady = true → (∀ c ∈ chrs, c = 0x30#8 ∨ c = 0x31#8) →
    ∃ t, execAll (chrs.map .decChar) s = .next t ∧ t.err = s.err ∧
      t.decOut = s.decOut ++ lazyDecode s.inode s.root s.root chrs

/-- 44_decoder.md R169: the round trip. FREQ holds the counts of a non-empty source, whose length is at most FREQ_MAX;
the consumer drains both streams. BUILD, GEN_CODES and ENCODE of every byte put some characters on ENC_OUT; then, with the
tree kept or built again, DEC_START, DEC_CHAR of each of them and DEC_END append exactly the source to DEC_OUT; no error
is raised. -/
def Obligations.RoundTrip : Prop :=
  ∀ (s : State) (src : List Byte), src ≠ [] → s.drained → 1 ≤ s.freqW → s.freqW ≤ 32 →
    src.length ≤ 2 ^ s.freqW - 1 → (∀ c : Byte, (s.freqAt c).toNat = src.count c) →
    ∃ (u : State) (chrs : List Byte),
      execAll (.build :: .genCodes :: src.map .encode) s = .next u ∧ u.encOut = s.encOut ++ chrs ∧
      ∀ again ∈ ([[], [.build]] : List (List Instr)), ∃ v,
        execAll (again ++ .decStart :: chrs.map .decChar ++ [.decEnd]) u = .next v ∧
        v.decOut = s.decOut ++ src ∧ v.encOut = u.encOut ∧ v.err = s.err

/-! ## Streams and whole-machine invariants -/

/-- 20_memory.md R70: bytes are appended and never taken back, by any step, hardware reset and RESET included. -/
def Obligations.StreamsOnlyGrow : Prop :=
  ∀ s t : State, step s = .next t → s.encOut <+: t.encOut ∧ s.decOut <+: t.decOut

/-- 20_memory.md R70, 70_reset_and_hazards.md R259: a command whose output is not accepted does not complete, and the
block stays BUSY: ENCODE of a code of at least one character, DEC_CHAR that reaches a leaf, and DEC_END of a SINGLE tree,
the three commands that emit. That a waiting command changes nothing at all, all of its bytes being accepted with its
completion or none, is the model's choice, log entry 7. -/
def Obligations.UndrainedOutputWaits : Prop :=
  (∀ (s t : State) (w : Word), s.pending = some w → exec (decode (.command w)) s = .next t →
    (s.encReady = false → t.encOut = s.encOut) ∧ (s.decReady = false → t.decOut = s.decOut) ∧
    (t.pending = none ∨ t = s)) ∧
  (∀ (s : State) (sym : Byte), s.encReady = false → s.codesValid = true → (s.codeAt sym).valid = true →
    (s.codeAt sym).len ≠ 0#8 → exec (.encode sym) s = .next s) ∧
  (∀ (s : State) (chr : Byte), s.decReady = false → s.decState = .active → s.treeState = .multi →
    256 ≤ s.cur.toNat → (chr = 0x30#8 ∨ chr = 0x31#8) →
    (if chr = 0x30#8 then (inodeOf s.inode (s.cur.toNat - 256)).left
      else (inodeOf s.inode (s.cur.toNat - 256)).right).toNat ≤ 255 →
    exec (.decChar chr) s = .next s) ∧
  (∀ s : State, s.decReady = false → s.decState = .active → s.treeState = .single → s.root.toNat ≤ 255 →
    s.freqAt (BitVec.ofNat 8 s.root.toNat) ≠ 0#32 → exec .decEnd s = .next s)

/-- Every step keeps the parameter FREQ_W (00_scope.md R6), the arrays within their bounds and in canonical form and
the counters below 2^FREQ_W (10_state.md R22, R23, R25), and the node frequencies and TOTAL below 2^FREQ_W (00_scope.md
R6, 10_state.md R23). The canonical form is the model's own, log entry 15. -/
def Obligations.StepKeepsStores : Prop :=
  ∀ s t : State, s.storesOk = true → step s = .next t →
    t.storesOk = true ∧ t.freqW = s.freqW ∧ (s.widthsOk = true → t.widthsOk = true)

/-- 10_state.md R33, the bullets on TREE_STATE: every step keeps them. -/
def Obligations.StepKeepsTreeRegisters : Prop :=
  ∀ s t : State, s.storesOk = true → s.treeRegsOk → step s = .next t → t.treeRegsOk

/-- 10_state.md R33, the bullet on internal nodes, 44_decoder.md R165 and 20_memory.md R74: every step keeps the tree's
nodes as they must be, the walk on a valid internal node, and a valid code table that of the current tree. -/
def Obligations.StepKeepsTree : Prop :=
  ∀ s t : State, s.storesOk = true → s.treeRegsOk → s.treeOk → step s = .next t → t.treeOk

/-- The reset state meets the invariants. -/
def Obligations.ResetMeetsInvariants : Prop :=
  State.reset.storesOk = true ∧ State.reset.widthsOk = true ∧ State.reset.treeRegsOk ∧ State.reset.treeOk
end

