-- ==== Sys2Proof/Laws/State.lean ====
section
/-! SUPPORT. What each named update leaves in each field of State, one lemma per field, all true by rfl. -/

namespace Sys2Proof.Machine

@[simp] theorem State.raise_freq (s : State) (e : ErrorCause) (op : BitVec 4) (arg : Byte) (addr : Addr) :
    (s.raise e op arg addr).freq = s.freq := rfl
@[simp] theorem State.raise_inode (s : State) (e : ErrorCause) (op : BitVec 4) (arg : Byte) (addr : Addr) :
    (s.raise e op arg addr).inode = s.inode := rfl
@[simp] theorem State.raise_treeState (s : State) (e : ErrorCause) (op : BitVec 4) (arg : Byte) (addr : Addr) :
    (s.raise e op arg addr).treeState = s.treeState := rfl
@[simp] theorem State.raise_nsym (s : State) (e : ErrorCause) (op : BitVec 4) (arg : Byte) (addr : Addr) :
    (s.raise e op arg addr).nsym = s.nsym := rfl
@[simp] theorem State.raise_root (s : State) (e : ErrorCause) (op : BitVec 4) (arg : Byte) (addr : Addr) :
    (s.raise e op arg addr).root = s.root := rfl
@[simp] theorem State.raise_total (s : State) (e : ErrorCause) (op : BitVec 4) (arg : Byte) (addr : Addr) :
    (s.raise e op arg addr).total = s.total := rfl
@[simp] theorem State.raise_codesValid (s : State) (e : ErrorCause) (op : BitVec 4) (arg : Byte) (addr : Addr) :
    (s.raise e op arg addr).codesValid = s.codesValid := rfl
@[simp] theorem State.raise_code (s : State) (e : ErrorCause) (op : BitVec 4) (arg : Byte) (addr : Addr) :
    (s.raise e op arg addr).code = s.code := rfl
@[simp] theorem State.raise_decState (s : State) (e : ErrorCause) (op : BitVec 4) (arg : Byte) (addr : Addr) :
    (s.raise e op arg addr).decState = s.decState := rfl
@[simp] theorem State.raise_cur (s : State) (e : ErrorCause) (op : BitVec 4) (arg : Byte) (addr : Addr) :
    (s.raise e op arg addr).cur = s.cur := rfl
@[simp] theorem State.raise_err (s : State) (e : ErrorCause) (op : BitVec 4) (arg : Byte) (addr : Addr) :
    (s.raise e op arg addr).err = s.err ||| causeBit e := rfl
@[simp] theorem State.raise_errInfo (s : State) (e : ErrorCause) (op : BitVec 4) (arg : Byte) (addr : Addr) :
    (s.raise e op arg addr).errInfo = if s.err = 0#8 then errorRecord e op arg addr else s.errInfo := rfl
@[simp] theorem State.raise_irqEn (s : State) (e : ErrorCause) (op : BitVec 4) (arg : Byte) (addr : Addr) :
    (s.raise e op arg addr).irqEn = s.irqEn := rfl
@[simp] theorem State.raise_nodeSel (s : State) (e : ErrorCause) (op : BitVec 4) (arg : Byte) (addr : Addr) :
    (s.raise e op arg addr).nodeSel = s.nodeSel := rfl
@[simp] theorem State.raise_pending (s : State) (e : ErrorCause) (op : BitVec 4) (arg : Byte) (addr : Addr) :
    (s.raise e op arg addr).pending = s.pending := rfl
@[simp] theorem State.raise_encOut (s : State) (e : ErrorCause) (op : BitVec 4) (arg : Byte) (addr : Addr) :
    (s.raise e op arg addr).encOut = s.encOut := rfl
@[simp] theorem State.raise_decOut (s : State) (e : ErrorCause) (op : BitVec 4) (arg : Byte) (addr : Addr) :
    (s.raise e op arg addr).decOut = s.decOut := rfl
@[simp] theorem State.raise_freqW (s : State) (e : ErrorCause) (op : BitVec 4) (arg : Byte) (addr : Addr) :
    (s.raise e op arg addr).freqW = s.freqW := rfl
@[simp] theorem State.raise_events (s : State) (e : ErrorCause) (op : BitVec 4) (arg : Byte) (addr : Addr) :
    (s.raise e op arg addr).events = s.events := rfl
@[simp] theorem State.raise_reads (s : State) (e : ErrorCause) (op : BitVec 4) (arg : Byte) (addr : Addr) :
    (s.raise e op arg addr).reads = s.reads := rfl
@[simp] theorem State.raise_encReady (s : State) (e : ErrorCause) (op : BitVec 4) (arg : Byte) (addr : Addr) :
    (s.raise e op arg addr).encReady = s.encReady := rfl
@[simp] theorem State.raise_decReady (s : State) (e : ErrorCause) (op : BitVec 4) (arg : Byte) (addr : Addr) :
    (s.raise e op arg addr).decReady = s.decReady := rfl
@[simp] theorem State.raise_draws (s : State) (e : ErrorCause) (op : BitVec 4) (arg : Byte) (addr : Addr) :
    (s.raise e op arg addr).draws = s.draws := rfl

@[simp] theorem State.clearErrors_freq (s : State) (v : Word) :
    (s.clearErrors v).freq = s.freq := rfl
@[simp] theorem State.clearErrors_inode (s : State) (v : Word) :
    (s.clearErrors v).inode = s.inode := rfl
@[simp] theorem State.clearErrors_treeState (s : State) (v : Word) :
    (s.clearErrors v).treeState = s.treeState := rfl
@[simp] theorem State.clearErrors_nsym (s : State) (v : Word) :
    (s.clearErrors v).nsym = s.nsym := rfl
@[simp] theorem State.clearErrors_root (s : State) (v : Word) :
    (s.clearErrors v).root = s.root := rfl
@[simp] theorem State.clearErrors_total (s : State) (v : Word) :
    (s.clearErrors v).total = s.total := rfl
@[simp] theorem State.clearErrors_codesValid (s : State) (v : Word) :
    (s.clearErrors v).codesValid = s.codesValid := rfl
@[simp] theorem State.clearErrors_code (s : State) (v : Word) :
    (s.clearErrors v).code = s.code := rfl
@[simp] theorem State.clearErrors_decState (s : State) (v : Word) :
    (s.clearErrors v).decState = s.decState := rfl
@[simp] theorem State.clearErrors_cur (s : State) (v : Word) :
    (s.clearErrors v).cur = s.cur := rfl
@[simp] theorem State.clearErrors_err (s : State) (v : Word) :
    (s.clearErrors v).err = s.err &&& ~~~(v.extractLsb' 0 8) := rfl
@[simp] theorem State.clearErrors_errInfo (s : State) (v : Word) :
    (s.clearErrors v).errInfo = s.errInfo := rfl
@[simp] theorem State.clearErrors_irqEn (s : State) (v : Word) :
    (s.clearErrors v).irqEn = s.irqEn := rfl
@[simp] theorem State.clearErrors_nodeSel (s : State) (v : Word) :
    (s.clearErrors v).nodeSel = s.nodeSel := rfl
@[simp] theorem State.clearErrors_pending (s : State) (v : Word) :
    (s.clearErrors v).pending = s.pending := rfl
@[simp] theorem State.clearErrors_encOut (s : State) (v : Word) :
    (s.clearErrors v).encOut = s.encOut := rfl
@[simp] theorem State.clearErrors_decOut (s : State) (v : Word) :
    (s.clearErrors v).decOut = s.decOut := rfl
@[simp] theorem State.clearErrors_freqW (s : State) (v : Word) :
    (s.clearErrors v).freqW = s.freqW := rfl
@[simp] theorem State.clearErrors_events (s : State) (v : Word) :
    (s.clearErrors v).events = s.events := rfl
@[simp] theorem State.clearErrors_reads (s : State) (v : Word) :
    (s.clearErrors v).reads = s.reads := rfl
@[simp] theorem State.clearErrors_encReady (s : State) (v : Word) :
    (s.clearErrors v).encReady = s.encReady := rfl
@[simp] theorem State.clearErrors_decReady (s : State) (v : Word) :
    (s.clearErrors v).decReady = s.decReady := rfl
@[simp] theorem State.clearErrors_draws (s : State) (v : Word) :
    (s.clearErrors v).draws = s.draws := rfl

@[simp] theorem State.setFreq_freq (s : State) (sym : Byte) (v : Word) :
    (s.setFreq sym v).freq = Table.set 0#32 s.freq sym.toNat v := rfl
@[simp] theorem State.setFreq_inode (s : State) (sym : Byte) (v : Word) :
    (s.setFreq sym v).inode = s.inode := rfl
@[simp] theorem State.setFreq_treeState (s : State) (sym : Byte) (v : Word) :
    (s.setFreq sym v).treeState = s.treeState := rfl
@[simp] theorem State.setFreq_nsym (s : State) (sym : Byte) (v : Word) :
    (s.setFreq sym v).nsym = s.nsym := rfl
@[simp] theorem State.setFreq_root (s : State) (sym : Byte) (v : Word) :
    (s.setFreq sym v).root = s.root := rfl
@[simp] theorem State.setFreq_total (s : State) (sym : Byte) (v : Word) :
    (s.setFreq sym v).total = s.total := rfl
@[simp] theorem State.setFreq_codesValid (s : State) (sym : Byte) (v : Word) :
    (s.setFreq sym v).codesValid = s.codesValid := rfl
@[simp] theorem State.setFreq_code (s : State) (sym : Byte) (v : Word) :
    (s.setFreq sym v).code = s.code := rfl
@[simp] theorem State.setFreq_decState (s : State) (sym : Byte) (v : Word) :
    (s.setFreq sym v).decState = s.decState := rfl
@[simp] theorem State.setFreq_cur (s : State) (sym : Byte) (v : Word) :
    (s.setFreq sym v).cur = s.cur := rfl
@[simp] theorem State.setFreq_err (s : State) (sym : Byte) (v : Word) :
    (s.setFreq sym v).err = s.err := rfl
@[simp] theorem State.setFreq_errInfo (s : State) (sym : Byte) (v : Word) :
    (s.setFreq sym v).errInfo = s.errInfo := rfl
@[simp] theorem State.setFreq_irqEn (s : State) (sym : Byte) (v : Word) :
    (s.setFreq sym v).irqEn = s.irqEn := rfl
@[simp] theorem State.setFreq_nodeSel (s : State) (sym : Byte) (v : Word) :
    (s.setFreq sym v).nodeSel = s.nodeSel := rfl
@[simp] theorem State.setFreq_pending (s : State) (sym : Byte) (v : Word) :
    (s.setFreq sym v).pending = s.pending := rfl
@[simp] theorem State.setFreq_encOut (s : State) (sym : Byte) (v : Word) :
    (s.setFreq sym v).encOut = s.encOut := rfl
@[simp] theorem State.setFreq_decOut (s : State) (sym : Byte) (v : Word) :
    (s.setFreq sym v).decOut = s.decOut := rfl
@[simp] theorem State.setFreq_freqW (s : State) (sym : Byte) (v : Word) :
    (s.setFreq sym v).freqW = s.freqW := rfl
@[simp] theorem State.setFreq_events (s : State) (sym : Byte) (v : Word) :
    (s.setFreq sym v).events = s.events := rfl
@[simp] theorem State.setFreq_reads (s : State) (sym : Byte) (v : Word) :
    (s.setFreq sym v).reads = s.reads := rfl
@[simp] theorem State.setFreq_encReady (s : State) (sym : Byte) (v : Word) :
    (s.setFreq sym v).encReady = s.encReady := rfl
@[simp] theorem State.setFreq_decReady (s : State) (sym : Byte) (v : Word) :
    (s.setFreq sym v).decReady = s.decReady := rfl
@[simp] theorem State.setFreq_draws (s : State) (sym : Byte) (v : Word) :
    (s.setFreq sym v).draws = s.draws := rfl

@[simp] theorem State.invalidate_freq (s : State) :
    s.invalidate.freq = s.freq := rfl
@[simp] theorem State.invalidate_inode (s : State) :
    s.invalidate.inode = s.inode := rfl
@[simp] theorem State.invalidate_treeState (s : State) :
    s.invalidate.treeState = .none := rfl
@[simp] theorem State.invalidate_nsym (s : State) :
    s.invalidate.nsym = 0#9 := rfl
@[simp] theorem State.invalidate_root (s : State) :
    s.invalidate.root = 0x1FF#9 := rfl
@[simp] theorem State.invalidate_total (s : State) :
    s.invalidate.total = 0#32 := rfl
@[simp] theorem State.invalidate_codesValid (s : State) :
    s.invalidate.codesValid = false := rfl
@[simp] theorem State.invalidate_code (s : State) :
    s.invalidate.code = s.code := rfl
@[simp] theorem State.invalidate_decState (s : State) :
    s.invalidate.decState = .idle := rfl
@[simp] theorem State.invalidate_cur (s : State) :
    s.invalidate.cur = 0x1FF#9 := rfl
@[simp] theorem State.invalidate_err (s : State) :
    s.invalidate.err = s.err := rfl
@[simp] theorem State.invalidate_errInfo (s : State) :
    s.invalidate.errInfo = s.errInfo := rfl
@[simp] theorem State.invalidate_irqEn (s : State) :
    s.invalidate.irqEn = s.irqEn := rfl
@[simp] theorem State.invalidate_nodeSel (s : State) :
    s.invalidate.nodeSel = s.nodeSel := rfl
@[simp] theorem State.invalidate_pending (s : State) :
    s.invalidate.pending = s.pending := rfl
@[simp] theorem State.invalidate_encOut (s : State) :
    s.invalidate.encOut = s.encOut := rfl
@[simp] theorem State.invalidate_decOut (s : State) :
    s.invalidate.decOut = s.decOut := rfl
@[simp] theorem State.invalidate_freqW (s : State) :
    s.invalidate.freqW = s.freqW := rfl
@[simp] theorem State.invalidate_events (s : State) :
    s.invalidate.events = s.events := rfl
@[simp] theorem State.invalidate_reads (s : State) :
    s.invalidate.reads = s.reads := rfl
@[simp] theorem State.invalidate_encReady (s : State) :
    s.invalidate.encReady = s.encReady := rfl
@[simp] theorem State.invalidate_decReady (s : State) :
    s.invalidate.decReady = s.decReady := rfl
@[simp] theorem State.invalidate_draws (s : State) :
    s.invalidate.draws = s.draws := rfl

@[simp] theorem State.clearRegisters_freq (s : State) :
    s.clearRegisters.freq = [] := rfl
@[simp] theorem State.clearRegisters_inode (s : State) :
    s.clearRegisters.inode = s.inode := rfl
@[simp] theorem State.clearRegisters_treeState (s : State) :
    s.clearRegisters.treeState = .none := rfl
@[simp] theorem State.clearRegisters_nsym (s : State) :
    s.clearRegisters.nsym = 0#9 := rfl
@[simp] theorem State.clearRegisters_root (s : State) :
    s.clearRegisters.root = 0x1FF#9 := rfl
@[simp] theorem State.clearRegisters_total (s : State) :
    s.clearRegisters.total = 0#32 := rfl
@[simp] theorem State.clearRegisters_codesValid (s : State) :
    s.clearRegisters.codesValid = false := rfl
@[simp] theorem State.clearRegisters_code (s : State) :
    s.clearRegisters.code = s.code := rfl
@[simp] theorem State.clearRegisters_decState (s : State) :
    s.clearRegisters.decState = .idle := rfl
@[simp] theorem State.clearRegisters_cur (s : State) :
    s.clearRegisters.cur = 0x1FF#9 := rfl
@[simp] theorem State.clearRegisters_err (s : State) :
    s.clearRegisters.err = 0#8 := rfl
@[simp] theorem State.clearRegisters_errInfo (s : State) :
    s.clearRegisters.errInfo = 0#32 := rfl
@[simp] theorem State.clearRegisters_irqEn (s : State) :
    s.clearRegisters.irqEn = 0#2 := rfl
@[simp] theorem State.clearRegisters_nodeSel (s : State) :
    s.clearRegisters.nodeSel = 0#9 := rfl
@[simp] theorem State.clearRegisters_pending (s : State) :
    s.clearRegisters.pending = s.pending := rfl
@[simp] theorem State.clearRegisters_encOut (s : State) :
    s.clearRegisters.encOut = s.encOut := rfl
@[simp] theorem State.clearRegisters_decOut (s : State) :
    s.clearRegisters.decOut = s.decOut := rfl
@[simp] theorem State.clearRegisters_freqW (s : State) :
    s.clearRegisters.freqW = s.freqW := rfl
@[simp] theorem State.clearRegisters_events (s : State) :
    s.clearRegisters.events = s.events := rfl
@[simp] theorem State.clearRegisters_reads (s : State) :
    s.clearRegisters.reads = s.reads := rfl
@[simp] theorem State.clearRegisters_encReady (s : State) :
    s.clearRegisters.encReady = s.encReady := rfl
@[simp] theorem State.clearRegisters_decReady (s : State) :
    s.clearRegisters.decReady = s.decReady := rfl
@[simp] theorem State.clearRegisters_draws (s : State) :
    s.clearRegisters.draws = s.draws := rfl

@[simp] theorem State.issue_freq (s : State) (v : Word) :
    (s.issue v).freq = s.freq := rfl
@[simp] theorem State.issue_inode (s : State) (v : Word) :
    (s.issue v).inode = s.inode := rfl
@[simp] theorem State.issue_treeState (s : State) (v : Word) :
    (s.issue v).treeState = s.treeState := rfl
@[simp] theorem State.issue_nsym (s : State) (v : Word) :
    (s.issue v).nsym = s.nsym := rfl
@[simp] theorem State.issue_root (s : State) (v : Word) :
    (s.issue v).root = s.root := rfl
@[simp] theorem State.issue_total (s : State) (v : Word) :
    (s.issue v).total = s.total := rfl
@[simp] theorem State.issue_codesValid (s : State) (v : Word) :
    (s.issue v).codesValid = s.codesValid := rfl
@[simp] theorem State.issue_code (s : State) (v : Word) :
    (s.issue v).code = s.code := rfl
@[simp] theorem State.issue_decState (s : State) (v : Word) :
    (s.issue v).decState = s.decState := rfl
@[simp] theorem State.issue_cur (s : State) (v : Word) :
    (s.issue v).cur = s.cur := rfl
@[simp] theorem State.issue_err (s : State) (v : Word) :
    (s.issue v).err = s.err := rfl
@[simp] theorem State.issue_errInfo (s : State) (v : Word) :
    (s.issue v).errInfo = s.errInfo := rfl
@[simp] theorem State.issue_irqEn (s : State) (v : Word) :
    (s.issue v).irqEn = s.irqEn := rfl
@[simp] theorem State.issue_nodeSel (s : State) (v : Word) :
    (s.issue v).nodeSel = s.nodeSel := rfl
@[simp] theorem State.issue_pending (s : State) (v : Word) :
    (s.issue v).pending = some v := rfl
@[simp] theorem State.issue_encOut (s : State) (v : Word) :
    (s.issue v).encOut = s.encOut := rfl
@[simp] theorem State.issue_decOut (s : State) (v : Word) :
    (s.issue v).decOut = s.decOut := rfl
@[simp] theorem State.issue_freqW (s : State) (v : Word) :
    (s.issue v).freqW = s.freqW := rfl
@[simp] theorem State.issue_events (s : State) (v : Word) :
    (s.issue v).events = s.events := rfl
@[simp] theorem State.issue_reads (s : State) (v : Word) :
    (s.issue v).reads = s.reads := rfl
@[simp] theorem State.issue_encReady (s : State) (v : Word) :
    (s.issue v).encReady = s.encReady := rfl
@[simp] theorem State.issue_decReady (s : State) (v : Word) :
    (s.issue v).decReady = s.decReady := rfl
@[simp] theorem State.issue_draws (s : State) (v : Word) :
    (s.issue v).draws = s.draws := rfl

@[simp] theorem State.retire_freq (s : State) :
    s.retire.freq = s.freq := rfl
@[simp] theorem State.retire_inode (s : State) :
    s.retire.inode = s.inode := rfl
@[simp] theorem State.retire_treeState (s : State) :
    s.retire.treeState = s.treeState := rfl
@[simp] theorem State.retire_nsym (s : State) :
    s.retire.nsym = s.nsym := rfl
@[simp] theorem State.retire_root (s : State) :
    s.retire.root = s.root := rfl
@[simp] theorem State.retire_total (s : State) :
    s.retire.total = s.total := rfl
@[simp] theorem State.retire_codesValid (s : State) :
    s.retire.codesValid = s.codesValid := rfl
@[simp] theorem State.retire_code (s : State) :
    s.retire.code = s.code := rfl
@[simp] theorem State.retire_decState (s : State) :
    s.retire.decState = s.decState := rfl
@[simp] theorem State.retire_cur (s : State) :
    s.retire.cur = s.cur := rfl
@[simp] theorem State.retire_err (s : State) :
    s.retire.err = s.err := rfl
@[simp] theorem State.retire_errInfo (s : State) :
    s.retire.errInfo = s.errInfo := rfl
@[simp] theorem State.retire_irqEn (s : State) :
    s.retire.irqEn = s.irqEn := rfl
@[simp] theorem State.retire_nodeSel (s : State) :
    s.retire.nodeSel = s.nodeSel := rfl
@[simp] theorem State.retire_pending (s : State) :
    s.retire.pending = none := rfl
@[simp] theorem State.retire_encOut (s : State) :
    s.retire.encOut = s.encOut := rfl
@[simp] theorem State.retire_decOut (s : State) :
    s.retire.decOut = s.decOut := rfl
@[simp] theorem State.retire_freqW (s : State) :
    s.retire.freqW = s.freqW := rfl
@[simp] theorem State.retire_events (s : State) :
    s.retire.events = s.events := rfl
@[simp] theorem State.retire_reads (s : State) :
    s.retire.reads = s.reads := rfl
@[simp] theorem State.retire_encReady (s : State) :
    s.retire.encReady = s.encReady := rfl
@[simp] theorem State.retire_decReady (s : State) :
    s.retire.decReady = s.decReady := rfl
@[simp] theorem State.retire_draws (s : State) :
    s.retire.draws = s.draws := rfl

end Sys2Proof.Machine
end

