-- ==== Sys2Proof/Laws/Ops.lean ====
section
/-! SUPPORT. What each shared operation can answer, said once: later proofs cite these and unfold no operation. -/

namespace Sys2Proof.Machine

theorem finish_next {t u : State} : finish t = .next u ↔ u = t.retire := by
  simp [finish, eq_comm]

theorem fail_next {t u : State} {e : ErrorCause} {op : BitVec 4} {arg : Byte} :
    fail t e op arg = .next u ↔ u = (t.raise e op arg 0x0004#16).retire := finish_next

/-- A command that emits on ENC_OUT completes with its bytes appended, or waits with nothing changed. -/
theorem finishEnc_next {s t u : State} {bytes : List Byte} :
    finishEnc s t bytes = .next u ↔
      ((bytes = [] ∨ s.encReady = true) ∧ u = ({ t with encOut := t.encOut ++ bytes } : State).retire) ∨
      (bytes ≠ [] ∧ s.encReady = false ∧ u = s) := by
  unfold finishEnc
  split <;> rename_i h
  · simp only [finish_next, h, true_and]
    constructor
    · exact .inl
    · rintro (h' | ⟨h1, h2, -⟩)
      · exact h'
      · simp [h1, h2] at h
  · simp only [not_or, Bool.not_eq_true] at h
    simp [h.1, h.2, eq_comm]

/-- A command that emits on DEC_OUT completes with its bytes appended, or waits with nothing changed. -/
theorem finishDec_next {s t u : State} {bytes : List Byte} :
    finishDec s t bytes = .next u ↔
      ((bytes = [] ∨ s.decReady = true) ∧ u = ({ t with decOut := t.decOut ++ bytes } : State).retire) ∨
      (bytes ≠ [] ∧ s.decReady = false ∧ u = s) := by
  unfold finishDec
  split <;> rename_i h
  · simp only [finish_next, h, true_and]
    constructor
    · exact .inl
    · rintro (h' | ⟨h1, h2, -⟩)
      · exact h'
      · simp [h1, h2] at h
  · simp only [not_or, Bool.not_eq_true] at h
    simp [h.1, h.2, eq_comm]

theorem rejectWrite_next {s u : State} {e : ErrorCause} {a : Addr} :
    rejectWrite s e a = .next u ↔ u = s.raise e 0#4 0#8 a := by
  simp [rejectWrite, eq_comm]

/-- A guarded write is done while BUSY = 0, and otherwise dropped with BUSY_VIOLATION. -/
theorem acceptWrite_next {s t u : State} {a : Addr} :
    acceptWrite s a t = .next u ↔
      (s.busy = false ∧ u = t) ∨ (s.busy = true ∧ u = s.raise .busyViolation 0#4 0#8 a) := by
  unfold acceptWrite
  cases h : s.busy <;> simp [rejectWrite, eq_comm]

theorem answer_next {s u : State} {v : Word} :
    answer s v = .next u ↔ u = { s with reads := s.reads ++ [v] } := by
  simp [answer, eq_comm]

theorem answerDraw_next {s u : State} {f : Word → Word} :
    answerDraw s f = .next u ↔
      u = { s with reads := s.reads ++ [f (Config.busyRead s.draws)], draws := s.draws + 1 } := by
  simp [answerDraw, eq_comm]

/-- A read exact only while BUSY = 0: the value, or a free value. -/
theorem answerIdle_next {s u : State} {v : Word} :
    answerIdle s v = .next u ↔
      (s.busy = false ∧ u = { s with reads := s.reads ++ [v] }) ∨
      (s.busy = true ∧
        u = { s with reads := s.reads ++ [Config.busyRead s.draws], draws := s.draws + 1 }) := by
  unfold answerIdle
  cases h : s.busy <;> simp [answer, answerDraw, eq_comm]

/-- The ERR bit of a cause is the bit one below its code (60_exceptions.md R220). -/
theorem causeBit_getLsbD (e : ErrorCause) (n : Nat) :
    (causeBit e).getLsbD n = decide (n + 1 = (causeCode e).toNat) := by
  cases e <;> simp [causeBit, causeCode, BitVec.getLsbD_twoPow] <;> omega

/-- After a raise the cause's bit is set and every other bit is as before (60_exceptions.md R221). -/
theorem State.raise_err_getLsbD (s : State) (e : ErrorCause) (op : BitVec 4) (arg : Byte) (addr : Addr) (n : Nat) :
    (s.raise e op arg addr).err.getLsbD n = (s.err.getLsbD n || decide (n + 1 = (causeCode e).toNat)) := by
  simp [causeBit_getLsbD]

/-- A raise leaves some error bit set. -/
theorem State.raise_err_ne_zero (s : State) (e : ErrorCause) (op : BitVec 4) (arg : Byte) (addr : Addr) :
    (s.raise e op arg addr).err ≠ 0#8 := by
  intro h
  have := congrArg (fun b : BitVec 8 => b.getLsbD ((causeCode e).toNat - 1)) h
  rw [State.raise_err_getLsbD] at this
  cases e <;> simp [causeCode] at this

end Sys2Proof.Machine
end

