-- ==== Sys2Proof/Laws/Exec.lean ====
section
/-! SUPPORT. What each meaning can answer: one inversion lemma per meaning, tagged simp, so that a claim over all
operations is `cases i` and these. -/

namespace Sys2Proof.Machine

/-! ## Control -/

@[simp] theorem execNop_next {s t : State} : execNop s = .next t ↔ t = s.retire := finish_next

@[simp] theorem execReset_next {s t : State} : execReset s = .next t ↔ t = s.clearRegisters.retire := finish_next

@[simp] theorem execIllegal_next {w : Word} {s t : State} :
    execIllegal w s = .next t ↔ t = (s.raise .illegalCmd (opField w) (argField w) 0x0004#16).retire := fail_next

@[simp] theorem execWrCmd_next {v : Word} {s t : State} :
    execWrCmd v s = .next t ↔
      (s.busy = false ∧ t = s.issue v) ∨ (s.busy = true ∧ t = s.raise .busyViolation 0#4 0#8 0x0004#16) :=
  acceptWrite_next

/-! ## Frequency table -/

@[simp] theorem execClrFreq_next {s t : State} :
    execClrFreq s = .next t ↔ t = (({ s with freq := [] } : State).invalidate).retire := finish_next

@[simp] theorem execCount_next {sym : Byte} {s t : State} :
    execCount sym s = .next t ↔
      ((s.freqAt sym).toNat = s.freqMax ∧ t = (s.raise .freqOverflow 0x2#4 sym 0x0004#16).retire) ∨
      ((s.freqAt sym).toNat ≠ s.freqMax ∧ t = (s.setFreq sym (s.freqAt sym + 1#32)).invalidate.retire) := by
  unfold execCount
  split <;> rename_i h <;> simp [h, fail_next, finish_next]

@[simp] theorem execWrFreq_next {sym : Byte} {v : Word} {s t : State} :
    execWrFreq sym v s = .next t ↔
      (s.busy = false ∧ t = (s.setFreq sym (s.lowFreqBits v)).invalidate) ∨
      (s.busy = true ∧ t = s.raise .busyViolation 0#4 0#8 (freqAddr sym)) := acceptWrite_next

/-! ## Tree builder -/

@[simp] theorem execBuild_next {s t : State} :
    execBuild s = .next t ↔
      (freqTotal s.freq > s.freqMax ∧ t = (s.invalidate.raise .freqOverflow 0x3#4 0#8 0x0004#16).retire) ∨
      (freqTotal s.freq ≤ s.freqMax ∧ t = (s.invalidate.buildFrom (leafList s.freq)).retire) := by
  unfold execBuild
  split <;> rename_i h
  · simp [h, fail_next]
  · simp [Nat.le_of_not_gt h, finish_next]

@[simp] theorem execWrNodeSel_next {v : Word} {s t : State} :
    execWrNodeSel v s = .next t ↔
      (s.busy = false ∧ t = { s with nodeSel := v.extractLsb' 0 9 }) ∨
      (s.busy = true ∧ t = s.raise .busyViolation 0#4 0#8 0x0024#16) := acceptWrite_next

/-! ## Code table -/

@[simp] theorem execGenCodes_next {s t : State} :
    execGenCodes s = .next t ↔
      (s.treeState = .none ∧ t = (s.raise .sequence 0x4#4 0#8 0x0004#16).retire) ∨
      (s.treeState ≠ .none ∧ t = ({ s with
        code := if s.treeState = .multi then walk s.inode 256 s.root [] [] else []
        codesValid := true } : State).retire) := by
  unfold execGenCodes
  split <;> rename_i h <;> simp [h, fail_next, finish_next]

@[simp] theorem execEncode_next {sym : Byte} {s t : State} :
    execEncode sym s = .next t ↔
      (s.codesValid = false ∧ t = (s.raise .sequence 0x5#4 sym 0x0004#16).retire) ∨
      (s.codesValid = true ∧ (s.codeAt sym).valid = true ∧
        (((codeBytes (s.codeAt sym) = [] ∨ s.encReady = true) ∧
            t = ({ s with encOut := s.encOut ++ codeBytes (s.codeAt sym) } : State).retire) ∨
          (codeBytes (s.codeAt sym) ≠ [] ∧ s.encReady = false ∧ t = s))) ∨
      (s.codesValid = true ∧ (s.codeAt sym).valid = false ∧ (s.treeState = .single ∧ leafIx sym = s.root) ∧
        t = s.retire) ∨
      (s.codesValid = true ∧ (s.codeAt sym).valid = false ∧ ¬ (s.treeState = .single ∧ leafIx sym = s.root) ∧
        t = (s.raise .unknownSymbol 0x5#4 sym 0x0004#16).retire) := by
  unfold execEncode
  cases hc : s.codesValid
  · simp [fail_next]
  · cases hv : (s.codeAt sym).valid
    · by_cases hr : s.treeState = .single ∧ leafIx sym = s.root
      · simp [hr, finish_next]
      · simp [hr, fail_next]
    · rw [if_neg (by simp), if_pos rfl, finishEnc_next]
      simp [hc]

@[simp] theorem execRdCodeLow_next {p : BitVec 6} {w : BitVec 4} {s t : State} :
    execRdCodeLow p w s = .next t ↔
      (s.busy = false ∧ t = { s with reads := s.reads ++ [s.codeWindowWord (codeSymbol 0#8 p) w] }) ∨
      (s.busy = true ∧
        t = { s with reads := s.reads ++ [Config.busyRead s.draws], draws := s.draws + 1 }) := answerIdle_next

@[simp] theorem execRdCodeMid_next {p : BitVec 7} {w : BitVec 4} {s t : State} :
    execRdCodeMid p w s = .next t ↔
      (s.busy = false ∧ t = { s with reads := s.reads ++ [s.codeWindowWord (codeSymbol 64#8 p) w] }) ∨
      (s.busy = true ∧
        t = { s with reads := s.reads ++ [Config.busyRead s.draws], draws := s.draws + 1 }) := answerIdle_next

@[simp] theorem execRdCodeHigh_next {p : BitVec 6} {w : BitVec 4} {s t : State} :
    execRdCodeHigh p w s = .next t ↔
      (s.busy = false ∧ t = { s with reads := s.reads ++ [s.codeWindowWord (codeSymbol 192#8 p) w] }) ∨
      (s.busy = true ∧
        t = { s with reads := s.reads ++ [Config.busyRead s.draws], draws := s.draws + 1 }) := answerIdle_next

/-! ## Decoder -/

@[simp] theorem execDecStart_next {s t : State} :
    execDecStart s = .next t ↔
      (s.treeState = .none ∧ t = (s.raise .sequence 0x6#4 0#8 0x0004#16).retire) ∨
      (s.treeState ≠ .none ∧ t = ({ s with cur := s.root, decState := .active } : State).retire) := by
  unfold execDecStart
  split <;> rename_i h <;> simp [h, fail_next, finish_next]

theorem moveTo_next {s t : State} {nxt : NodeIx} :
    moveTo s nxt = .next t ↔
      (isLeaf nxt = true ∧ s.decReady = true ∧
        t = ({ s with cur := s.root, decOut := s.decOut ++ [nxt.setWidth 8] } : State).retire) ∨
      (isLeaf nxt = true ∧ s.decReady = false ∧ t = s) ∨
      (isLeaf nxt = false ∧ t = ({ s with cur := nxt } : State).retire) := by
  unfold moveTo
  cases h : isLeaf nxt
  · simp [finish_next]
  · simp [finishDec_next]

@[simp] theorem execDecChar_next {chr : Byte} {s t : State} :
    execDecChar chr s = .next t ↔
      (s.decState ≠ .active ∧ t = (s.raise .sequence 0x7#4 chr 0x0004#16).retire) ∨
      (s.decState = .active ∧ (s.treeState = .empty ∨ s.treeState = .single) ∧ t = s.retire) ∨
      (s.decState = .active ∧ ¬ (s.treeState = .empty ∨ s.treeState = .single) ∧
        ((∃ nxt, nextNode s.inode s.cur chr = some nxt ∧
            ((isLeaf nxt = true ∧ s.decReady = true ∧
                t = ({ s with cur := s.root, decOut := s.decOut ++ [nxt.setWidth 8] } : State).retire) ∨
              (isLeaf nxt = true ∧ s.decReady = false ∧ t = s) ∨
              (isLeaf nxt = false ∧ t = ({ s with cur := nxt } : State).retire))) ∨
          (nextNode s.inode s.cur chr = none ∧
            t = (({ s with decState := .failed } : State).raise .malformedInput 0x7#4 chr 0x0004#16).retire))) := by
  unfold execDecChar
  by_cases ha : s.decState = .active
  · by_cases ht : s.treeState = .empty ∨ s.treeState = .single
    · simp [ha, ht, finish_next]
    · rw [if_neg (by simp [ha]), if_neg ht]
      unfold decCharMulti
      cases hn : nextNode s.inode s.cur chr
      · simp [ha, ht, fail_next]
      · simp [ha, ht, moveTo_next]
  · simp [ha, fail_next]

@[simp] theorem execDecEnd_next {s t : State} :
    execDecEnd s = .next t ↔
      (s.decState ≠ .active ∧ t = (s.raise .sequence 0x8#4 0#8 0x0004#16).retire) ∨
      (s.decState = .active ∧ s.treeState = .single ∧
        (((List.replicate (nodeFreq s.freq s.inode s.root).toNat (s.root.setWidth 8 : Byte) = [] ∨ s.decReady = true) ∧
            t = ({ s with
              decState := .idle
              decOut := s.decOut ++ List.replicate (nodeFreq s.freq s.inode s.root).toNat (s.root.setWidth 8) }
              : State).retire) ∨
          (List.replicate (nodeFreq s.freq s.inode s.root).toNat (s.root.setWidth 8 : Byte) ≠ [] ∧
            s.decReady = false ∧ t = s))) ∨
      (s.decState = .active ∧ (s.treeState = .multi ∧ s.cur ≠ s.root) ∧
        t = (({ s with decState := .failed } : State).raise .truncatedInput 0x8#4 0#8 0x0004#16).retire) ∨
      (s.decState = .active ∧ s.treeState ≠ .single ∧ ¬ (s.treeState = .multi ∧ s.cur ≠ s.root) ∧
        t = ({ s with decState := .idle } : State).retire) := by
  unfold execDecEnd
  by_cases ha : s.decState = .active
  · by_cases ht : s.treeState = .single
    · rw [if_neg (by simp [ha]), if_pos ht, finishDec_next]
      simp [ha, ht]
    · by_cases hm : s.treeState = .multi ∧ s.cur ≠ s.root
      · rw [if_neg (by simp [ha]), if_neg ht, if_pos hm, fail_next]
        simp [ha, hm]
      · rw [if_neg (by simp [ha]), if_neg ht, if_neg hm, finish_next]
        simp [ha, ht, hm]
  · simp [ha, fail_next]

/-! ## Registers -/

@[simp] theorem execRdId_next {s t : State} :
    execRdId s = .next t ↔ t = { s with reads := s.reads ++ [0x48554631#32] } := answer_next

@[simp] theorem execRdCmd_next {s t : State} :
    execRdCmd s = .next t ↔ t = { s with reads := s.reads ++ [0#32] } := answer_next

@[simp] theorem execRdStatus_next {s t : State} :
    execRdStatus s = .next t ↔
      (s.busy = false ∧ t = { s with reads := s.reads ++ [s.statusWord] }) ∨
      (s.busy = true ∧ t = { s with
        reads := s.reads ++ [s.busyStatusWord (Config.busyRead s.draws)], draws := s.draws + 1 }) := by
  unfold execRdStatus
  cases h : s.busy <;> simp [answer_next, answerDraw_next]

@[simp] theorem execRdErr_next {s t : State} :
    execRdErr s = .next t ↔ t = { s with reads := s.reads ++ [s.err.setWidth 32] } := answer_next

@[simp] theorem execRdErrInfo_next {s t : State} :
    execRdErrInfo s = .next t ↔ t = { s with reads := s.reads ++ [s.errInfo] } := answer_next

@[simp] theorem execRdIrqEn_next {s t : State} :
    execRdIrqEn s = .next t ↔ t = { s with reads := s.reads ++ [s.irqEn.setWidth 32] } := answer_next

@[simp] theorem execRdRoot_next {s t : State} :
    execRdRoot s = .next t ↔
      (s.busy = false ∧ t = { s with reads := s.reads ++ [s.root.setWidth 32] }) ∨
      (s.busy = true ∧
        t = { s with reads := s.reads ++ [Config.busyRead s.draws], draws := s.draws + 1 }) := answerIdle_next

@[simp] theorem execRdTotal_next {s t : State} :
    execRdTotal s = .next t ↔
      (s.busy = false ∧ t = { s with reads := s.reads ++ [s.total] }) ∨
      (s.busy = true ∧
        t = { s with reads := s.reads ++ [Config.busyRead s.draws], draws := s.draws + 1 }) := answerIdle_next

@[simp] theorem execRdDecCur_next {s t : State} :
    execRdDecCur s = .next t ↔
      (s.busy = false ∧ t = { s with reads := s.reads ++ [s.cur.setWidth 32] }) ∨
      (s.busy = true ∧
        t = { s with reads := s.reads ++ [Config.busyRead s.draws], draws := s.draws + 1 }) := answerIdle_next

@[simp] theorem execRdNodeSel_next {s t : State} :
    execRdNodeSel s = .next t ↔ t = { s with reads := s.reads ++ [s.nodeSel.setWidth 32] } := answer_next

@[simp] theorem execRdNodeFreq_next {s t : State} :
    execRdNodeFreq s = .next t ↔
      (s.busy = false ∧ t = { s with reads := s.reads ++ [s.nodeFreqWord] }) ∨
      (s.busy = true ∧
        t = { s with reads := s.reads ++ [Config.busyRead s.draws], draws := s.draws + 1 }) := answerIdle_next

@[simp] theorem execRdNodeRep_next {s t : State} :
    execRdNodeRep s = .next t ↔
      (s.busy = false ∧ t = { s with reads := s.reads ++ [s.nodeRepWord] }) ∨
      (s.busy = true ∧
        t = { s with reads := s.reads ++ [Config.busyRead s.draws], draws := s.draws + 1 }) := answerIdle_next

@[simp] theorem execRdNodeLink_next {s t : State} :
    execRdNodeLink s = .next t ↔
      (s.busy = false ∧ t = { s with reads := s.reads ++ [s.nodeLinkWord] }) ∨
      (s.busy = true ∧
        t = { s with reads := s.reads ++ [Config.busyRead s.draws], draws := s.draws + 1 }) := answerIdle_next

@[simp] theorem execRdParam_next {s t : State} :
    execRdParam s = .next t ↔ t = { s with reads := s.reads ++ [s.paramWord] } := answer_next

@[simp] theorem execRdFreq_next {sym : Byte} {s t : State} :
    execRdFreq sym s = .next t ↔
      (s.busy = false ∧ t = { s with reads := s.reads ++ [s.freqAt sym] }) ∨
      (s.busy = true ∧
        t = { s with reads := s.reads ++ [Config.busyRead s.draws], draws := s.draws + 1 }) := answerIdle_next

@[simp] theorem execRdUnmapped_next {a : Addr} {s t : State} :
    execRdUnmapped a s = .next t ↔ t = { s with reads := s.reads ++ [0#32] } := answer_next

@[simp] theorem execWrErr_next {v : Word} {s t : State} : execWrErr v s = .next t ↔ t = s.clearErrors v := by
  simp [execWrErr, eq_comm]

@[simp] theorem execWrIrqEn_next {v : Word} {s t : State} :
    execWrIrqEn v s = .next t ↔ t = { s with irqEn := v.extractLsb' 0 2 } := by
  simp [execWrIrqEn, eq_comm]

@[simp] theorem execWrBad_next {a : Addr} {v : Word} {s t : State} :
    execWrBad a v s = .next t ↔ t = s.raise .badAddr 0#4 0#8 a := rejectWrite_next

/-! ## BUILD touches only the tree -/

/-- The fields BUILD may change are the tree registers and INODE (42_tree_builder.md R124). -/
theorem State.buildFrom_frame (s : State) (leaves : List NodeIx) :
    { s.buildFrom leaves with
      inode := s.inode, treeState := s.treeState, nsym := s.nsym, root := s.root, total := s.total } = s := by
  unfold State.buildFrom
  split <;> rfl

/-- BUILD's tree is EMPTY, SINGLE or MULTI by the number of leaves (42_tree_builder.md R124). -/
theorem State.buildFrom_treeState (s : State) (leaves : List NodeIx) :
    (s.buildFrom leaves).treeState
      = match leaves with
        | [] => .empty
        | [_] => .single
        | _ :: _ :: _ => .multi := by
  unfold State.buildFrom
  split <;> rfl

/-! Field by field. -/

@[simp] theorem State.buildFrom_freq (s : State) (l : List NodeIx) : (s.buildFrom l).freq = s.freq := by
  unfold State.buildFrom; split <;> rfl
@[simp] theorem State.buildFrom_codesValid (s : State) (l : List NodeIx) : (s.buildFrom l).codesValid = s.codesValid := by
  unfold State.buildFrom; split <;> rfl
@[simp] theorem State.buildFrom_code (s : State) (l : List NodeIx) : (s.buildFrom l).code = s.code := by
  unfold State.buildFrom; split <;> rfl
@[simp] theorem State.buildFrom_decState (s : State) (l : List NodeIx) : (s.buildFrom l).decState = s.decState := by
  unfold State.buildFrom; split <;> rfl
@[simp] theorem State.buildFrom_cur (s : State) (l : List NodeIx) : (s.buildFrom l).cur = s.cur := by
  unfold State.buildFrom; split <;> rfl
@[simp] theorem State.buildFrom_err (s : State) (l : List NodeIx) : (s.buildFrom l).err = s.err := by
  unfold State.buildFrom; split <;> rfl
@[simp] theorem State.buildFrom_errInfo (s : State) (l : List NodeIx) : (s.buildFrom l).errInfo = s.errInfo := by
  unfold State.buildFrom; split <;> rfl
@[simp] theorem State.buildFrom_irqEn (s : State) (l : List NodeIx) : (s.buildFrom l).irqEn = s.irqEn := by
  unfold State.buildFrom; split <;> rfl
@[simp] theorem State.buildFrom_nodeSel (s : State) (l : List NodeIx) : (s.buildFrom l).nodeSel = s.nodeSel := by
  unfold State.buildFrom; split <;> rfl
@[simp] theorem State.buildFrom_pending (s : State) (l : List NodeIx) : (s.buildFrom l).pending = s.pending := by
  unfold State.buildFrom; split <;> rfl
@[simp] theorem State.buildFrom_encOut (s : State) (l : List NodeIx) : (s.buildFrom l).encOut = s.encOut := by
  unfold State.buildFrom; split <;> rfl
@[simp] theorem State.buildFrom_decOut (s : State) (l : List NodeIx) : (s.buildFrom l).decOut = s.decOut := by
  unfold State.buildFrom; split <;> rfl
@[simp] theorem State.buildFrom_freqW (s : State) (l : List NodeIx) : (s.buildFrom l).freqW = s.freqW := by
  unfold State.buildFrom; split <;> rfl
@[simp] theorem State.buildFrom_events (s : State) (l : List NodeIx) : (s.buildFrom l).events = s.events := by
  unfold State.buildFrom; split <;> rfl
@[simp] theorem State.buildFrom_reads (s : State) (l : List NodeIx) : (s.buildFrom l).reads = s.reads := by
  unfold State.buildFrom; split <;> rfl
@[simp] theorem State.buildFrom_encReady (s : State) (l : List NodeIx) : (s.buildFrom l).encReady = s.encReady := by
  unfold State.buildFrom; split <;> rfl
@[simp] theorem State.buildFrom_decReady (s : State) (l : List NodeIx) : (s.buildFrom l).decReady = s.decReady := by
  unfold State.buildFrom; split <;> rfl
@[simp] theorem State.buildFrom_draws (s : State) (l : List NodeIx) : (s.buildFrom l).draws = s.draws := by
  unfold State.buildFrom; split <;> rfl

/-! ## What an operation does to ERR and ERR_INFO -/

/-- The three things an operation other than RESET and the ERR write can do to the error registers: nothing, or one
raise (60_exceptions.md R221). -/
def ErrorEffect (s t : State) : Prop :=
  (t.err = s.err ∧ t.errInfo = s.errInfo) ∨
  ∃ e op arg addr, t.err = s.err ||| causeBit e ∧
    t.errInfo = if s.err = 0#8 then errorRecord e op arg addr else s.errInfo

theorem ErrorEffect.same {s t : State} (h1 : t.err = s.err) (h2 : t.errInfo = s.errInfo) : ErrorEffect s t :=
  .inl ⟨h1, h2⟩

theorem ErrorEffect.new {s t : State} (e : ErrorCause) (op : BitVec 4) (arg : Byte) (addr : Addr)
    (h1 : t.err = s.err ||| causeBit e) (h2 : t.errInfo = if s.err = 0#8 then errorRecord e op arg addr else s.errInfo) :
    ErrorEffect s t := .inr ⟨e, op, arg, addr, h1, h2⟩

/-- The loop over `h` takes each meaning's answer apart into its cases, an idiom that serves any claim about all
operations. -/
theorem exec_errorEffect {i : Instr} {s t : State} (h : exec i s = .next t) :
    i = .reset ∨ (∃ v, i = .wrErr v) ∨ ErrorEffect s t := by
  cases i
  case reset => exact .inl rfl
  case wrErr v => exact .inr (.inl ⟨v, rfl⟩)
  all_goals
    refine .inr (.inr ?_)
    simp only [exec,
      execNop_next, execIllegal_next, execWrCmd_next, execClrFreq_next, execCount_next, execWrFreq_next,
      execBuild_next, execWrNodeSel_next, execGenCodes_next, execEncode_next, execRdCodeLow_next,
      execRdCodeMid_next, execRdCodeHigh_next, execDecStart_next, execDecChar_next, execDecEnd_next, execRdId_next,
      execRdCmd_next, execRdStatus_next, execRdErr_next, execRdErrInfo_next, execRdIrqEn_next, execRdRoot_next,
      execRdTotal_next, execRdDecCur_next, execRdNodeSel_next, execRdNodeFreq_next, execRdNodeRep_next,
      execRdNodeLink_next, execRdParam_next, execRdFreq_next, execRdUnmapped_next, execWrIrqEn_next,
      execWrBad_next] at h
    repeat' first
      | (refine Or.elim h ?_ ?_ <;> clear h <;> intro h)
      | (replace h := And.right h)
      | (refine Exists.elim h ?_; clear h; intro _ h)
    all_goals
      subst h
      first
        | exact .same rfl rfl
        | exact .new _ _ _ _ rfl rfl
        | exact .same (by simp) (by simp)

end Sys2Proof.Machine
end

