-- ==== Sys2Proof/Laws/Fields.lean ====
section
/-! SUPPORT. Words made of fields: each bit, and the word as a number. -/

namespace Sys2Proof

/-- Bit `i` of a placed field. -/
@[simp] theorem atBit_getLsbD {n : Nat} (lo : Nat) (v : BitVec n) (i : Nat) :
    (atBit lo v).getLsbD i = (decide (i < 32) && decide (lo ≤ i) && v.getLsbD (i - lo)) := by
  simp only [atBit, BitVec.getLsbD_shiftLeft, BitVec.getLsbD_setWidth]
  by_cases h1 : i < 32
  · have h3 : i - lo < 32 := by omega
    by_cases h2 : lo ≤ i <;> simp [h1, h2, h3]
  · simp [h1]

@[simp] theorem atBit_getElem {n : Nat} (lo : Nat) (v : BitVec n) (i : Nat) (h : i < 32) :
    (atBit lo v)[i] = (decide (lo ≤ i) && v.getLsbD (i - lo)) := by
  rw [← BitVec.getLsbD_eq_getElem, atBit_getLsbD]
  simp [h]

theorem atBit_zero_toNat {n : Nat} (v : BitVec n) (hn : n ≤ 32) : (atBit 0 v).toNat = v.toNat := by
  have h := Nat.lt_of_lt_of_le v.isLt (Nat.pow_le_pow_right (by omega) hn)
  simp [atBit, Nat.mod_eq_of_lt h]

/-- A field placed above a word that stays below it adds to it. -/
theorem atBit_or_toNat {n : Nat} (lo : Nat) (v : BitVec n) (x : Word) (hx : x.toNat < 2 ^ lo) (hn : lo + n ≤ 32) :
    (atBit lo v ||| x).toNat = 2 ^ lo * v.toNat + x.toNat := by
  have hv : v.toNat < 2 ^ (32 - lo) :=
    Nat.lt_of_lt_of_le v.isLt (Nat.pow_le_pow_right (by omega) (by omega))
  have hp : v.toNat * 2 ^ lo < 2 ^ 32 := by
    have := Nat.mul_lt_mul_of_pos_right hv (Nat.two_pow_pos lo)
    rwa [← pow_add, Nat.sub_add_cancel (by omega)] at this
  have hv' : v.toNat < 2 ^ 32 := Nat.lt_of_lt_of_le hv (Nat.pow_le_pow_right (by omega) (by omega))
  have h1 : (v.toNat % 2 ^ 32) <<< lo % 2 ^ 32 = v.toNat <<< lo := by
    rw [Nat.mod_eq_of_lt hv', Nat.shiftLeft_eq, Nat.mod_eq_of_lt hp]
  simp only [atBit, BitVec.toNat_or, BitVec.toNat_shiftLeft, BitVec.toNat_setWidth]
  rw [h1, ← Nat.shiftLeft_add_eq_or_of_lt hx, Nat.shiftLeft_eq, Nat.mul_comm]

/-- The command word as a number (30_encoding.md R82). -/
theorem commandWord_toNat (op : BitVec 4) (arg : Byte) :
    (commandWord op arg).toNat = op.toNat + 256 * arg.toNat := by
  unfold commandWord
  rw [atBit_or_toNat 8 arg _ (by rw [atBit_zero_toNat op (by omega)]; omega) (by omega),
    atBit_zero_toNat op (by omega)]
  omega

end Sys2Proof

namespace Sys2Proof.Machine

/-- The ERR_INFO word as a number (10_state.md R39). -/
theorem errorRecord_toNat (e : ErrorCause) (op : BitVec 4) (arg : Byte) (addr : Addr) :
    (errorRecord e op arg addr).toNat
      = (causeCode e).toNat + 16 * op.toNat + 256 * arg.toNat + 65536 * addr.toNat := by
  have h0 := atBit_zero_toNat (causeCode e) (by omega)
  have h1 := atBit_or_toNat 4 op (atBit 0 (causeCode e)) (by rw [h0]; omega) (by omega)
  have h2 := atBit_or_toNat 8 arg (atBit 4 op ||| atBit 0 (causeCode e)) (by rw [h1, h0]; omega) (by omega)
  have h3 := atBit_or_toNat 16 addr (atBit 8 arg ||| (atBit 4 op ||| atBit 0 (causeCode e)))
    (by rw [h2, h1, h0]; omega) (by omega)
  simp only [errorRecord, BitVec.or_assoc]
  rw [h3, h2, h1, h0]
  omega

/-- ERR_INFO with its fields as numbers (10_state.md R39). -/
theorem errorRecord_eq (e : ErrorCause) (op : BitVec 4) (arg : Byte) (addr : Addr) :
    errorRecord e op arg addr
      = BitVec.ofNat 32 ((causeCode e).toNat + 16 * op.toNat + 256 * arg.toNat + 65536 * addr.toNat) := by
  apply BitVec.eq_of_toNat_eq
  rw [errorRecord_toNat, BitVec.toNat_ofNat, Nat.mod_eq_of_lt]
  omega

end Sys2Proof.Machine
end

