-- ==== Sys2Proof/Laws/PerInstr.lean ====
section
/-! SUPPORT. One fact per constructor of Instr, about the instruction as syntax: the encoder's word or address selects
the instruction's own row of spec/opcode_table.json (30_encoding.md R82, R87). -/

namespace Sys2Proof.Laws.RowMatch

/-- The encoding is a command word that shows `pat` under `mask`. -/
def inCommandRow (mask pat : Word) : Encoding → Prop
  | .command w => w &&& mask = pat
  | _ => False

/-- The encoding is a write whose address shows `pat` under `mask`. -/
def inWriteRow (mask pat : Addr) : Encoding → Prop
  | .write a _ => a &&& mask = pat
  | _ => False

/-- The encoding is a read whose address shows `pat` under `mask`. -/
def inReadRow (mask pat : Addr) : Encoding → Prop
  | .read a => a &&& mask = pat
  | _ => False

/-- The encoding is an operation that no row of its kind but the catch-all one takes. -/
def inNoRow : Encoding → Prop
  | .command w => commandRows.any (selects w) = false
  | .write a _ => writeRows.any (selects a) = false
  | .read a => readRows.any (selects a) = false

/-- The row of each constructor, with the table's mask and match. -/
def Statement : Instr → Prop
  | .nop => inCommandRow 0xFFFFFFFF#32 0x00000000#32 (Sys2Proof.encode .nop)
  | .clrFreq => inCommandRow 0xFFFFFFFF#32 0x00000001#32 (Sys2Proof.encode .clrFreq)
  | .count sym => inCommandRow 0xFFFF00FF#32 0x00000002#32 (Sys2Proof.encode (.count sym))
  | .build => inCommandRow 0xFFFFFFFF#32 0x00000003#32 (Sys2Proof.encode .build)
  | .genCodes => inCommandRow 0xFFFFFFFF#32 0x00000004#32 (Sys2Proof.encode .genCodes)
  | .encode sym => inCommandRow 0xFFFF00FF#32 0x00000005#32 (Sys2Proof.encode (.encode sym))
  | .decStart => inCommandRow 0xFFFFFFFF#32 0x00000006#32 (Sys2Proof.encode .decStart)
  | .decChar chr => inCommandRow 0xFFFF00FF#32 0x00000007#32 (Sys2Proof.encode (.decChar chr))
  | .decEnd => inCommandRow 0xFFFFFFFF#32 0x00000008#32 (Sys2Proof.encode .decEnd)
  | .reset => inCommandRow 0xFFFFFFFF#32 0x0000000F#32 (Sys2Proof.encode .reset)
  | .illegal w => (Instr.illegal w).wellFormed = true → inNoRow (Sys2Proof.encode (.illegal w))
  | .wrCmd v => inWriteRow 0xFFFF#16 0x0004#16 (Sys2Proof.encode (.wrCmd v))
  | .wrErr v => inWriteRow 0xFFFF#16 0x000C#16 (Sys2Proof.encode (.wrErr v))
  | .wrIrqEn v => inWriteRow 0xFFFF#16 0x0014#16 (Sys2Proof.encode (.wrIrqEn v))
  | .wrNodeSel v => inWriteRow 0xFFFF#16 0x0024#16 (Sys2Proof.encode (.wrNodeSel v))
  | .wrFreq sym v => inWriteRow 0xFC03#16 0x0400#16 (Sys2Proof.encode (.wrFreq sym v))
  | .wrBad a v => (Instr.wrBad a v).wellFormed = true → inNoRow (Sys2Proof.encode (.wrBad a v))
  | .rdId => inReadRow 0xFFFF#16 0x0000#16 (Sys2Proof.encode .rdId)
  | .rdCmd => inReadRow 0xFFFF#16 0x0004#16 (Sys2Proof.encode .rdCmd)
  | .rdStatus => inReadRow 0xFFFF#16 0x0008#16 (Sys2Proof.encode .rdStatus)
  | .rdErr => inReadRow 0xFFFF#16 0x000C#16 (Sys2Proof.encode .rdErr)
  | .rdErrInfo => inReadRow 0xFFFF#16 0x0010#16 (Sys2Proof.encode .rdErrInfo)
  | .rdIrqEn => inReadRow 0xFFFF#16 0x0014#16 (Sys2Proof.encode .rdIrqEn)
  | .rdRoot => inReadRow 0xFFFF#16 0x0018#16 (Sys2Proof.encode .rdRoot)
  | .rdTotal => inReadRow 0xFFFF#16 0x001C#16 (Sys2Proof.encode .rdTotal)
  | .rdDecCur => inReadRow 0xFFFF#16 0x0020#16 (Sys2Proof.encode .rdDecCur)
  | .rdNodeSel => inReadRow 0xFFFF#16 0x0024#16 (Sys2Proof.encode .rdNodeSel)
  | .rdNodeFreq => inReadRow 0xFFFF#16 0x0028#16 (Sys2Proof.encode .rdNodeFreq)
  | .rdNodeRep => inReadRow 0xFFFF#16 0x002C#16 (Sys2Proof.encode .rdNodeRep)
  | .rdNodeLink => inReadRow 0xFFFF#16 0x0030#16 (Sys2Proof.encode .rdNodeLink)
  | .rdParam => inReadRow 0xFFFF#16 0x0034#16 (Sys2Proof.encode .rdParam)
  | .rdFreq sym => inReadRow 0xFC03#16 0x0400#16 (Sys2Proof.encode (.rdFreq sym))
  | .rdCodeLow part idx => inReadRow 0xF003#16 0x1000#16 (Sys2Proof.encode (.rdCodeLow part idx))
  | .rdCodeMid part idx => inReadRow 0xE003#16 0x2000#16 (Sys2Proof.encode (.rdCodeMid part idx))
  | .rdCodeHigh part idx => inReadRow 0xF003#16 0x4000#16 (Sys2Proof.encode (.rdCodeHigh part idx))
  | .rdUnmapped a => (Instr.rdUnmapped a).wellFormed = true → inNoRow (Sys2Proof.encode (.rdUnmapped a))

/-! ## Addresses and words as appended fields -/

theorem commandWord_masked : ∀ arg : Byte, ∀ op : BitVec 4,
    commandWord op arg &&& 0xFFFF00FF#32 = op.setWidth 32 := by decide +kernel

theorem freqAddr_masked : ∀ sym : Byte, freqAddr sym &&& 0xFC03#16 = 0x0400#16 := by decide +kernel

theorem codeAddr_low : ∀ (part : BitVec 6) (idx : BitVec 4),
    codeAddr (codeSymbol 0#8 part) idx &&& 0xF003#16 = 0x1000#16 := by decide +kernel

theorem codeAddr_mid : ∀ (part : BitVec 7) (idx : BitVec 4),
    codeAddr (codeSymbol 64#8 part) idx &&& 0xE003#16 = 0x2000#16 := by decide +kernel

theorem codeAddr_high : ∀ (part : BitVec 6) (idx : BitVec 4),
    codeAddr (codeSymbol 192#8 part) idx &&& 0xF003#16 = 0x4000#16 := by decide +kernel

/-! ## One lemma per constructor -/

theorem nop : Statement .nop := rfl
theorem clrFreq : Statement .clrFreq := rfl
theorem count (sym : Byte) : Statement (.count sym) := commandWord_masked sym 0x2#4
theorem build : Statement .build := rfl
theorem genCodes : Statement .genCodes := rfl
theorem encode (sym : Byte) : Statement (.encode sym) := commandWord_masked sym 0x5#4
theorem decStart : Statement .decStart := rfl
theorem decChar (chr : Byte) : Statement (.decChar chr) := commandWord_masked chr 0x7#4
theorem decEnd : Statement .decEnd := rfl
theorem reset : Statement .reset := rfl
theorem illegal (w : Word) : Statement (.illegal w) := fun h => by
  simpa [Instr.wellFormed, inNoRow, Sys2Proof.encode] using h
theorem wrCmd (v : Word) : Statement (.wrCmd v) := rfl
theorem wrErr (v : Word) : Statement (.wrErr v) := rfl
theorem wrIrqEn (v : Word) : Statement (.wrIrqEn v) := rfl
theorem wrNodeSel (v : Word) : Statement (.wrNodeSel v) := rfl
theorem wrFreq (sym : Byte) (v : Word) : Statement (.wrFreq sym v) := freqAddr_masked sym
theorem wrBad (a : Addr) (v : Word) : Statement (.wrBad a v) := fun h => by
  simpa [Instr.wellFormed, inNoRow, Sys2Proof.encode] using h
theorem rdId : Statement .rdId := rfl
theorem rdCmd : Statement .rdCmd := rfl
theorem rdStatus : Statement .rdStatus := rfl
theorem rdErr : Statement .rdErr := rfl
theorem rdErrInfo : Statement .rdErrInfo := rfl
theorem rdIrqEn : Statement .rdIrqEn := rfl
theorem rdRoot : Statement .rdRoot := rfl
theorem rdTotal : Statement .rdTotal := rfl
theorem rdDecCur : Statement .rdDecCur := rfl
theorem rdNodeSel : Statement .rdNodeSel := rfl
theorem rdNodeFreq : Statement .rdNodeFreq := rfl
theorem rdNodeRep : Statement .rdNodeRep := rfl
theorem rdNodeLink : Statement .rdNodeLink := rfl
theorem rdParam : Statement .rdParam := rfl
theorem rdFreq (sym : Byte) : Statement (.rdFreq sym) := freqAddr_masked sym
theorem rdCodeLow (part : BitVec 6) (idx : BitVec 4) : Statement (.rdCodeLow part idx) := codeAddr_low part idx
theorem rdCodeMid (part : BitVec 7) (idx : BitVec 4) : Statement (.rdCodeMid part idx) := codeAddr_mid part idx
theorem rdCodeHigh (part : BitVec 6) (idx : BitVec 4) : Statement (.rdCodeHigh part idx) := codeAddr_high part idx
theorem rdUnmapped (a : Addr) : Statement (.rdUnmapped a) := fun h => by
  simpa [Instr.wellFormed, inNoRow, Sys2Proof.encode] using h

end Sys2Proof.Laws.RowMatch
end

