-- ==== Sys2Proof/Laws/Step.lean ====
section
/-! SUPPORT. What one step can be: the inversion of `step` into an operation run by `exec`, a hardware reset, a change
of the consumer, or idling. -/

namespace Sys2Proof.Machine

theorem engineStep_none {s : State} (h : s.pending = none) : engineStep s = .next s := by
  simp [engineStep, h]

theorem engineStep_some {s : State} {w : Word} (h : s.pending = some w) :
    engineStep s = exec (decodeCommand w) s := by
  simp [engineStep, h, decode]

/-- The Engine completes the pending word or idles. -/
theorem engineStep_next {s u : State} (h : engineStep s = .next u) :
    (s.pending = none ∧ u = s) ∨ ∃ w, s.pending = some w ∧ exec (decodeCommand w) s = .next u := by
  cases hp : s.pending with
  | none =>
    rw [engineStep_none hp] at h
    exact .inl ⟨rfl, by simpa [eq_comm] using h⟩
  | some w => exact .inr ⟨w, rfl, by rw [← engineStep_some hp]; exact h⟩

/-- Abandoning the pending command appends some bytes to each stream, draws, and empties PENDING; nothing else. -/
theorem State.abandon_eq (s : State) :
    ∃ (a b : List Byte) (d : Nat), s.abandon
      = { s with encOut := s.encOut ++ a, decOut := s.decOut ++ b, draws := d, pending := none } := by
  unfold State.abandon
  split
  · exact ⟨_, _, _, rfl⟩
  · rename_i h
    have hp : s.pending = none := by simpa [State.busy] using h
    exact ⟨[], [], s.draws, by simp [← hp]⟩

/-- Everything a step can do. `r` is the list of acts left after it. -/
theorem step_next {s u : State} (h : step s = .next u) :
    ∃ r : List Event,
      (s.pending = none ∧ u = { s with events := r }) ∨
      (∃ i, exec i { s with events := r } = .next u) ∨
      (u = ({ s with events := r } : State).abandon.clearRegisters) ∨
      (∃ enc dec, u = { s with events := r, encReady := enc, decReady := dec }) := by
  have engine : ∀ t : State, engineStep t = .next u → (t.pending = none ∧ u = t) ∨ ∃ i, exec i t = .next u :=
    fun t ht => (engineStep_next ht).imp_right fun ⟨w, _, hw⟩ => ⟨_, hw⟩
  unfold step nextAct at h
  split at h
  · rename_i he
    have hs : ({ s with events := [] } : State) = s := by rw [← he]
    refine ⟨[], ?_⟩
    rw [hs]
    rcases engine s h with h' | h'
    · exact .inl h'
    · exact .inr (.inl h')
  · rename_i e rest he
    refine ⟨rest, ?_⟩
    cases e with
    | read a => exact .inr (.inl ⟨_, h⟩)
    | write a v => exact .inr (.inl ⟨_, h⟩)
    | engine =>
      rcases engine _ h with h' | h'
      · exact .inl h'
      · exact .inr (.inl h')
    | hardReset => exact .inr (.inr (.inl (by simpa [perform, hardwareReset, eq_comm] using h)))
    | consumer enc dec => exact .inr (.inr (.inr ⟨enc, dec, by simpa [perform, eq_comm] using h⟩))

end Sys2Proof.Machine
end

