-- ==== Sys2Proof/Laws/Table.lean ====
section
/-! SUPPORT. The laws of the arrays: a read after a write, the canonical form, and that it makes equal arrays equal
lists. -/

namespace Sys2Proof.Machine

variable {α : Type}

@[simp] theorem Table.get_nil (d : α) (k : Nat) : Table.get d [] k = d := rfl

theorem Table.get_cons (d : α) (j k : Nat) (v : α) (t : Table α) :
    Table.get d ((j, v) :: t) k = if j = k then v else Table.get d t k := rfl

theorem Table.get_erase_self (d : α) (t : Table α) (k : Nat) : Table.get d (Table.erase t k) k = d := by
  induction t with
  | nil => rfl
  | cons p t ih =>
    obtain ⟨j, v⟩ := p
    by_cases h : j = k <;> simp [Table.erase, Table.get_cons, h, ih]

theorem Table.get_erase_other (d : α) (t : Table α) {k x : Nat} (hx : x ≠ k) :
    Table.get d (Table.erase t k) x = Table.get d t x := by
  induction t with
  | nil => rfl
  | cons p t ih =>
    obtain ⟨j, v⟩ := p
    by_cases h : j = k
    · subst h
      simp [Table.erase, Table.get_cons, ih, Ne.symm hx]
    · simp [Table.erase, Table.get_cons, h, ih]

theorem Table.get_place_other (d : α) (t : Table α) {k x : Nat} (v : α) (hx : x ≠ k) :
    Table.get d (Table.place t k v) x = Table.get d t x := by
  induction t with
  | nil => simp [Table.place, Table.get_cons, Ne.symm hx]
  | cons p t ih =>
    obtain ⟨j, u⟩ := p
    by_cases h : k < j <;> simp [Table.place, Table.get_cons, h, ih, Ne.symm hx]

theorem Table.get_place_erase_self (d : α) (t : Table α) (k : Nat) (v : α) :
    Table.get d (Table.place (Table.erase t k) k v) k = v := by
  induction t with
  | nil => simp [Table.erase, Table.place, Table.get_cons]
  | cons p t ih =>
    obtain ⟨j, u⟩ := p
    by_cases h : j = k
    · simpa [Table.erase, h] using ih
    · by_cases hlt : k < j <;> simp [Table.erase, Table.place, Table.get_cons, h, hlt, ih]

theorem Table.erase_ne (t : Table α) (k : Nat) : ∀ p ∈ Table.erase t k, p.1 ≠ k := by
  induction t with
  | nil => simp [Table.erase]
  | cons q t ih =>
    obtain ⟨j, v⟩ := q
    by_cases h : j = k
    · simpa [Table.erase, h] using ih
    · intro p hp
      simp only [Table.erase, h, if_false, List.mem_cons] at hp
      rcases hp with rfl | hp
      · exact h
      · exact ih p hp

theorem Table.mem_erase {t : Table α} {k : Nat} {p : Nat × α} (h : p ∈ Table.erase t k) : p ∈ t := by
  induction t with
  | nil => exact h
  | cons q t ih =>
    obtain ⟨j, u⟩ := q
    by_cases hj : j = k
    · exact .tail _ (ih (by simpa [Table.erase, hj] using h))
    · simp only [Table.erase, hj, if_false, List.mem_cons] at h
      exact List.mem_cons.2 (h.imp_right ih)

theorem Table.mem_place {t : Table α} {k : Nat} {v : α} {p : Nat × α} (h : p ∈ Table.place t k v) :
    p = (k, v) ∨ p ∈ t := by
  induction t with
  | nil => exact .inl (by simpa [Table.place] using h)
  | cons q t ih =>
    obtain ⟨j, u⟩ := q
    by_cases hj : k < j
    · simpa [Table.place, hj] using h
    · simp only [Table.place, hj, if_false, List.mem_cons] at h ⊢
      exact h.elim (fun h => .inr (.inl h)) fun h => (ih h).imp_right .inr

variable [DecidableEq α]

/-- A read after a write of the same index gives the value written. -/
@[simp] theorem Table.get_set_self (d : α) (t : Table α) (k : Nat) (v : α) :
    Table.get d (Table.set d t k v) k = v := by
  unfold Table.set
  split
  · rename_i h
    rw [Table.get_erase_self, h]
  · exact Table.get_place_erase_self d t k v

/-- A write leaves every other index alone. -/
theorem Table.get_set_other (d : α) (t : Table α) {k x : Nat} (v : α) (hx : x ≠ k) :
    Table.get d (Table.set d t k v) x = Table.get d t x := by
  unfold Table.set
  split
  · exact Table.get_erase_other d t hx
  · rw [Table.get_place_other d _ v hx, Table.get_erase_other d t hx]

theorem Table.get_set (d : α) (t : Table α) (k x : Nat) (v : α) :
    Table.get d (Table.set d t k v) x = if x = k then v else Table.get d t x := by
  by_cases h : x = k
  · simp [h]
  · simp [h, Table.get_set_other]

/-- An entry after a write is the one written or was there before, so a bound on every value is kept. -/
theorem Table.mem_set {d : α} {t : Table α} {k : Nat} {v : α} {p : Nat × α} (h : p ∈ Table.set d t k v) :
    p = (k, v) ∨ p ∈ t := by
  unfold Table.set at h
  split at h
  · exact .inr (Table.mem_erase h)
  · exact (Table.mem_place h).imp_right Table.mem_erase

/-! ## The canonical form -/

theorem Table.wfFrom_cons (d : α) (bound lo k : Nat) (v : α) (t : Table α) :
    Table.wfFrom d bound lo ((k, v) :: t) = true ↔
      lo ≤ k ∧ k < bound ∧ v ≠ d ∧ Table.wfFrom d bound (k + 1) t = true := by
  simp [Table.wfFrom, and_assoc]

theorem Table.wfFrom_mono (d : α) (bound : Nat) {lo lo' : Nat} (h : lo' ≤ lo) (t : Table α)
    (ht : Table.wfFrom d bound lo t = true) : Table.wfFrom d bound lo' t = true := by
  cases t with
  | nil => rfl
  | cons p t =>
    rw [Table.wfFrom_cons] at ht ⊢
    exact ⟨le_trans h ht.1, ht.2⟩

theorem Table.wfFrom_erase (d : α) (bound k : Nat) :
    ∀ (lo : Nat) (t : Table α), Table.wfFrom d bound lo t = true →
      Table.wfFrom d bound lo (Table.erase t k) = true
  | _, [], _ => rfl
  | lo, (j, v) :: t, h => by
    rw [Table.wfFrom_cons] at h
    have ih := Table.wfFrom_erase d bound k (j + 1) t h.2.2.2
    by_cases hj : j = k
    · simp only [Table.erase, hj, if_true]
      exact Table.wfFrom_mono d bound (Nat.le_succ_of_le h.1) _ (hj ▸ ih)
    · simp only [Table.erase, hj, if_false]
      rw [Table.wfFrom_cons]
      exact ⟨h.1, h.2.1, h.2.2.1, ih⟩

theorem Table.wfFrom_place (d : α) {bound k : Nat} {v : α} (hk : k < bound) (hv : v ≠ d) :
    ∀ (lo : Nat) (t : Table α), lo ≤ k → Table.wfFrom d bound lo t = true → (∀ p ∈ t, p.1 ≠ k) →
      Table.wfFrom d bound lo (Table.place t k v) = true
  | lo, [], hlo, _, _ => by simp [Table.place, Table.wfFrom, hlo, hk, hv]
  | lo, (j, u) :: t, hlo, h, hne => by
    rw [Table.wfFrom_cons] at h
    have hjk : j ≠ k := hne (j, u) (by simp)
    by_cases hlt : k < j
    · simp only [Table.place, hlt, if_true, Table.wfFrom_cons]
      exact ⟨hlo, hk, hv, hlt, h.2⟩
    · simp only [Table.place, hlt, if_false, Table.wfFrom_cons]
      exact ⟨h.1, h.2.1, h.2.2.1, Table.wfFrom_place d hk hv (j + 1) t (by omega) h.2.2.2
        fun p hp => hne p (by simp [hp])⟩

/-- A write inside the bound keeps the canonical form. -/
theorem Table.wf_set (d : α) {bound k : Nat} (t : Table α) (v : α) (hk : k < bound)
    (ht : Table.wf d bound t = true) : Table.wf d bound (Table.set d t k v) = true := by
  unfold Table.wf at *
  have he := Table.wfFrom_erase d bound k 0 t ht
  unfold Table.set
  split
  · exact he
  · rename_i hv
    exact Table.wfFrom_place d hk hv 0 _ (Nat.zero_le k) he (Table.erase_ne t k)

theorem Table.get_of_wfFrom_lt (d : α) (bound : Nat) :
    ∀ (lo : Nat) (t : Table α), Table.wfFrom d bound lo t = true → ∀ k < lo, Table.get d t k = d
  | _, [], _, _, _ => rfl
  | lo, (j, v) :: t, h, k, hk => by
    rw [Table.wfFrom_cons] at h
    rw [Table.get_cons, if_neg (by omega)]
    exact Table.get_of_wfFrom_lt d bound (j + 1) t h.2.2.2 k (by omega)

theorem Table.ext_from (d : α) (bound : Nat) :
    ∀ (lo lo' : Nat) (t u : Table α), Table.wfFrom d bound lo t = true → Table.wfFrom d bound lo' u = true →
      (∀ k, Table.get d t k = Table.get d u k) → t = u
  | _, _, [], [], _, _, _ => rfl
  | _, _, [], (j, v) :: u, _, hu, h => by
    rw [Table.wfFrom_cons] at hu
    exact absurd (h j).symm (by simpa [Table.get_cons] using hu.2.2.1)
  | _, _, (j, v) :: t, [], ht, _, h => by
    rw [Table.wfFrom_cons] at ht
    exact absurd (h j) (by simpa [Table.get_cons] using ht.2.2.1)
  | _, _, (j, v) :: t, (i, w) :: u, ht, hu, h => by
    rw [Table.wfFrom_cons] at ht hu
    have hji : j = i := by
      rcases Nat.lt_trichotomy j i with hlt | heq | hgt
      · have := h j
        rw [Table.get_cons, if_pos rfl, Table.get_cons, if_neg (by omega),
          Table.get_of_wfFrom_lt d bound (i + 1) u hu.2.2.2 j (by omega)] at this
        exact absurd this ht.2.2.1
      · exact heq
      · have := h i
        rw [Table.get_cons, if_neg (by omega), Table.get_cons, if_pos rfl,
          Table.get_of_wfFrom_lt d bound (j + 1) t ht.2.2.2 i (by omega)] at this
        exact absurd this.symm hu.2.2.1
    subst hji
    have hv : v = w := by simpa [Table.get_cons] using h j
    have htu : t = u := Table.ext_from d bound (j + 1) (j + 1) t u ht.2.2.2 hu.2.2.2 fun k => by
      by_cases hk : j = k
      · subst hk
        rw [Table.get_of_wfFrom_lt d bound (j + 1) t ht.2.2.2 j (by omega),
          Table.get_of_wfFrom_lt d bound (j + 1) u hu.2.2.2 j (by omega)]
      · simpa [Table.get_cons, hk] using h k
    rw [hv, htu]

/-- Arrays in canonical form that read alike are the same list. -/
theorem Table.ext_of_wf (d : α) {bound : Nat} {t u : Table α} (ht : Table.wf d bound t = true)
    (hu : Table.wf d bound u = true) (h : ∀ k, Table.get d t k = Table.get d u k) : t = u :=
  Table.ext_from d bound 0 0 t u ht hu h

/-! ## FREQ and CODE as arrays of symbols -/

/-- FREQ[y] after `FREQ[x] <- v`. -/
theorem State.freqAt_setFreq (s : State) (x y : Byte) (v : Word) :
    (s.setFreq x v).freqAt y = if y = x then v else s.freqAt y := by
  simp only [State.freqAt, State.setFreq, freqOf, Table.get_set]
  by_cases h : y = x
  · simp [h]
  · simp [h, BitVec.toNat_inj]

end Sys2Proof.Machine
end

