-- ==== Sys2Proof/Laws/Tree.lean ====
section
/-! SUPPORT. What the parts of BUILD can do: insertion and sorting permute, and a merge loop writes only records from
its own index on, keeps the arena's canonical form, and leaves at most one node. -/

namespace Sys2Proof.Machine

theorem insertNode_perm (f : Table Word) (n : Table Inode) (m : NodeIx) (q : List NodeIx) :
    (insertNode f n m q).Perm (m :: q) := by
  induction q with
  | nil => exact .refl _
  | cons a q ih =>
    unfold insertNode
    split
    · exact (ih.cons a).trans (.swap m a q)
    · exact .refl _

@[simp] theorem insertNode_length (f : Table Word) (n : Table Inode) (m : NodeIx) (q : List NodeIx) :
    (insertNode f n m q).length = q.length + 1 := (insertNode_perm f n m q).length_eq

theorem sortNodes_perm (f : Table Word) (n : Table Inode) (q : List NodeIx) : (sortNodes f n q).Perm q := by
  induction q with
  | nil => exact .refl _
  | cons a q ih => exact (insertNode_perm f n a _).trans (ih.cons a)

@[simp] theorem sortNodes_length (f : Table Word) (n : Table Inode) (q : List NodeIx) :
    (sortNodes f n q).length = q.length := (sortNodes_perm f n q).length_eq

/-- INODE[j] after `INODE[k] <- r`. -/
theorem inodeOf_setInode (n : Table Inode) (k j : Nat) (r : Inode) :
    inodeOf (setInode n k r) j = if j = k then r else inodeOf n j := Table.get_set _ _ _ _ _

/-- One round of the merge loop. -/
theorem mergeLoop_step (f : Table Word) (rounds k : Nat) (n : Table Inode) (a b : NodeIx) (q : List NodeIx) :
    mergeLoop f (rounds + 1) k n (a :: b :: q)
      = mergeLoop f rounds (k + 1) (setInode n k (mergeRecord f n a b))
          (insertNode f (setInode n k (mergeRecord f n a b)) (internalIx k) q) := rfl

/-- A merge loop that starts at record `k` leaves the records before it. -/
theorem mergeLoop_below (f : Table Word) : ∀ (rounds k : Nat) (n : Table Inode) (q : List NodeIx) (j : Nat), j < k →
    inodeOf (mergeLoop f rounds k n q).1 j = inodeOf n j
  | 0, _, _, _, _, _ => rfl
  | _ + 1, _, _, [], _, _ => rfl
  | _ + 1, _, _, [_], _, _ => rfl
  | rounds + 1, k, n, a :: b :: q, j, hj => by
    rw [mergeLoop_step, mergeLoop_below f rounds (k + 1) _ _ j (by omega), inodeOf_setInode, if_neg (by omega)]

/-- A merge loop of `q.length - 1` merges from record `k` on leaves the records after its last one. -/
theorem mergeLoop_above (f : Table Word) : ∀ (rounds k : Nat) (n : Table Inode) (q : List NodeIx) (j : Nat),
    k + q.length ≤ j + 1 → inodeOf (mergeLoop f rounds k n q).1 j = inodeOf n j
  | 0, _, _, _, _, _ => rfl
  | _ + 1, _, _, [], _, _ => rfl
  | _ + 1, _, _, [_], _, _ => rfl
  | rounds + 1, k, n, a :: b :: q, j, hj => by
    simp only [List.length_cons] at hj
    rw [mergeLoop_step, mergeLoop_above f rounds (k + 1) _ _ j (by simp; omega), inodeOf_setInode,
      if_neg (by omega)]

/-- With a round for each node of a non-empty queue, one node is left. -/
theorem mergeLoop_queue_length (f : Table Word) : ∀ (rounds k : Nat) (n : Table Inode) (q : List NodeIx),
    q.length ≤ rounds → q ≠ [] → (mergeLoop f rounds k n q).2.length = 1
  | 0, _, _, [], _, hq => absurd rfl hq
  | 0, _, _, _ :: _, hr, _ => by simp at hr
  | _ + 1, _, _, [], _, hq => absurd rfl hq
  | _ + 1, _, _, [_], _, _ => rfl
  | rounds + 1, k, n, a :: b :: q, hr, _ => by
    simp only [List.length_cons] at hr
    rw [mergeLoop_step]
    refine mergeLoop_queue_length f rounds (k + 1) _ _ (by simp; omega) fun h => ?_
    have := congrArg List.length h
    simp at this

/-- A merge loop that stays inside the arena keeps its canonical form. -/
theorem mergeLoop_wf (f : Table Word) {bound : Nat} : ∀ (rounds k : Nat) (n : Table Inode) (q : List NodeIx),
    k + q.length ≤ bound + 1 → Table.wf Inode.unwritten bound n = true →
      Table.wf Inode.unwritten bound (mergeLoop f rounds k n q).1 = true
  | 0, _, _, _, _, h => h
  | _ + 1, _, _, [], _, h => h
  | _ + 1, _, _, [_], _, h => h
  | rounds + 1, k, n, a :: b :: q, hk, h => by
    simp only [List.length_cons] at hk
    rw [mergeLoop_step]
    exact mergeLoop_wf f rounds (k + 1) _ _ (by simp; omega) (Table.wf_set _ _ _ (by omega) h)

/-- There are 256 symbols, and so at most 256 leaves. -/
theorem leafList_length_le (f : Table Word) : (leafList f).length ≤ 256 := by
  unfold leafList symbols
  rw [List.length_map]
  exact (List.length_filter_le _ _).trans (by simp)

end Sys2Proof.Machine
end

