-- ==== Sys2Proof/Tests/Slice0.lean ====
section
/-! SUPPORT. Tests of single operations, each expected result taken from spec/95_test_vectors.md (its vector named) or
worked by hand from the rule named, and a witness for the hypotheses of every obligation that has any. -/

namespace Sys2Proof.Tests

open Sys2Proof Sys2Proof.Machine

set_option Elab.async false

/-! ## Helpers -/

/-- The next state an outcome answers, if it answers one. -/
def nextOf : Host.Outcome State Fault Refusal → Option State
  | .next t => some t
  | _ => none

/-- The reset state with counters as listed. -/
def counted (l : List (Byte × Word)) : State := l.foldl (fun s p => s.setFreq p.1 p.2) State.reset

/-- The state after operations, or the reset state should one stop. -/
def after (is : List Instr) (s : State) : State := (nextOf (execAll is s)).getD State.reset

/-- ERR and ERR_INFO after operations. -/
def errorOf (is : List Instr) (s : State) : BitVec 8 × Word := ((after is s).err, (after is s).errInfo)

/-- The table of vector V-B6, built and coded. -/
def five : State := counted [(97#8, 2#32), (98#8, 4#32), (99#8, 8#32), (100#8, 16#32), (102#8, 2#32)]
def fiveBuilt : State := after [.build] five
def fiveCoded : State := after [.build, .genCodes] five
def fiveWalk : State := after [.build, .genCodes, .decStart] five

/-- The table of vector V-B3, as BUILD and GEN_CODES leave it, with an open bracket. -/
def pair : State := counted [(2#8, 3#32), (5#8, 3#32)]
def pairWalk : State := { pair with
  inode := [(0, { freq := 6#32, rep := 2#8, left := 2#9, right := 5#9 })]
  treeState := .multi, nsym := 2#9, root := 0x100#9, total := 6#32, codesValid := true
  code := [(2, { valid := true, len := 1#8, bits := 0#256 }), (5, { valid := true, len := 1#8, bits := 1#256 })]
  decState := .active, cur := 0x100#9 }

/-- The table of vector V-B2. -/
def single : State := counted [(120#8, 5#32)]
def singleCoded : State := after [.build, .genCodes] single
def singleWalk : State := after [.build, .decStart] single

/-- One counter, at its largest value. -/
def oneSymbol : State := counted [(120#8, 0xFFFFFFFF#32)]

/-- The tree of vector V-B1. -/
def emptyWalk : State := after [.build, .decStart] State.reset

/-- The reset state with a word in PENDING. -/
def pendingWord (w : Word) : State := { State.reset with pending := some w }

/-! ## Ill-formed terms are refused -/

theorem test_illegal_refuses_nop : (Instr.illegal 0x00000000#32).wellFormed = false := by decide
theorem test_wrBad_refuses_cmd : (Instr.wrBad 0x0004#16 0#32).wellFormed = false := by decide
theorem test_rdUnmapped_refuses_id : (Instr.rdUnmapped 0x0000#16).wellFormed = false := by decide

/-! ## Decoding: words written out from 30_encoding.md R80, R82, R87 -/

theorem test_decode_commands :
    decode (.command 0b00000000000000000000000000000000#32) = .nop ∧
    decode (.command 0b00000000000000000000000000000001#32) = .clrFreq ∧
    decode (.command 0b00000000000000000110000100000010#32) = .count 0x61#8 ∧
    decode (.command 0b00000000000000000000000000000011#32) = .build ∧
    decode (.command 0b00000000000000000000000000000100#32) = .genCodes ∧
    decode (.command 0b00000000000000000110011000000101#32) = .encode 0x66#8 ∧
    decode (.command 0b00000000000000000000000000000110#32) = .decStart ∧
    decode (.command 0b00000000000000000011000000000111#32) = .decChar 0x30#8 ∧
    decode (.command 0b00000000000000000011000100000111#32) = .decChar 0x31#8 ∧
    decode (.command 0b00000000000000000000000000001000#32) = .decEnd ∧
    decode (.command 0b00000000000000000000000000001111#32) = .reset := by decide

/-- Vectors V-E14 to V-E20. -/
theorem test_decode_illegal :
    decode (.command 0x00000009#32) = .illegal 0x00000009#32 ∧
    decode (.command 0x0000000E#32) = .illegal 0x0000000E#32 ∧
    decode (.command 0x00000103#32) = .illegal 0x00000103#32 ∧
    decode (.command 0x00000010#32) = .illegal 0x00000010#32 ∧
    decode (.command 0x00016102#32) = .illegal 0x00016102#32 ∧
    decode (.command 0x0000010F#32) = .illegal 0x0000010F#32 ∧
    decode (.command 0x80000000#32) = .illegal 0x80000000#32 := by decide

theorem test_decode_writes :
    decode (.write 0b0000000000000100#16 9#32) = .wrCmd 9#32 ∧
    decode (.write 0b0000000000001100#16 9#32) = .wrErr 9#32 ∧
    decode (.write 0b0000000000010100#16 9#32) = .wrIrqEn 9#32 ∧
    decode (.write 0b0000000000100100#16 9#32) = .wrNodeSel 9#32 ∧
    decode (.write 0b0000010110000100#16 9#32) = .wrFreq 0x61#8 9#32 ∧
    decode (.write 0b0000011111111100#16 9#32) = .wrFreq 0xFF#8 9#32 ∧
    decode (.write 0b0000010000000010#16 9#32) = .wrBad 0x0402#16 9#32 ∧
    decode (.write 0b0000000000001000#16 9#32) = .wrBad 0x0008#16 9#32 := by decide

theorem test_decode_register_reads :
    decode (.read 0b0000000000000000#16) = .rdId ∧ decode (.read 0b0000000000000100#16) = .rdCmd ∧
    decode (.read 0b0000000000001000#16) = .rdStatus ∧ decode (.read 0b0000000000001100#16) = .rdErr ∧
    decode (.read 0b0000000000010000#16) = .rdErrInfo ∧ decode (.read 0b0000000000010100#16) = .rdIrqEn ∧
    decode (.read 0b0000000000011000#16) = .rdRoot ∧ decode (.read 0b0000000000011100#16) = .rdTotal ∧
    decode (.read 0b0000000000100000#16) = .rdDecCur ∧ decode (.read 0b0000000000100100#16) = .rdNodeSel ∧
    decode (.read 0b0000000000101000#16) = .rdNodeFreq ∧ decode (.read 0b0000000000101100#16) = .rdNodeRep ∧
    decode (.read 0b0000000000110000#16) = .rdNodeLink ∧ decode (.read 0b0000000000110100#16) = .rdParam := by decide

theorem test_decode_window_reads :
    decode (.read 0b0000010111100000#16) = .rdFreq 0x78#8 ∧
    decode (.read 0b0001000000000000#16) = .rdCodeLow 0#6 0#4 ∧
    decode (.read 0b0001111111111100#16) = .rdCodeLow 63#6 15#4 ∧
    decode (.read 0b0010000000000100#16) = .rdCodeMid 0#7 1#4 ∧
    decode (.read 0b0011111111111100#16) = .rdCodeMid 127#7 15#4 ∧
    decode (.read 0b0100000000000100#16) = .rdCodeHigh 0#6 1#4 ∧
    decode (.read 0b0100111111111100#16) = .rdCodeHigh 63#6 15#4 ∧
    decode (.read 0b0101000000000000#16) = .rdUnmapped 0x5000#16 ∧
    decode (.read 0b0000000000000001#16) = .rdUnmapped 0x0001#16 := by decide

/-- Table words: a command, an address only a read names, and one a write names too (log entry 11). -/
theorem test_table_words :
    decodeTableWord 32 0x00006102 = some (.count 0x61#8) ∧ decodeTableWord 16 0x0030 = some .rdNodeLink ∧
    decodeTableWord 16 0x0004 = some (.wrCmd 0#32) ∧ decodeTableWord 8 0 = none := by decide

/-- The first step after placing a table word runs it (log entry 12): ILLEGAL, and the read of ID. -/
theorem test_placed_word_runs :
    (nextOf (step (State.reset.withFetchWord 32 0x00000009))).map (fun t => (t.err, t.errInfo))
      = some (0x01#8, 0x00040091#32) ∧
    (nextOf (step (State.reset.withFetchWord 16 0x0000))).map State.reads = some [0x48554631#32] := by
  decide +kernel

/-! ## Commands -/

/-- V-C2. -/
theorem test_nop : nextOf (exec .nop (pendingWord 0#32)) = some State.reset := by decide +kernel

/-- V-C7: RESET clears the tree, the codes, FREQ; the streams stay. -/
theorem test_reset :
    let t := after [.encode 100#8, .reset] fiveCoded
    (t.treeState, t.freq, t.root, t.cur, t.codesValid, t.encOut)
      = (.none, [], 0x1FF#9, 0x1FF#9, false, [0x31#8]) := by decide +kernel

/-- V-C4 and V-C6: the record of the first error is kept. -/
theorem test_illegal :
    (after [.illegal 0x00000103#32] State.reset).errInfo = 0x00040131#32 ∧
    errorOf [.illegal 0x0000000A#32] { State.reset with err := 0x20#8, errInfo := 0x00040086#32 }
      = (0x21#8, 0x00040086#32) := by decide +kernel

/-- V-F3. -/
theorem test_clrFreq :
    let t := after [.clrFreq] fiveCoded
    (t.freq, t.statusWord, t.codeWindowWord 97#8 0#4) = ([], 0#32, 0#32) := by decide +kernel

/-- V-F7: the last count below the largest value. -/
theorem test_count_to_largest :
    let t := after [.count 0#8] (counted [(0#8, 0xFFFFFFFE#32)])
    (t.freqAt 0#8, t.err) = (0xFFFFFFFF#32, 0#8) := by decide +kernel

/-- V-F6. -/
theorem test_count_overflow :
    let t := after [.count 0x41#8] (counted [(0x41#8, 0xFFFFFFFF#32)])
    (t.freqAt 0x41#8, t.err, t.errInfo) = (0xFFFFFFFF#32, 0x04#8, 0x00044123#32) := by decide +kernel

/-- V-B6. -/
theorem test_build_five :
    (fiveBuilt.statusWord, fiveBuilt.root, fiveBuilt.total) = (0x00000506#32, 0x103#9, 32#32) ∧
    fiveBuilt.inode = [
      (0, { freq := 4#32, rep := 97#8, left := 0x061#9, right := 0x066#9 }),
      (1, { freq := 8#32, rep := 97#8, left := 0x100#9, right := 0x062#9 }),
      (2, { freq := 16#32, rep := 97#8, left := 0x101#9, right := 0x063#9 }),
      (3, { freq := 32#32, rep := 97#8, left := 0x102#9, right := 0x064#9 })] := by decide +kernel

/-- V-B7: the leaf (2,0) comes before the node (2,3). -/
theorem test_build_tie :
    (after [.build] (counted [(3#8, 1#32), (4#8, 1#32), (0#8, 2#32)])).inode = [
      (0, { freq := 2#32, rep := 3#8, left := 0x003#9, right := 0x004#9 }),
      (1, { freq := 4#32, rep := 0#8, left := 0x000#9, right := 0x100#9 })] := by decide +kernel

/-- V-G1: the codes "0000", "001" and "1". -/
theorem test_genCodes :
    fiveCoded.codeAt 97#8 = { valid := true, len := 4#8, bits := 0#256 } ∧
    fiveCoded.codeAt 98#8 = { valid := true, len := 3#8, bits := 4#256 } ∧
    fiveCoded.codeAt 100#8 = { valid := true, len := 1#8, bits := 1#256 } ∧
    fiveCoded.codeAt 101#8 = CodeEntry.absent := by decide +kernel

/-- V-G13. -/
theorem test_genCodes_without_tree :
    let t := after [.genCodes] State.reset
    (t.err, t.errInfo, t.codesValid) = (0x02#8, 0x00040042#32, false) := by decide +kernel

/-- V-N2. -/
theorem test_encode : (after [.encode 102#8] fiveCoded).encOut = [0x30#8, 0x30#8, 0x30#8, 0x31#8] := by
  decide +kernel

/-- V-N5 and V-N6: the empty code of a one-symbol tree, and a symbol it lacks. -/
theorem test_encode_single :
    nextOf (exec (.encode 120#8) singleCoded) = some singleCoded ∧
    (after [.encode 121#8] singleCoded).errInfo = 0x00047954#32 := by decide +kernel

/-- V-D9 and V-D14. -/
theorem test_decStart :
    emptyWalk.statusWord = 0x00000012#32 ∧ (after [.decStart] State.reset).errInfo = 0x00040062#32 := by
  decide +kernel

/-- V-D1, its first three characters. -/
theorem test_decChar :
    let t := after [.decChar 0x31#8, .decChar 0x30#8] fiveWalk
    (t.decOut, t.cur, (after [.decChar 0x31#8] t).decOut) = ([100#8], 0x102#9, [100#8, 99#8]) := by decide +kernel

/-- V-D7, its last character. -/
theorem test_decChar_malformed :
    let t := after [.decChar 0x32#8] fiveWalk
    (t.decState, t.cur, t.errInfo) = (.failed, 0x103#9, 0x00043275#32) := by decide +kernel

/-- V-D10. -/
theorem test_decEnd_single :
    let t := after [.decEnd] singleWalk
    (t.decOut, t.decState) = ([120#8, 120#8, 120#8, 120#8, 120#8], .idle) := by decide +kernel

/-- V-D5. -/
theorem test_decEnd_truncated :
    let t := after [.decChar 0x30#8, .decEnd] fiveWalk
    (t.err, t.errInfo, t.statusWord) = (0x20#8, 0x00040086#32, 0x0000056E#32) := by decide +kernel

/-! ## Writes -/

/-- V-C1 and V-C8. -/
theorem test_wrCmd :
    (after [.wrCmd 3#32] State.reset).pending = some 3#32 ∧
    (after [.wrCmd 3#32] (pendingWord 4#32)).pending = some 4#32 ∧
    errorOf [.wrCmd 3#32] (pendingWord 4#32) = (0x80#8, 0x00040008#32) := by decide +kernel

/-- V-M12 and V-M14. -/
theorem test_wrErr :
    (after [.wrErr 0x10#32] { State.reset with err := 0x30#8 }).err = 0x20#8 ∧
    (after [.wrErr 0#32] { State.reset with err := 0x01#8 }).err = 0x01#8 := by decide +kernel

/-- V-M15. -/
theorem test_wrIrqEn : (after [.wrIrqEn 0xFFFFFFFF#32] State.reset).irqEn = 3#2 := by decide +kernel

/-- V-M16 and V-M10. -/
theorem test_wrNodeSel :
    (after [.wrNodeSel 0xFFFF#32] State.reset).nodeSel = 0x1FF#9 ∧
    (after [.wrNodeSel 3#32] (pendingWord 0#32)).nodeSel = 0#9 ∧
    errorOf [.wrNodeSel 3#32] (pendingWord 0#32) = (0x80#8, 0x00240008#32) := by decide +kernel

/-- V-F8: FREQ_W = 8. -/
theorem test_wrFreq_narrow : (after [.wrFreq 0#8 0x1FF#32] { State.reset with freqW := 8 }).freqAt 0#8 = 0xFF#32 := by
  decide +kernel

/-- V-F2: the same value again discards the tree. -/
theorem test_wrFreq_invalidates :
    let t := after [.wrFreq 97#8 2#32] fiveCoded
    (t.freq, t.treeState, t.root, t.codesValid) = (five.freq, .none, 0x1FF#9, false) := by decide +kernel

/-- V-M6 and V-M9. -/
theorem test_wrBad :
    (after [.wrBad 0x0800#16 1#32] State.reset).errInfo = 0x08000007#32 ∧
    (after [.wrBad 0x0800#16 1#32] (pendingWord 0#32)).err = 0x40#8 := by decide +kernel

/-! ## Reads -/

/-- V-M1, V-M2, V-M3, V-M4 and V-M5. -/
theorem test_constant_reads :
    (after [.rdId, .rdParam, .rdCmd, .rdUnmapped 0x5000#16, .rdUnmapped 1#16] State.reset).reads
      = [0x48554631#32, 0x00000020#32, 0#32, 0#32, 0#32] := by decide +kernel

/-- V-R1, V-R2 and V-R3. -/
theorem test_reset_reads :
    (after [.rdStatus, .rdRoot, .rdDecCur, .rdTotal, .rdErr, .rdErrInfo, .rdIrqEn, .rdNodeSel] State.reset).reads
      = [0#32, 0x1FF#32, 0x1FF#32, 0#32, 0#32, 0#32, 0#32, 0#32] := by decide +kernel

/-- Program P1's reads. -/
theorem test_tree_reads :
    (after [.rdStatus, .rdRoot, .rdTotal] fiveBuilt).reads = [0x00000506#32, 0x00000103#32, 0x00000020#32] := by
  decide +kernel

/-- The node read port on V-B6: the root, and the leaf 'd'. -/
theorem test_node_reads :
    (after [.wrNodeSel 0x103#32, .rdNodeFreq, .rdNodeRep, .rdNodeLink,
        .wrNodeSel 0x064#32, .rdNodeFreq, .rdNodeRep, .rdNodeLink] fiveBuilt).reads
      = [0x20#32, 0x80000061#32, 0x00640102#32, 0x10#32, 0x80000064#32, 0x01FF01FF#32] := by decide +kernel

/-- The node read port on V-B6: an absent symbol, an index beyond the tree, and NULL. -/
theorem test_node_reads_invalid :
    (after [.wrNodeSel 0x065#32, .rdNodeFreq, .rdNodeRep, .rdNodeLink] fiveBuilt).reads = [0#32, 0#32, 0#32] ∧
    (after [.wrNodeSel 0x104#32, .rdNodeFreq, .rdNodeRep, .rdNodeLink] fiveBuilt).reads = [0#32, 0#32, 0#32] ∧
    (after [.wrNodeSel 0x1FF#32, .rdNodeFreq, .rdNodeRep, .rdNodeLink] fiveBuilt).reads = [0#32, 0#32, 0#32] := by
  decide +kernel

/-- V-F1. -/
theorem test_rdFreq : (after [.wrFreq 97#8 2#32, .rdFreq 97#8] State.reset).reads = [2#32] := by decide +kernel

/-- V-G1: symbol 102 at 0x2980 and 0x2984, and V-G14. -/
theorem test_rdCodeMid :
    (after [.rdCodeMid 38#7 0#4, .rdCodeMid 38#7 1#4, .rdCodeMid 33#7 9#4] fiveCoded).reads
      = [0x80000004#32, 0x00000008#32, 0#32] := by decide +kernel

/-- V-G5 and V-G3: symbols 4 and 0. -/
theorem test_rdCodeLow :
    (after [.build, .genCodes, .rdCodeLow 4#6 0#4, .rdCodeLow 4#6 1#4]
      (counted [(3#8, 1#32), (4#8, 1#32), (0#8, 2#32)])).reads = [0x80000002#32, 0x00000003#32] := by decide +kernel

/-- V-G3: symbol 255. -/
theorem test_rdCodeHigh :
    (after [.build, .genCodes, .rdCodeHigh 63#6 0#4, .rdCodeHigh 63#6 1#4]
      (counted [(0#8, 5#32), (255#8, 1#32)])).reads = [0x80000001#32, 0#32] := by decide +kernel

/-- V-I2 to V-I8. -/
theorem test_irq :
    ({ State.reset with irqEn := 1#2 } : State).irq = true ∧
    ({ pendingWord 0#32 with irqEn := 1#2, err := 4#8 } : State).irq = false ∧
    ({ pendingWord 0#32 with irqEn := 2#2, err := 4#8 } : State).irq = true ∧
    ({ State.reset with irqEn := 2#2 } : State).irq = false ∧
    ({ pendingWord 0#32 with irqEn := 3#2 } : State).irq = false ∧
    ({ State.reset with irqEn := 3#2 } : State).irq = true := by decide +kernel

/-! ## Witnesses: the hypotheses of each obligation, clause by clause, can be met -/

theorem test_meets_DecodeInvertsEncode :
    (Instr.illegal 0x00000009#32).wellFormed = true ∧ (Instr.wrBad 0x0038#16 0#32).wellFormed = true ∧
    (Instr.rdUnmapped 0xFFFF#16).wellFormed = true ∧ (Instr.rdCodeHigh 63#6 15#4).wellFormed = true := by decide

/-- A word for each row, the largest ARG where the row has one. -/
theorem test_meets_CommandRowsSelectOneCommand :
    0x00000000#32 &&& 0xFFFFFFFF#32 = 0x00000000#32 ∧ 0x00000001#32 &&& 0xFFFFFFFF#32 = 0x00000001#32 ∧
    0x0000FF02#32 &&& 0xFFFF00FF#32 = 0x00000002#32 ∧ 0x00000003#32 &&& 0xFFFFFFFF#32 = 0x00000003#32 ∧
    0x00000004#32 &&& 0xFFFFFFFF#32 = 0x00000004#32 ∧ 0x0000FF05#32 &&& 0xFFFF00FF#32 = 0x00000005#32 ∧
    0x00000006#32 &&& 0xFFFFFFFF#32 = 0x00000006#32 ∧ 0x0000FF07#32 &&& 0xFFFF00FF#32 = 0x00000007#32 ∧
    0x00000008#32 &&& 0xFFFFFFFF#32 = 0x00000008#32 ∧ 0x0000000F#32 &&& 0xFFFFFFFF#32 = 0x0000000F#32 := by decide

/-- The edges of the unmapped ranges, and their mapped neighbours. -/
theorem test_meets_AddressMapRegions :
    unmappedAddr 0x0038 = true ∧ unmappedAddr 0x03FF = true ∧ unmappedAddr 0x0800 = true ∧
    unmappedAddr 0x0FFF = true ∧ unmappedAddr 0x5000 = true ∧ unmappedAddr 0xFFFF = true ∧
    unmappedAddr 0x0037 = false ∧ unmappedAddr 0x0400 = false ∧ unmappedAddr 0x07FF = false ∧
    unmappedAddr 0x1000 = false ∧ unmappedAddr 0x4FFF = false := by decide

/-- Clauses 1, 2, 5 and 6 need an event of their kind; 3 and 4 a pending word and none; 7 and 8 no event. -/
theorem test_meets_StepRunsDecodedOperation :
    ({ State.reset with events := [.read 0#16] } : State).events = .read 0#16 :: [] ∧
    ({ State.reset with events := [.write 4#16 3#32] } : State).events = .write 4#16 3#32 :: [] ∧
    ({ pendingWord 3#32 with events := [.engine] } : State).pending = some 3#32 ∧
    ({ State.reset with events := [.engine] } : State).pending = none ∧
    ({ State.reset with events := [.consumer false true] } : State).events = .consumer false true :: [] ∧
    ({ State.reset with events := [.hardReset] } : State).events = .hardReset :: [] ∧
    (pendingWord 3#32).events = [] ∧ State.reset.runEnded := by
  exact ⟨rfl, rfl, rfl, rfl, rfl, rfl, rfl, rfl, rfl⟩

theorem test_meets_PlacedTableWordRunsNext :
    decodeTableWord 16 0x0000 = some .rdId ∧ decodeTableWord 16 0x07FC = some (.wrFreq 0xFF#8 0#32) := by decide

/-- Clause 1: nothing pending. Clause 2: the pending DEC_END of vector V-R8. -/
theorem test_meets_HardwareResetCutsOutput :
    State.reset.pending = none ∧ ({ singleWalk with pending := some 8#32 } : State).pending = some 8#32 ∧
    nextOf (exec (decode (.command 8#32)) { singleWalk with pending := some 8#32 })
      = some (after [.decEnd] singleWalk) := by decide +kernel

/-- INODE[1] differs, which is outside the tree, and the codes are not valid. -/
theorem test_meets_UnwrittenStoresUnobservable :
    let s : State := { pairWalk with codesValid := false }
    let n := setInode s.inode 1 { freq := 9#32, rep := 0#8, left := 0#9, right := 0#9 }
    n ≠ s.inode ∧ (∀ k, k < s.nint → inodeOf n k = inodeOf s.inode k) ∧ (s.codesValid = true → [] = s.code) := by
  decide +kernel

theorem test_meets_StatusRegister : State.reset.busy = false ∧ (pendingWord 0#32).busy = true := by decide

theorem test_meets_IdleReadsReturnRegisters : fiveCoded.busy = false := by decide +kernel

/-- A node that is not valid, a valid leaf, a valid internal node. -/
theorem test_meets_NodeReadPort :
    pairWalk.busy = false ∧ pairWalk.nodeValid 0x1FF#9 = false ∧
    (pairWalk.nodeValid 2#9 = true ∧ (2#9).toNat ≤ 255) ∧
    (pairWalk.nodeValid 0x100#9 = true ∧ 256 ≤ (0x100#9).toNat) := by decide +kernel

/-- The first and the last word of the window, with codes and without. -/
theorem test_meets_CodeWindow :
    (0x1000 ≤ (0x1000#16).toNat ∧ (0x1000#16).toNat ≤ 0x4FFC ∧ (0x1000#16).toNat % 4 = 0) ∧
    (0x1000 ≤ (0x4FFC#16).toNat ∧ (0x4FFC#16).toNat ≤ 0x4FFC ∧ (0x4FFC#16).toNat % 4 = 0) ∧
    pairWalk.busy = false ∧ pairWalk.codesValid = true ∧ State.reset.busy = false ∧
    State.reset.codesValid = false := by decide +kernel

/-- IssueOnlySetsPending, NodeSelWrite and FreqWriteStoresAndInvalidates: BUSY = 0, BUSY = 1, a misaligned address. -/
theorem test_meets_guarded_writes :
    State.reset.busy = false ∧ (pendingWord 0#32).busy = true ∧ (0x0402#16 : Addr).toNat % 4 ≠ 0 := by decide

theorem test_meets_RaiseRecordsError :
    State.reset.err = 0#8 ∧ ({ State.reset with err := 1#8 } : State).err ≠ 0#8 := by decide

/-- FirstErrorRecordKept, ErrorBitsSticky and OnlyIssueRaisesBusy: operations that answer a next state, with ERR = 0
and with ERR not 0, one of them a command and one a write that issues. -/
theorem test_meets_whole_machine_rules :
    (nextOf (exec (.illegal 9#32) State.reset)).isSome = true ∧ (after [.illegal 9#32] State.reset).err ≠ 0#8 ∧
    (nextOf (exec (.illegal 9#32) { State.reset with err := 2#8 })).isSome = true ∧
    encode (.illegal 9#32) = .command 9#32 ∧ (after [.wrCmd 3#32] State.reset).pending = some 3#32 ∧
    encode (.wrCmd 3#32) = .write 4#16 3#32 ∧ (after [.wrCmd 3#32] (pendingWord 4#32)).pending = some 4#32 := by
  decide +kernel

/-- The largest value, one below it, and FREQ_W = 32. -/
theorem test_meets_CountIncrementsOrOverflows :
    ((counted [(0#8, 0xFFFFFFFF#32)]).freqAt 0#8).toNat = 2 ^ State.reset.freqW - 1 ∧
    ((counted [(0#8, 0xFFFFFFFE#32)]).freqAt 0#8).toNat < 2 ^ State.reset.freqW - 1 ∧ State.reset.freqW ≤ 32 := by
  decide +kernel

/-- FREQ_W = 1 and each count at its largest, 1. -/
theorem test_meets_CountingASource :
    ({ State.reset with freqW := 1 } : State).freqW ≤ 32 ∧
    ∀ c : Byte, ([97#8, 98#8] : List Byte).count c ≤ 2 ^ ({ State.reset with freqW := 1 } : State).freqW - 1 := by
  decide +kernel

theorem test_meets_FreqChangeDiscardsTree :
    nextOf (exec (.wrFreq 2#8 9#32) pairWalk) = some (after [.wrFreq 2#8 9#32] pairWalk) ∧
    (after [.wrFreq 2#8 9#32] pairWalk).freqAt 2#8 ≠ pairWalk.freqAt 2#8 ∧
    nextOf (exec .build pair) = some (after [.build] pair) := by decide +kernel

theorem test_meets_ComparatorIsKeyComparison :
    (nodeFreq pair.freq [] 2#9, nodeRep [] 2#9) ≠ (nodeFreq pair.freq [] 5#9, nodeRep [] 5#9) := by decide +kernel

theorem test_meets_LeafQueueIsTheSortedLeaves :
    [2#9, 5#9].Perm (leafList pair.freq) ∧
    [2#9, 5#9].Pairwise (fun a b => comesBefore pair.freq [] a b = true) := by decide +kernel

/-- A queue in order, and a node whose key none of it has. -/
theorem test_meets_InsertionAtFirstNonPreceding :
    [2#9].Pairwise (fun a b => comesBefore pair.freq [] a b = true) ∧
    ∀ x ∈ [2#9], (nodeFreq pair.freq [] x, nodeRep [] x) ≠ (nodeFreq pair.freq [] 5#9, nodeRep [] 5#9) := by
  decide +kernel

/-- Vector V-B15: the sum 300 passes 255. -/
theorem test_meets_BuildOverflow :
    let s : State := { counted [(0#8, 200#32), (1#8, 100#32)] with freqW := 8 }
    2 ^ s.freqW - 1 < (symbols.map fun x => (s.freqAt x).toNat).sum := by decide +kernel

/-- No counter set; and one, at the largest value. -/
theorem test_meets_BuildDegenerateTrees :
    (∀ x : Byte, State.reset.freqAt x = 0#32) ∧ oneSymbol.freqAt 120#8 ≠ 0#32 ∧
    (∀ y : Byte, y ≠ 120#8 → oneSymbol.freqAt y = 0#32) ∧
    (oneSymbol.freqAt 120#8).toNat ≤ 2 ^ oneSymbol.freqW - 1 := by decide +kernel

/-- BuildMultiRegisters, BuildTreeIsStrictBinary, CodeIsPathToLeaf and CodesPrefixFreeAndComplete: two leaves, and the
sum at its largest (vector V-B14). -/
theorem test_meets_buildsTree :
    pair.buildsTree ∧ (counted [(0#8, 0xFFFFFFFE#32), (1#8, 1#32)]).buildsTree := by
  unfold State.buildsTree
  decide +kernel

/-- Two states with the same counters and other trees. -/
theorem test_meets_BuildDependsOnFreqOnly :
    pair.freqW = pairWalk.freqW ∧ (∀ x : Byte, pair.freqAt x = pairWalk.freqAt x) ∧
    nextOf (exec .build pair) = some (after [.build] pair) ∧
    nextOf (exec .build pairWalk) = some (after [.build] pairWalk) := by decide +kernel

theorem test_meets_GenCodesOutcome :
    State.reset.treeState = .none ∧ pairWalk.treeState ≠ .none ∧ emptyWalk.treeState = .empty ∧
    singleWalk.treeState = .single := by decide +kernel

/-- The four clauses, each with a consumer that accepts ENC_OUT. -/
theorem test_meets_EncodeOutcome :
    (State.reset.encReady = true ∧ State.reset.codesValid = false) ∧
    (pairWalk.encReady = true ∧ pairWalk.codesValid = true ∧ (pairWalk.codeAt 5#8).valid = true) ∧
    (singleCoded.encReady = true ∧ singleCoded.codesValid = true ∧ (singleCoded.codeAt 120#8).valid = false ∧
      singleCoded.treeState = .single ∧ (120#8).setWidth 9 = singleCoded.root) ∧
    (pairWalk.codeAt 0#8).valid = false ∧ pairWalk.treeState ≠ .single := by decide +kernel

theorem test_meets_DecStartOpensBracket :
    State.reset.treeState = .none ∧ pairWalk.treeState ≠ .none := by decide +kernel

/-- Outside a bracket; an EMPTY and a SINGLE tree; and in a MULTI tree a child that is a leaf, one that is a node, and
a character that names no child. -/
theorem test_meets_DecCharWalksTree :
    (State.reset.decReady = true ∧ State.reset.decState ≠ .active) ∧
    (emptyWalk.decReady = true ∧ emptyWalk.decState = .active ∧ emptyWalk.treeState = .empty) ∧
    (singleWalk.decState = .active ∧ singleWalk.treeState = .single) ∧
    (fiveWalk.decReady = true ∧ fiveWalk.decState = .active ∧ fiveWalk.treeState = .multi ∧
      256 ≤ fiveWalk.cur.toNat) ∧
    ((inodeOf fiveWalk.inode (fiveWalk.cur.toNat - 256)).right.toNat ≤ 255 ∧
      256 ≤ (inodeOf fiveWalk.inode (fiveWalk.cur.toNat - 256)).left.toNat) ∧
    (0x32#8 ≠ 0x30#8 ∧ 0x32#8 ≠ 0x31#8) := by decide +kernel

/-- Outside a bracket; SINGLE; MULTI off the root; MULTI at the root; EMPTY. -/
theorem test_meets_DecEndClosesBracket :
    (State.reset.decReady = true ∧ State.reset.decState ≠ .active) ∧
    (singleWalk.decState = .active ∧ singleWalk.treeState = .single ∧ singleWalk.root.toNat ≤ 255) ∧
    ((after [.decChar 0x30#8] fiveWalk).decState = .active ∧ (after [.decChar 0x30#8] fiveWalk).treeState = .multi ∧
      (after [.decChar 0x30#8] fiveWalk).cur ≠ (after [.decChar 0x30#8] fiveWalk).root) ∧
    (pairWalk.decState = .active ∧ pairWalk.treeState = .multi ∧ pairWalk.cur = pairWalk.root) ∧
    (emptyWalk.decState = .active ∧ emptyWalk.treeState = .empty) := by decide +kernel

theorem test_meets_FailedBracketStaysFailed :
    let s : State := { pairWalk with decState := .failed }
    s.decState = .failed ∧ nextOf (exec (.decChar 0x30#8) s) = some (after [.decChar 0x30#8] s) := by decide +kernel

theorem test_meets_stores : pairWalk.storesOk = true ∧ pairWalk.widthsOk = true := by decide +kernel

theorem test_meets_treeRegs : pairWalk.treeRegsOk := by
  show 2 ≤ pairWalk.nsym.toNat ∧ pairWalk.nsym.toNat ≤ 256 ∧ _ ∧ _ ∧ _
  decide +kernel

theorem test_meets_tree : pairWalk.treeOk := by
  refine ⟨fun k hk => ?_, by decide +kernel, by decide +kernel⟩
  have h0 : k = 0 := Nat.lt_one_iff.mp hk
  subst h0
  unfold State.nodeOk
  decide +kernel

/-- StepKeepsStores, StepKeepsTreeRegisters and StepKeepsTree hold the three facts above and that a step answers. -/
theorem test_meets_steps : nextOf (step pairWalk) = some pairWalk := by decide +kernel

/-- With the three facts above: an open bracket at the root, a consumer that accepts, and '0' and '1' only. -/
theorem test_meets_EagerDecodeEqualsSourceLoop :
    pairWalk.treeState = .multi ∧ pairWalk.decState = .active ∧ pairWalk.cur = pairWalk.root ∧
    pairWalk.decReady = true ∧ ∀ c ∈ [0x30#8, 0x31#8], c = 0x30#8 ∨ c = 0x31#8 := by decide +kernel

/-- FREQ holds the counts of the source "aab". -/
theorem test_meets_RoundTrip :
    let s := counted [(97#8, 2#32), (98#8, 1#32)]
    let src := [97#8, 97#8, 98#8]
    src ≠ [] ∧ (s.encReady = true ∧ s.decReady = true) ∧ 1 ≤ s.freqW ∧ s.freqW ≤ 32 ∧
    src.length ≤ 2 ^ s.freqW - 1 ∧ ∀ c : Byte, (s.freqAt c).toNat = src.count c := by decide +kernel

theorem test_meets_StreamsOnlyGrow :
    nextOf (step { fiveCoded with pending := some 0x6605#32 })
      = some { fiveCoded with encOut := [0x30#8, 0x30#8, 0x30#8, 0x31#8] } := by decide +kernel

/-- A pending command; a code of at least one character; a child that is a leaf, on both sides; a one-symbol tree with its counter not 0; nothing accepted. -/
theorem test_meets_UndrainedOutputWaits :
    (nextOf (exec (decode (.command 0x0505#32)) { pairWalk with pending := some 0x0505#32, encReady := false })).isSome
      = true ∧
    (pairWalk.codesValid = true ∧ (pairWalk.codeAt 5#8).valid = true ∧ (pairWalk.codeAt 5#8).len ≠ 0#8) ∧
    (({ pairWalk with decReady := false } : State).decReady = false ∧ pairWalk.decState = .active ∧
      pairWalk.treeState = .multi ∧ 256 ≤ pairWalk.cur.toNat ∧
      (inodeOf pairWalk.inode (pairWalk.cur.toNat - 256)).left.toNat ≤ 255 ∧
      (inodeOf pairWalk.inode (pairWalk.cur.toNat - 256)).right.toNat ≤ 255) ∧
    (singleWalk.decState = .active ∧ singleWalk.treeState = .single ∧ singleWalk.root.toNat ≤ 255 ∧
      singleWalk.freqAt (BitVec.ofNat 8 singleWalk.root.toNat) ≠ 0#32) ∧
    ({ singleWalk with decReady := false } : State).decReady = false := by decide +kernel

end Sys2Proof.Tests
end

section
/-! O7: what a step does, by the next act of the list. -/

namespace Sys2Proof.Machine

theorem step_of_events_cons {s : State} {e : Event} {rest : List Event} (h : s.events = e :: rest) :
    step s = perform e { s with events := rest } := by
  simp [step, nextAct, h]

theorem step_of_events_nil {s : State} (h : s.events = []) : step s = engineStep s := by
  simp [step, nextAct, h]

theorem State.pending_of_runEnded {s : State} (h : s.runEnded) : s.pending = none := by
  simpa [State.busy] using h.2

end Sys2Proof.Machine

namespace Sys2Proof

open Sys2Proof.Machine

/-- Settles O7: the list's head selects `perform`'s arm, and the Engine's turn is `engineStep`. -/
theorem stepRunsDecodedOperation : Obligations.StepRunsDecodedOperation := by
  intro s rest
  refine ⟨fun a he => step_of_events_cons he, fun a v he => step_of_events_cons he, fun w he hp => ?_,
    fun he hp => ?_, fun enc dec he => step_of_events_cons he, fun he => step_of_events_cons he,
    fun w he hp => ?_, fun hend => ?_⟩
  · exact (step_of_events_cons he).trans (engineStep_some hp)
  · exact (step_of_events_cons he).trans (engineStep_none hp)
  · exact (step_of_events_nil he).trans (engineStep_some hp)
  · exact (step_of_events_nil hend.1).trans (engineStep_none (State.pending_of_runEnded hend))

end Sys2Proof
end

section
/-! The part of the state that FREQ and the tree are, and the frame rule for it: six operations write it, every other
one leaves it alone. -/

namespace Sys2Proof

/-- The operations that may write FREQ, the tree registers, INODE or CODE. -/
def Instr.writesTree : Instr → Bool
  | .reset | .clrFreq | .count _ | .wrFreq _ _ | .build | .genCodes => true
  | _ => false

end Sys2Proof

namespace Sys2Proof.Machine

/-- `s` with every field but FREQ_W, FREQ, the tree registers, INODE and CODE at its reset value. -/
def State.treePart (s : State) : State :=
  { State.reset with
    freqW := s.freqW, freq := s.freq, inode := s.inode, treeState := s.treeState, nsym := s.nsym, root := s.root
    total := s.total, codesValid := s.codesValid, code := s.code }

theorem State.storesOk_treePart (s : State) : s.treePart.storesOk = s.storesOk := rfl
theorem State.widthsOk_treePart (s : State) : s.treePart.widthsOk = s.widthsOk := rfl
theorem State.freqW_treePart (s : State) : s.treePart.freqW = s.freqW := rfl

/-- Each meaning's inversion lemma gives its possible answers, and none of them touches a field of the tree part. -/
theorem exec_treePart {i : Instr} (hi : i.writesTree = false) {s t : State} (h : exec i s = .next t) :
    t.treePart = s.treePart := by
  revert h
  cases i
  case reset | clrFreq | count | wrFreq | build | genCodes => cases hi
  all_goals
    clear hi
    simp +contextual [exec, or_imp, State.treePart]

theorem State.abandon_treePart (s : State) : s.abandon.treePart = s.treePart := by
  obtain ⟨a, b, d, h⟩ := s.abandon_eq
  rw [h]
  rfl

end Sys2Proof.Machine
end

section
/-! The invariant of O57, taken apart, and the operations other than BUILD: what they write to FREQ and CODE is
canonical and fits FREQ_W bits. -/

namespace Sys2Proof.Machine

/-! ## The two checks as facts -/

/-- A frequency table in canonical form whose counters fit `w` bits. -/
def FreqOk (w : Nat) (f : Table Word) : Prop := Table.wf 0#32 256 f = true ∧ ∀ p ∈ f, p.2.toNat < 2 ^ w

theorem State.storesOk_iff (s : State) :
    s.storesOk = true ↔ (1 ≤ s.freqW ∧ s.freqW ≤ 32) ∧ FreqOk s.freqW s.freq ∧
      Table.wf Inode.unwritten 255 s.inode = true ∧ Table.wf CodeEntry.absent 256 s.code = true := by
  simp [State.storesOk, FreqOk, and_assoc]

theorem State.widthsOk_iff (s : State) :
    s.widthsOk = true ↔ (∀ p ∈ s.inode, p.2.freq.toNat < 2 ^ s.freqW) ∧ s.total.toNat < 2 ^ s.freqW := by
  simp [State.widthsOk]

/-- `t` keeps what O57 asks of a step from `s`. -/
def KeepsStores (s t : State) : Prop :=
  s.storesOk = true → t.storesOk = true ∧ t.freqW = s.freqW ∧ (s.widthsOk = true → t.widthsOk = true)

theorem KeepsStores.trans {s t u : State} (h : KeepsStores s t) (h' : KeepsStores t u) : KeepsStores s u := by
  intro hs
  obtain ⟨ht, hW, hwt⟩ := h hs
  obtain ⟨hu, hW', hwu⟩ := h' ht
  exact ⟨hu, hW'.trans hW, hwu ∘ hwt⟩

/-- The invariant reads the tree part only. -/
theorem keepsStores_of_treePart {s t : State} (h : t.treePart = s.treePart) : KeepsStores s t := by
  intro hs
  rw [← t.storesOk_treePart, ← t.widthsOk_treePart, ← t.freqW_treePart, h]
  exact ⟨hs, rfl, id⟩

theorem KeepsStores.retire {s t : State} (h : KeepsStores s t) : KeepsStores s t.retire := h

theorem KeepsStores.raise {s t : State} (h : KeepsStores s t) (e : ErrorCause) (op : BitVec 4) (arg : Byte)
    (addr : Addr) : KeepsStores s (t.raise e op arg addr) := h

/-! ## FREQ -/

theorem Table.get_eq_default_or_mem {α : Type} (d : α) (t : Table α) (k : Nat) :
    Table.get d t k = d ∨ (k, Table.get d t k) ∈ t := by
  induction t with
  | nil => exact .inl rfl
  | cons p t ih =>
    obtain ⟨j, v⟩ := p
    by_cases h : j = k
    · simp [Table.get_cons, h]
    · simpa [Table.get_cons, h, Ne.symm h] using ih

theorem FreqOk.nil (w : Nat) : FreqOk w [] := ⟨rfl, by simp⟩

theorem FreqOk.freqOf_lt {w : Nat} {f : Table Word} (h : FreqOk w f) (sym : Byte) :
    (freqOf f sym).toNat < 2 ^ w := by
  rcases Table.get_eq_default_or_mem 0#32 f sym.toNat with h0 | hmem
  · simp [freqOf, h0]
  · exact h.2 _ hmem

theorem FreqOk.set {w : Nat} {f : Table Word} (h : FreqOk w f) (sym : Byte) {v : Word} (hv : v.toNat < 2 ^ w) :
    FreqOk w (Table.set 0#32 f sym.toNat v) := by
  refine ⟨Table.wf_set _ _ _ sym.isLt h.1, fun p hp => ?_⟩
  rcases Table.mem_set hp with rfl | hp
  · exact hv
  · exact h.2 p hp

/-- An update of FREQ that drops the tree: INVALIDATE, CLR_FREQ, COUNT, a FREQ write, and the two resets. -/
theorem keepsStores_of_freq {s t : State} (hW : t.freqW = s.freqW) (hn : t.inode = s.inode) (hc : t.code = s.code)
    (htot : t.total = 0#32) (hf : FreqOk s.freqW s.freq → FreqOk s.freqW t.freq) : KeepsStores s t := by
  intro hs
  rw [State.storesOk_iff] at hs
  obtain ⟨hw, hfreq, hnode, hcode⟩ := hs
  simp only [State.storesOk_iff, State.widthsOk_iff, hW, hn, hc, htot, true_and]
  exact ⟨⟨hw, hf hfreq, hnode, hcode⟩, fun h => ⟨h.1, Nat.two_pow_pos _⟩⟩

theorem keepsStores_invalidate (s : State) : KeepsStores s s.invalidate :=
  keepsStores_of_freq rfl rfl rfl rfl id

theorem keepsStores_clearRegisters (s : State) : KeepsStores s s.clearRegisters :=
  keepsStores_of_freq rfl rfl rfl rfl fun _ => FreqOk.nil _

theorem keepsStores_clearFreq (s : State) : KeepsStores s ({ s with freq := [] } : State).invalidate :=
  keepsStores_of_freq rfl rfl rfl rfl fun _ => FreqOk.nil _

theorem keepsStores_setFreq {s : State} (sym : Byte) {v : Word}
    (hv : FreqOk s.freqW s.freq → v.toNat < 2 ^ s.freqW) : KeepsStores s (s.setFreq sym v).invalidate :=
  keepsStores_of_freq rfl rfl rfl rfl fun h => h.set sym (hv h)

/-- The bits a FREQ write stores fit FREQ_W bits (41_frequency.md R110). -/
theorem State.lowFreqBits_lt (s : State) (v : Word) : (s.lowFreqBits v).toNat < 2 ^ s.freqW := by
  rw [State.lowFreqBits, BitVec.toNat_ofNat]
  exact (Nat.mod_le _ _).trans_lt (Nat.mod_lt _ (Nat.two_pow_pos _))

/-- A counter not at FREQ_MAX can be incremented (41_frequency.md R112). -/
theorem succ_lt_of_ne_freqMax {s : State} {v : Word} (hv : v.toNat < 2 ^ s.freqW) (hmax : v.toNat ≠ s.freqMax) :
    (v + 1#32).toNat < 2 ^ s.freqW := by
  have hle : (v + 1#32).toNat ≤ v.toNat + 1 := Nat.mod_le _ _
  rw [State.freqMax] at hmax
  omega

theorem execClrFreq_keepsStores {s t : State} (h : execClrFreq s = .next t) : KeepsStores s t := by
  rw [execClrFreq_next] at h
  subst h
  exact (keepsStores_clearFreq s).retire

theorem execReset_keepsStores {s t : State} (h : execReset s = .next t) : KeepsStores s t := by
  rw [execReset_next] at h
  subst h
  exact (keepsStores_clearRegisters s).retire

theorem execCount_keepsStores {sym : Byte} {s t : State} (h : execCount sym s = .next t) : KeepsStores s t := by
  rw [execCount_next] at h
  rcases h with ⟨-, rfl⟩ | ⟨hmax, rfl⟩
  · exact keepsStores_of_treePart rfl
  · exact (keepsStores_setFreq sym fun hf => succ_lt_of_ne_freqMax (hf.freqOf_lt sym) hmax).retire

theorem execWrFreq_keepsStores {sym : Byte} {v : Word} {s t : State} (h : execWrFreq sym v s = .next t) :
    KeepsStores s t := by
  rw [execWrFreq_next] at h
  rcases h with ⟨-, rfl⟩ | ⟨-, rfl⟩
  · exact keepsStores_setFreq sym fun _ => s.lowFreqBits_lt v
  · exact keepsStores_of_treePart rfl

/-! ## CODE -/

/-- The walk writes the entries of symbols only. -/
theorem walk_wf (n : Table Inode) : ∀ (levels : Nat) (i : NodeIx) (path : List Bool) (c : Table CodeEntry),
    Table.wf CodeEntry.absent 256 c = true → Table.wf CodeEntry.absent 256 (walk n levels i path c) = true
  | 0, _, _, _, h => h
  | levels + 1, i, path, c, h => by
    rw [walk]
    split
    · exact Table.wf_set _ _ _ (BitVec.isLt _) h
    · exact walk_wf n levels _ _ _ (walk_wf n levels _ _ _ h)

theorem execGenCodes_keepsStores {s t : State} (h : execGenCodes s = .next t) : KeepsStores s t := by
  rw [execGenCodes_next] at h
  rcases h with ⟨-, rfl⟩ | ⟨-, rfl⟩
  · exact keepsStores_of_treePart rfl
  · intro hs
    rw [State.storesOk_iff] at hs ⊢
    obtain ⟨hw, hfreq, hnode, -⟩ := hs
    refine ⟨⟨hw, hfreq, hnode, ?_⟩, rfl, id⟩
    change Table.wf CodeEntry.absent 256 (if s.treeState = .multi then walk s.inode 256 s.root [] [] else []) = true
    split
    · exact walk_wf _ _ _ _ _ rfl
    · rfl

end Sys2Proof.Machine
end

section
/-! The merge loop keeps the sum of the queue's frequencies (42_tree_builder.md R126, R129), so no merge passes that
sum and the last node left carries it. -/

namespace Sys2Proof.Machine

/-! ## Node frequencies after a merge -/

theorem isLeaf_iff (i : NodeIx) : isLeaf i = true ↔ i.toNat < 256 := by
  revert i
  decide

theorem leafIx_toNat (sym : Byte) : (leafIx sym).toNat = sym.toNat := by
  simp only [leafIx, BitVec.toNat_setWidth]
  omega

theorem internalIx_toNat {k : Nat} (hk : k ≤ 255) : (internalIx k).toNat = 256 + k := by
  simp only [internalIx, BitVec.toNat_ofNat]
  omega

theorem nodeFreq_leafIx (f : Table Word) (n : Table Inode) (sym : Byte) : nodeFreq f n (leafIx sym) = freqOf f sym := by
  have hleaf : isLeaf (leafIx sym) = true := by
    rw [isLeaf_iff, leafIx_toNat]
    exact sym.isLt
  rw [nodeFreq, if_pos hleaf]
  simp [leafIx]

/-- The merge `k` writes no node made before it. -/
theorem nodeFreq_setInode_of_lt (f : Table Word) (n : Table Inode) {k : Nat} (r : Inode) {i : NodeIx}
    (hi : i.toNat < 256 + k) : nodeFreq f (setInode n k r) i = nodeFreq f n i := by
  unfold nodeFreq
  split
  · rfl
  · rename_i hleaf
    rw [isLeaf_iff] at hleaf
    rw [recordOf, recordOf, inodeOf_setInode, if_neg (by omega)]

theorem nodeFreq_setInode_internalIx (f : Table Word) (n : Table Inode) {k : Nat} (r : Inode) (hk : k ≤ 255) :
    nodeFreq f (setInode n k r) (internalIx k) = r.freq := by
  have hix := internalIx_toNat hk
  have hleaf : ¬ isLeaf (internalIx k) = true := by
    rw [isLeaf_iff]
    omega
  rw [nodeFreq, if_neg hleaf, recordOf, inodeOf_setInode, if_pos (by omega)]

/-! ## The weight of a queue -/

/-- The exact sum of the frequencies of the nodes of a queue. -/
def queueWeight (f : Table Word) (n : Table Inode) (q : List NodeIx) : Nat :=
  (q.map fun i => (nodeFreq f n i).toNat).sum

@[simp] theorem queueWeight_cons (f : Table Word) (n : Table Inode) (i : NodeIx) (q : List NodeIx) :
    queueWeight f n (i :: q) = (nodeFreq f n i).toNat + queueWeight f n q := List.sum_cons

theorem queueWeight_perm (f : Table Word) (n : Table Inode) {q q' : List NodeIx} (h : q.Perm q') :
    queueWeight f n q = queueWeight f n q' := (h.map _).sum_eq

theorem queueWeight_setInode (f : Table Word) (n : Table Inode) {k : Nat} (r : Inode) {q : List NodeIx}
    (hq : ∀ i ∈ q, i.toNat < 256 + k) : queueWeight f (setInode n k r) q = queueWeight f n q := by
  unfold queueWeight
  rw [List.map_congr_left fun i hi => by rw [nodeFreq_setInode_of_lt f n r (hq i hi)]]

/-- Symbols with a zero counter, which the leaf list drops, add nothing. -/
theorem queueWeight_leafList (f : Table Word) (n : Table Inode) : queueWeight f n (leafList f) = freqTotal f := by
  unfold leafList freqTotal
  induction symbols with
  | nil => rfl
  | cons x xs ih =>
    by_cases hx : freqOf f x = 0#32
    · simpa [hx] using ih
    · simpa [hx, nodeFreq_leafIx] using ih

/-! ## One merge -/

/-- INODE after the merge `k` of `a` and `b`. -/
def mergedArena (f : Table Word) (n : Table Inode) (k : Nat) (a b : NodeIx) : Table Inode :=
  setInode n k (mergeRecord f n a b)

/-- The queue after the merge `k` of its first two nodes `a` and `b`. -/
def mergedQueue (f : Table Word) (n : Table Inode) (k : Nat) (a b : NodeIx) (q : List NodeIx) : List NodeIx :=
  insertNode f (mergedArena f n k a b) (internalIx k) q

theorem mergeLoop_merge (f : Table Word) (rounds k : Nat) (n : Table Inode) (a b : NodeIx) (q : List NodeIx) :
    mergeLoop f (rounds + 1) k n (a :: b :: q)
      = mergeLoop f rounds (k + 1) (mergedArena f n k a b) (mergedQueue f n k a b q) := rfl

/-- What a queue is before merge `k`: its nodes are leaves and results of earlier merges, the merges to come fit
INODE, and its weight fits a frequency register. -/
structure QueueFits (f : Table Word) (n : Table Inode) (k : Nat) (q : List NodeIx) : Prop where
  made   : ∀ i ∈ q, i.toNat < 256 + k
  room   : k + q.length ≤ 256
  weight : queueWeight f n q < 2 ^ 32

section OneMerge

variable {f : Table Word} {n : Table Inode} {k : Nat} {a b : NodeIx} {q : List NodeIx}

theorem QueueFits.room_rest (h : QueueFits f n k (a :: b :: q)) : k + q.length + 2 ≤ 256 := h.room

theorem mergeRecord_freq_toNat (h : QueueFits f n k (a :: b :: q)) :
    (mergeRecord f n a b).freq.toNat = (nodeFreq f n a).toNat + (nodeFreq f n b).toNat := by
  have hw := h.weight
  simp only [queueWeight_cons] at hw
  exact BitVec.toNat_add_of_lt (by omega)

theorem queueWeight_merged (h : QueueFits f n k (a :: b :: q)) :
    queueWeight f (mergedArena f n k a b) (mergedQueue f n k a b q) = queueWeight f n (a :: b :: q) := by
  have hroom := h.room_rest
  have hq : ∀ i ∈ q, i.toNat < 256 + k := fun i hi => h.made i (by simp [hi])
  calc queueWeight f (mergedArena f n k a b) (mergedQueue f n k a b q)
      = queueWeight f (mergedArena f n k a b) (internalIx k :: q) := queueWeight_perm _ _ (insertNode_perm _ _ _ _)
    _ = (mergeRecord f n a b).freq.toNat + queueWeight f n q := by
        rw [queueWeight_cons, mergedArena, nodeFreq_setInode_internalIx f n _ (by omega), queueWeight_setInode f n _ hq]
    _ = queueWeight f n (a :: b :: q) := by
        rw [mergeRecord_freq_toNat h, queueWeight_cons, queueWeight_cons, Nat.add_assoc]

theorem QueueFits.merge (h : QueueFits f n k (a :: b :: q)) :
    QueueFits f (mergedArena f n k a b) (k + 1) (mergedQueue f n k a b q) where
  made i hi := by
    have hroom := h.room_rest
    rcases List.mem_cons.1 ((insertNode_perm _ _ _ _).mem_iff.1 hi) with rfl | hi
    · rw [internalIx_toNat (by omega)]
      omega
    · have := h.made i (by simp [hi])
      omega
  room := by
    have hroom := h.room_rest
    simp only [mergedQueue, insertNode_length]
    omega
  weight := by
    rw [queueWeight_merged h]
    exact h.weight

end OneMerge

/-! ## The loop -/

theorem mergeLoop_weight {f : Table Word} : ∀ (rounds k : Nat) (n : Table Inode) (q : List NodeIx),
    QueueFits f n k q →
      queueWeight f (mergeLoop f rounds k n q).1 (mergeLoop f rounds k n q).2 = queueWeight f n q
  | 0, _, _, _, _ => rfl
  | _ + 1, _, _, [], _ => rfl
  | _ + 1, _, _, [_], _ => rfl
  | rounds + 1, k, n, a :: b :: q, h => by
    rw [mergeLoop_merge, mergeLoop_weight rounds (k + 1) _ _ h.merge, queueWeight_merged h]

/-- A record after the loop was there before it, or its frequency is a part of the queue's weight. -/
theorem mergeLoop_mem {f : Table Word} {p : Nat × Inode} : ∀ (rounds k : Nat) (n : Table Inode) (q : List NodeIx),
    QueueFits f n k q → p ∈ (mergeLoop f rounds k n q).1 → p ∈ n ∨ p.2.freq.toNat ≤ queueWeight f n q
  | 0, _, _, _, _, hp => .inl hp
  | _ + 1, _, _, [], _, hp => .inl hp
  | _ + 1, _, _, [_], _, hp => .inl hp
  | rounds + 1, k, n, a :: b :: q, h, hp => by
    rw [mergeLoop_merge] at hp
    rcases mergeLoop_mem rounds (k + 1) _ _ h.merge hp with hp | hle
    · rcases Table.mem_set hp with rfl | hp
      · right
        simp only [mergeRecord_freq_toNat h, queueWeight_cons]
        omega
      · exact .inl hp
    · exact .inr (queueWeight_merged h ▸ hle)

/-- The one node a full merge leaves carries the weight of the queue. -/
theorem mergeLoop_top_freq {f : Table Word} {n : Table Inode} {q : List NodeIx} (h : QueueFits f n 0 q)
    (hq : q ≠ []) :
    (nodeFreq f (mergeLoop f q.length 0 n q).1 ((mergeLoop f q.length 0 n q).2.headD 0x1FF#9)).toNat
      = queueWeight f n q := by
  obtain ⟨top, htop⟩ := List.length_eq_one_iff.1 (mergeLoop_queue_length f q.length 0 n q (Nat.le_refl _) hq)
  rw [← mergeLoop_weight q.length 0 n q h, htop]
  simp [queueWeight]

end Sys2Proof.Machine
end

section
/-! O57: BUILD, then every operation, then every step. -/

namespace Sys2Proof.Machine

/-! ## BUILD -/

/-- BUILD's queue of leaves, when the exact sum passes no register. -/
theorem queueFits_sortNodes (f : Table Word) (n : Table Inode) (hsum : freqTotal f < 2 ^ 32) :
    QueueFits f n 0 (sortNodes f n (leafList f)) where
  made i hi := by
    have hmem := (sortNodes_perm f n (leafList f)).mem_iff.1 hi
    obtain ⟨x, -, rfl⟩ := List.mem_map.1 hmem
    rw [leafIx_toNat]
    exact x.isLt
  room := by simpa using leafList_length_le f
  weight := by rwa [queueWeight_perm f n (sortNodes_perm f n _), queueWeight_leafList]

theorem nodeFreq_lt {w : Nat} {f : Table Word} {n : Table Inode} (hf : FreqOk w f)
    (hn : ∀ p ∈ n, p.2.freq.toNat < 2 ^ w) (i : NodeIx) : (nodeFreq f n i).toNat < 2 ^ w := by
  unfold nodeFreq
  split
  · exact hf.freqOf_lt _
  · rcases Table.get_eq_default_or_mem Inode.unwritten n (i.toNat - 256) with h0 | hmem
    · rw [recordOf, inodeOf, h0]
      exact Nat.two_pow_pos w
    · exact hn _ hmem

theorem keepsStores_builtSingle (s : State) (leaf : NodeIx) : KeepsStores s (s.builtSingle leaf) := by
  intro hs
  refine ⟨hs, rfl, fun hw => ?_⟩
  obtain ⟨-, hfreq, -, -⟩ := s.storesOk_iff.1 hs
  obtain ⟨hnode, -⟩ := s.widthsOk_iff.1 hw
  exact (State.widthsOk_iff _).2 ⟨hnode, nodeFreq_lt hfreq hnode leaf⟩

theorem State.builtMulti_total (s : State) (hsum : freqTotal s.freq < 2 ^ 32) (hne : leafList s.freq ≠ []) :
    (s.builtMulti (leafList s.freq)).total.toNat = freqTotal s.freq := by
  have hlen := sortNodes_length s.freq s.inode (leafList s.freq)
  have hq : sortNodes s.freq s.inode (leafList s.freq) ≠ [] := by
    rwa [← List.length_pos_iff_ne_nil, hlen, List.length_pos_iff_ne_nil]
  have htop := mergeLoop_top_freq (queueFits_sortNodes s.freq s.inode hsum) hq
  rwa [hlen, queueWeight_perm _ _ (sortNodes_perm _ _ _), queueWeight_leafList] at htop

theorem State.mem_builtMulti_inode (s : State) (hsum : freqTotal s.freq < 2 ^ 32) {p : Nat × Inode}
    (hp : p ∈ (s.builtMulti (leafList s.freq)).inode) : p ∈ s.inode ∨ p.2.freq.toNat ≤ freqTotal s.freq := by
  have hmem := mergeLoop_mem _ _ _ _ (queueFits_sortNodes s.freq s.inode hsum) hp
  rwa [queueWeight_perm _ _ (sortNodes_perm _ _ _), queueWeight_leafList] at hmem

theorem State.builtMulti_inode_wf (s : State) (h : Table.wf Inode.unwritten 255 s.inode = true) :
    Table.wf Inode.unwritten 255 (s.builtMulti (leafList s.freq)).inode = true :=
  mergeLoop_wf _ _ _ _ _ (by simpa using leafList_length_le s.freq) h

theorem keepsStores_builtMulti (s : State) (hsum : freqTotal s.freq ≤ s.freqMax) (hne : leafList s.freq ≠ []) :
    KeepsStores s (s.builtMulti (leafList s.freq)) := by
  intro hs
  obtain ⟨hW, hfreq, hnode, hcode⟩ := s.storesOk_iff.1 hs
  have hlt : freqTotal s.freq < 2 ^ s.freqW := by
    have := Nat.two_pow_pos s.freqW
    rw [State.freqMax] at hsum
    omega
  have hlt32 : freqTotal s.freq < 2 ^ 32 := hlt.trans_le (Nat.pow_le_pow_right (by omega) hW.2)
  refine ⟨(State.storesOk_iff _).2 ⟨hW, hfreq, s.builtMulti_inode_wf hnode, hcode⟩, rfl, fun hw => ?_⟩
  obtain ⟨hnodes, -⟩ := s.widthsOk_iff.1 hw
  refine (State.widthsOk_iff _).2 ⟨fun p hp => ?_, ?_⟩
  · rcases s.mem_builtMulti_inode hlt32 hp with hp | hle
    · exact hnodes p hp
    · exact hle.trans_lt hlt
  · rw [s.builtMulti_total hlt32 hne]
    exact hlt

theorem keepsStores_buildFrom (s : State) (hsum : freqTotal s.freq ≤ s.freqMax) :
    KeepsStores s (s.buildFrom (leafList s.freq)) := by
  have hmulti := keepsStores_builtMulti s hsum
  match hl : leafList s.freq with
  | [] => exact fun hs => ⟨hs, rfl, id⟩
  | [leaf] => exact keepsStores_builtSingle s leaf
  | a :: b :: leaves =>
    rw [hl] at hmulti
    exact hmulti (by simp)

theorem execBuild_keepsStores {s t : State} (h : execBuild s = .next t) : KeepsStores s t := by
  rw [execBuild_next] at h
  rcases h with ⟨-, rfl⟩ | ⟨hsum, rfl⟩
  · exact ((keepsStores_invalidate s).raise _ _ _ _).retire
  · exact ((keepsStores_invalidate s).trans (keepsStores_buildFrom s.invalidate hsum)).retire

/-! ## Every operation and every step -/

theorem exec_keepsStores {i : Instr} {s t : State} (h : exec i s = .next t) : KeepsStores s t := by
  cases i
  case reset => exact execReset_keepsStores h
  case clrFreq => exact execClrFreq_keepsStores h
  case count sym => exact execCount_keepsStores h
  case wrFreq sym v => exact execWrFreq_keepsStores h
  case build => exact execBuild_keepsStores h
  case genCodes => exact execGenCodes_keepsStores h
  all_goals exact keepsStores_of_treePart (exec_treePart rfl h)

theorem keepsStores_hardwareReset (s : State) : KeepsStores s s.abandon.clearRegisters :=
  (keepsStores_of_treePart s.abandon_treePart).trans (keepsStores_clearRegisters _)

/-- The list of acts is not in the tree part, so taking one off it changes nothing here. -/
theorem step_keepsStores {s t : State} (h : step s = .next t) : KeepsStores s t := by
  obtain ⟨r, hcase⟩ := step_next h
  have hevents : KeepsStores s { s with events := r } := keepsStores_of_treePart rfl
  rcases hcase with ⟨-, rfl⟩ | ⟨i, hi⟩ | rfl | ⟨enc, dec, rfl⟩
  · exact hevents
  · exact hevents.trans (exec_keepsStores hi)
  · exact hevents.trans (keepsStores_hardwareReset _)
  · exact keepsStores_of_treePart rfl

end Sys2Proof.Machine

namespace Sys2Proof

open Sys2Proof.Machine

/-- Settles O57: six operations write the arrays, each within its bounds; BUILD's merges keep the sum of the counters,
which FREQ_MAX bounds. -/
theorem stepKeepsStores : Obligations.StepKeepsStores :=
  fun _ _ hs h => step_keepsStores h hs

end Sys2Proof
end

section
/-! Nodes seen through two arenas that agree below some record: a node made before it shows the same contents. -/

namespace Sys2Proof.Machine

theorem isLeaf_eq_false_iff (i : NodeIx) : isLeaf i = false ↔ 256 ≤ i.toNat := by
  rw [← Bool.not_eq_true, isLeaf_iff, Nat.not_lt]

section Agree

variable {n n' : Table Inode} {k : Nat} {i : NodeIx}

theorem recordOf_congr (h : ∀ j < k, inodeOf n' j = inodeOf n j) (hi : i.toNat < 256 + k)
    (hleaf : ¬ isLeaf i = true) : recordOf n' i = recordOf n i := by
  rw [isLeaf_iff] at hleaf
  exact h _ (by omega)

theorem nodeFreq_congr (f : Table Word) (h : ∀ j < k, inodeOf n' j = inodeOf n j) (hi : i.toNat < 256 + k) :
    nodeFreq f n' i = nodeFreq f n i :=
  ite_congr rfl (fun _ => rfl) fun hleaf => congrArg Inode.freq (recordOf_congr h hi hleaf)

theorem nodeRep_congr (h : ∀ j < k, inodeOf n' j = inodeOf n j) (hi : i.toNat < 256 + k) :
    nodeRep n' i = nodeRep n i :=
  ite_congr rfl (fun _ => rfl) fun hleaf => congrArg Inode.rep (recordOf_congr h hi hleaf)

theorem nodeLeft_congr (h : ∀ j < k, inodeOf n' j = inodeOf n j) (hi : i.toNat < 256 + k) :
    nodeLeft n' i = nodeLeft n i :=
  ite_congr rfl (fun _ => rfl) fun hleaf => congrArg Inode.left (recordOf_congr h hi hleaf)

theorem nodeRight_congr (h : ∀ j < k, inodeOf n' j = inodeOf n j) (hi : i.toNat < 256 + k) :
    nodeRight n' i = nodeRight n i :=
  ite_congr rfl (fun _ => rfl) fun hleaf => congrArg Inode.right (recordOf_congr h hi hleaf)

end Agree

/-- A merge leaves the records before its own. -/
theorem inodeOf_mergedArena_of_lt (f : Table Word) (n : Table Inode) {j k : Nat} (a b : NodeIx) (hj : j < k) :
    inodeOf (mergedArena f n k a b) j = inodeOf n j := by
  rw [mergedArena, inodeOf_setInode, if_neg (by omega)]

end Sys2Proof.Machine
end

section
/-! What the merge loop makes of a queue of counted nodes: every record is a merge of two nodes made before it, and
the last one is the root (42_tree_builder.md R124, R126, R128). -/

namespace Sys2Proof.Machine

/-- A node that may stand in BUILD's queue: an internal node, or the leaf of a symbol that occurs. -/
def Counted (f : Table Word) (i : NodeIx) : Prop := i.toNat < 256 → freqOf f (i.setWidth 8) ≠ 0#32

theorem counted_internalIx (f : Table Word) {k : Nat} (hk : k ≤ 255) : Counted f (internalIx k) := by
  intro h
  rw [internalIx_toNat hk] at h
  omega

/-- Record `k` is a merge of two nodes made before it (10_state.md R33). -/
structure MergeOk (f : Table Word) (n : Table Inode) (k : Nat) : Prop where
  leftMade     : (inodeOf n k).left.toNat < 256 + k
  rightMade    : (inodeOf n k).right.toNat < 256 + k
  leftCounted  : Counted f (inodeOf n k).left
  rightCounted : Counted f (inodeOf n k).right
  freq : (inodeOf n k).freq.toNat
    = (nodeFreq f n (inodeOf n k).left).toNat + (nodeFreq f n (inodeOf n k).right).toNat
  rep  : (inodeOf n k).rep.toNat
    = min (nodeRep n (inodeOf n k).left).toNat (nodeRep n (inodeOf n k).right).toNat

/-- A merge reads its own record and those before it only. -/
theorem MergeOk.congr {f : Table Word} {n n' : Table Inode} {k : Nat} (hk : MergeOk f n k)
    (h : ∀ j < k + 1, inodeOf n' j = inodeOf n j) : MergeOk f n' k := by
  have hself := h k (by omega)
  have hbelow : ∀ j < k, inodeOf n' j = inodeOf n j := fun j hj => h j (by omega)
  constructor
  all_goals rw [hself]
  · exact hk.leftMade
  · exact hk.rightMade
  · exact hk.leftCounted
  · exact hk.rightCounted
  · rw [nodeFreq_congr f hbelow hk.leftMade, nodeFreq_congr f hbelow hk.rightMade]
    exact hk.freq
  · rw [nodeRep_congr hbelow hk.leftMade, nodeRep_congr hbelow hk.rightMade]
    exact hk.rep

theorem mergeRecord_rep_toNat (f : Table Word) (n : Table Inode) (a b : NodeIx) :
    (mergeRecord f n a b).rep.toNat = min (nodeRep n a).toNat (nodeRep n b).toNat := by
  simp only [mergeRecord]
  split <;> omega

section OneMerge

variable {f : Table Word} {n : Table Inode} {k : Nat} {a b : NodeIx} {q : List NodeIx}

theorem mergedArena_mergeOk (h : QueueFits f n k (a :: b :: q)) (hc : ∀ i ∈ a :: b :: q, Counted f i) :
    MergeOk f (mergedArena f n k a b) k := by
  have hrec : inodeOf (mergedArena f n k a b) k = mergeRecord f n a b := by
    rw [mergedArena, inodeOf_setInode, if_pos rfl]
  have hbelow : ∀ j < k, inodeOf (mergedArena f n k a b) j = inodeOf n j :=
    fun j hj => inodeOf_mergedArena_of_lt f n a b hj
  have ha : a.toNat < 256 + k := h.made a (by simp)
  have hb : b.toNat < 256 + k := h.made b (by simp)
  constructor
  all_goals rw [hrec]
  · exact ha
  · exact hb
  · exact hc a (by simp)
  · exact hc b (by simp)
  · change _ = (nodeFreq f _ a).toNat + (nodeFreq f _ b).toNat
    rw [nodeFreq_congr f hbelow ha, nodeFreq_congr f hbelow hb]
    exact mergeRecord_freq_toNat h
  · change _ = min (nodeRep _ a).toNat (nodeRep _ b).toNat
    rw [nodeRep_congr hbelow ha, nodeRep_congr hbelow hb]
    exact mergeRecord_rep_toNat f n a b

theorem mergedQueue_counted (h : QueueFits f n k (a :: b :: q)) (hc : ∀ i ∈ a :: b :: q, Counted f i) :
    ∀ i ∈ mergedQueue f n k a b q, Counted f i := by
  intro i hi
  have hroom := h.room_rest
  rcases List.mem_cons.1 ((insertNode_perm _ _ _ _).mem_iff.1 hi) with rfl | hi
  · exact counted_internalIx f (by omega)
  · exact hc i (by simp [hi])

@[simp] theorem mergedQueue_length : (mergedQueue f n k a b q).length = q.length + 1 := insertNode_length _ _ _ _

end OneMerge

/-- Every merge of the loop makes a record as 10_state.md R33 asks. -/
theorem mergeLoop_mergeOk {f : Table Word} : ∀ (rounds k : Nat) (n : Table Inode) (q : List NodeIx),
    QueueFits f n k q → (∀ i ∈ q, Counted f i) → q.length ≤ rounds →
      ∀ j, k ≤ j → j + 1 < k + q.length → MergeOk f (mergeLoop f rounds k n q).1 j
  | _, _, _, [], _, _, _, j, hkj, hj => by
    simp only [List.length_nil] at hj
    omega
  | _, _, _, [_], _, _, _, j, hkj, hj => by
    simp only [List.length_singleton] at hj
    omega
  | 0, _, _, _ :: _ :: _, _, _, hr, _, _, _ => by simp at hr
  | rounds + 1, k, n, a :: b :: q, h, hc, hr, j, hkj, hj => by
    simp only [List.length_cons] at hr hj
    rw [mergeLoop_merge]
    rcases Nat.eq_or_lt_of_le hkj with rfl | hlt
    · exact (mergedArena_mergeOk h hc).congr fun i hi => mergeLoop_below f rounds (k + 1) _ _ i hi
    · exact mergeLoop_mergeOk rounds (k + 1) _ _ h.merge (mergedQueue_counted h hc)
        (by rw [mergedQueue_length]; omega) j hlt (by rw [mergedQueue_length]; omega)

/-- A full loop of at least one merge leaves the last internal node it made. -/
theorem mergeLoop_queue (f : Table Word) : ∀ (rounds k : Nat) (n : Table Inode) (q : List NodeIx),
    2 ≤ q.length → q.length ≤ rounds → (mergeLoop f rounds k n q).2 = [internalIx (k + q.length - 2)]
  | _, _, _, [], h2, _ => by simp at h2
  | _, _, _, [_], h2, _ => by simp at h2
  | 0, _, _, _ :: _ :: _, _, hr => by simp at hr
  | rounds + 1, k, n, a :: b :: q, _, hr => by
    simp only [List.length_cons] at hr
    rw [mergeLoop_merge]
    cases q with
    | nil => cases rounds <;> rfl
    | cons c q =>
      rw [mergeLoop_queue f rounds (k + 1) _ _ (by simp) (by simp at hr ⊢; omega), mergedQueue_length]
      simp only [List.length_cons]
      congr 2
      omega

end Sys2Proof.Machine
end

section
/-! The leaves BUILD starts from, and the bullets of 10_state.md R33 on TREE_STATE after BUILD. -/

namespace Sys2Proof.Machine

/-! ## The leaf list -/

theorem mem_symbols (x : Byte) : x ∈ symbols :=
  List.mem_map.2 ⟨x.toNat, List.mem_range.2 x.isLt, by simp⟩

theorem mem_leafList {f : Table Word} {i : NodeIx} : i ∈ leafList f ↔ ∃ x, freqOf f x ≠ 0#32 ∧ leafIx x = i := by
  simp [leafList, mem_symbols]

theorem leafIx_setWidth (x : Byte) : (leafIx x).setWidth 8 = x := by
  simp [leafIx]

theorem leafIx_injective {x y : Byte} (h : leafIx x = leafIx y) : x = y := by
  rw [← leafIx_setWidth x, h, leafIx_setWidth]

theorem counted_of_mem_leafList {f : Table Word} {i : NodeIx} (h : i ∈ leafList f) : Counted f i := by
  obtain ⟨x, hx, rfl⟩ := mem_leafList.1 h
  intro _
  rwa [leafIx_setWidth]

theorem freqOf_eq_zero_of_leafList_nil {f : Table Word} (h : leafList f = []) (x : Byte) : freqOf f x = 0#32 := by
  by_contra hx
  have hmem : leafIx x ∈ leafList f := mem_leafList.2 ⟨x, hx, rfl⟩
  simp [h] at hmem

/-- A leaf list of one node is that of the only symbol that occurs. -/
theorem exists_of_leafList_singleton {f : Table Word} {leaf : NodeIx} (h : leafList f = [leaf]) :
    ∃ x, leaf = leafIx x ∧ freqOf f x ≠ 0#32 ∧ ∀ y, y ≠ x → freqOf f y = 0#32 := by
  obtain ⟨x, hx, rfl⟩ : ∃ x, freqOf f x ≠ 0#32 ∧ leafIx x = leaf := mem_leafList.1 (by simp [h])
  refine ⟨x, rfl, hx, fun y hyx => ?_⟩
  by_contra hy
  have hmem : leafIx y ∈ leafList f := mem_leafList.2 ⟨y, hy, rfl⟩
  rw [h, List.mem_singleton] at hmem
  exact hyx (leafIx_injective hmem)

theorem sortNodes_counted (f : Table Word) (n : Table Inode) :
    ∀ i ∈ sortNodes f n (leafList f), Counted f i :=
  fun _ hi => counted_of_mem_leafList ((sortNodes_perm f n _).mem_iff.1 hi)

/-! ## The invariant by TREE_STATE -/

theorem State.treeRegsOk_none {s : State} (h : s.treeState = .none) : s.treeRegsOk ↔
    s.nsym = 0#9 ∧ s.root = 0x1FF#9 ∧ s.total = 0#32 ∧ s.codesValid = false ∧ s.decState = .idle := by
  rw [State.treeRegsOk, h]

theorem State.treeRegsOk_empty {s : State} (h : s.treeState = .empty) : s.treeRegsOk ↔
    s.nsym = 0#9 ∧ s.root = 0x1FF#9 ∧ s.total = 0#32 ∧ ∀ x : Byte, s.freqAt x = 0#32 := by
  rw [State.treeRegsOk, h]

theorem State.treeRegsOk_single {s : State} (h : s.treeState = .single) : s.treeRegsOk ↔
    s.nsym = 1#9 ∧ ∃ x : Byte, s.root = leafIx x ∧ s.freqAt x ≠ 0#32 ∧
      (∀ y : Byte, y ≠ x → s.freqAt y = 0#32) ∧ s.total = s.freqAt x := by
  rw [State.treeRegsOk, h]
  rfl

theorem State.treeRegsOk_multi {s : State} (h : s.treeState = .multi) : s.treeRegsOk ↔
    2 ≤ s.nsym.toNat ∧ s.nsym.toNat ≤ 256 ∧ s.root.toNat = 256 + s.nsym.toNat - 2 ∧
      s.total = nodeFreq s.freq s.inode s.root ∧ s.total.toNat = freqTotal s.freq := by
  rw [State.treeRegsOk, h]
  rfl

/-! ## BUILD of two or more leaves -/

theorem State.builtMulti_nsym (s : State) :
    (s.builtMulti (leafList s.freq)).nsym.toNat = (leafList s.freq).length := by
  have hlen := leafList_length_le s.freq
  change (BitVec.ofNat 9 _).toNat = _
  rw [BitVec.toNat_ofNat]
  omega

theorem State.builtMulti_nint (s : State) :
    (s.builtMulti (leafList s.freq)).nint = (leafList s.freq).length - 1 :=
  congrArg (· - 1) s.builtMulti_nsym

theorem State.builtMulti_root {s : State} (h2 : 2 ≤ (leafList s.freq).length) :
    (s.builtMulti (leafList s.freq)).root = internalIx ((leafList s.freq).length - 2) := by
  have htop := mergeLoop_queue s.freq (leafList s.freq).length 0 s.inode
    (sortNodes s.freq s.inode (leafList s.freq)) (by simpa using h2) (by simp)
  rw [sortNodes_length, Nat.zero_add] at htop
  exact congrArg (List.headD · 0x1FF#9) htop

theorem State.builtMulti_treeRegsOk {s : State} (h2 : 2 ≤ (leafList s.freq).length)
    (hsum : freqTotal s.freq < 2 ^ 32) : (s.builtMulti (leafList s.freq)).treeRegsOk := by
  have hlen := leafList_length_le s.freq
  have hne : leafList s.freq ≠ [] := List.ne_nil_of_length_pos (by omega)
  have hroot : (s.builtMulti (leafList s.freq)).root.toNat = 256 + (leafList s.freq).length - 2 := by
    rw [State.builtMulti_root h2, internalIx_toNat (by omega)]
    omega
  rw [State.treeRegsOk_multi rfl, s.builtMulti_nsym]
  exact ⟨h2, hlen, hroot, rfl, s.builtMulti_total hsum hne⟩

/-! ## BUILD of any number of leaves -/

theorem State.builtSingle_treeRegsOk {s : State} {leaf : NodeIx} (h : leafList s.freq = [leaf]) :
    (s.builtSingle leaf).treeRegsOk := by
  obtain ⟨x, rfl, hx, hother⟩ := exists_of_leafList_singleton h
  rw [State.treeRegsOk_single rfl]
  exact ⟨rfl, x, rfl, hx, hother, nodeFreq_leafIx s.freq s.inode x⟩

/-- BUILD's tree meets the bullets from an invalidated state. -/
theorem State.buildFrom_treeRegsOk {s : State} (hsum : freqTotal s.freq < 2 ^ 32) :
    ∀ l, leafList s.freq = l → (s.invalidate.buildFrom l).treeRegsOk
  | [], hl => (State.treeRegsOk_empty rfl).2 ⟨rfl, rfl, rfl, freqOf_eq_zero_of_leafList_nil hl⟩
  | [_], hl => State.builtSingle_treeRegsOk (s := s.invalidate) hl
  | a :: b :: l, hl => by
    change (s.invalidate.builtMulti (a :: b :: l)).treeRegsOk
    rw [← hl]
    exact State.builtMulti_treeRegsOk (s := s.invalidate) (by simp [hl]) hsum

end Sys2Proof.Machine
end

section
/-! The decoder's bracket: what an operation that leaves the tree alone can do to DEC_STATE and CUR. -/

namespace Sys2Proof.Machine

/-- The four things such an operation can do to the bracket: nothing, open it at the root (44_decoder.md R160), walk
one edge (R161), or leave ACTIVE (R161, R162). -/
inductive BracketMove (s t : State) : Prop where
  | stay (hdec : t.decState = s.decState) (hcur : t.cur = s.cur)
  | opened (htree : s.treeState ≠ .none) (hcur : t.cur = s.root)
  | walked (chr : Byte) (nxt : NodeIx) (hactive : s.decState = .active)
      (htree : ¬ (s.treeState = .empty ∨ s.treeState = .single)) (hnext : nextNode s.inode s.cur chr = some nxt)
      (hcur : t.cur = if isLeaf nxt then s.root else nxt)
  | closed (hactive : s.decState = .active) (hdec : t.decState ≠ .active)

theorem execDecStart_bracketMove {s t : State} (h : execDecStart s = .next t) : BracketMove s t := by
  rw [execDecStart_next] at h
  rcases h with ⟨-, rfl⟩ | ⟨htree, rfl⟩
  · exact .stay rfl rfl
  · exact .opened htree rfl

theorem execDecChar_bracketMove {chr : Byte} {s t : State} (h : execDecChar chr s = .next t) : BracketMove s t := by
  rw [execDecChar_next] at h
  rcases h with ⟨-, rfl⟩ | ⟨-, -, rfl⟩ | ⟨ha, htree, ⟨nxt, hnext, hmove⟩ | ⟨-, rfl⟩⟩
  · exact .stay rfl rfl
  · exact .stay rfl rfl
  · rcases hmove with ⟨hleaf, -, rfl⟩ | ⟨-, -, rfl⟩ | ⟨hleaf, rfl⟩
    · exact .walked chr nxt ha htree hnext (by simp [hleaf])
    · exact .stay rfl rfl
    · exact .walked chr nxt ha htree hnext (by simp [hleaf])
  · exact .closed ha (by simp)

theorem execDecEnd_bracketMove {s t : State} (h : execDecEnd s = .next t) : BracketMove s t := by
  rw [execDecEnd_next] at h
  rcases h with ⟨-, rfl⟩ | ⟨ha, -, ⟨-, rfl⟩ | ⟨-, -, rfl⟩⟩ | ⟨ha, -, rfl⟩ | ⟨ha, -, -, rfl⟩
  · exact .stay rfl rfl
  · exact .closed ha (by simp)
  · exact .stay rfl rfl
  · exact .closed ha (by simp)
  · exact .closed ha (by simp)

/-- Outside the decoder, an operation that leaves the tree alone leaves the bracket alone too. -/
theorem exec_bracketMove {i : Instr} (hi : i.writesTree = false) {s t : State} (h : exec i s = .next t) :
    BracketMove s t := by
  cases i
  case reset | clrFreq | count | wrFreq | build | genCodes => cases hi
  case decStart => exact execDecStart_bracketMove h
  case decChar chr => exact execDecChar_bracketMove h
  case decEnd => exact execDecEnd_bracketMove h
  all_goals
    have hkept : t.decState = s.decState ∧ t.cur = s.cur := by
      clear hi
      revert h
      simp +contextual [exec, or_imp]
    exact .stay hkept.1 hkept.2

/-- Without a tree and without a bracket, no such operation opens one. -/
theorem BracketMove.idle {s t : State} (h : BracketMove s t) (htree : s.treeState = .none)
    (hidle : s.decState = .idle) : t.decState = .idle := by
  cases h with
  | stay hdec => rw [hdec, hidle]
  | opened hne => exact absurd htree hne
  | walked _ _ hactive | closed hactive => simp [hidle] at hactive

end Sys2Proof.Machine
end

section
/-! O58: the bullets of 10_state.md R33 on TREE_STATE, kept by every operation and every step. -/

namespace Sys2Proof.Machine

theorem lt_two_pow_of_le_freqMax {s : State} {m : Nat} (hW : s.freqW ≤ 32) (h : m ≤ s.freqMax) : m < 2 ^ 32 := by
  have hpos := Nat.two_pow_pos s.freqW
  have hle : 2 ^ s.freqW ≤ 2 ^ 32 := Nat.pow_le_pow_right (by omega) hW
  rw [State.freqMax] at h
  omega

/-- The bullets read DEC_STATE and CODES_VALID only while there is no tree, and CODE never. -/
theorem State.treeRegsOk_update {s : State} (d : DecState) (v : Bool) (c : Table CodeEntry)
    (hnone : s.treeState = .none → s.codesValid = false → s.decState = .idle → v = false ∧ d = .idle)
    (hs : s.treeRegsOk) : ({ s with decState := d, codesValid := v, code := c } : State).treeRegsOk := by
  cases hts : s.treeState
  case none =>
    obtain ⟨hnsym, hroot, htotal, hcodes, hdec⟩ := (State.treeRegsOk_none hts).1 hs
    exact (State.treeRegsOk_none rfl).2 ⟨hnsym, hroot, htotal, hnone hts hcodes hdec⟩
  case empty => exact (State.treeRegsOk_empty rfl).2 ((State.treeRegsOk_empty hts).1 hs)
  case single => exact (State.treeRegsOk_single rfl).2 ((State.treeRegsOk_single hts).1 hs)
  case multi => exact (State.treeRegsOk_multi rfl).2 ((State.treeRegsOk_multi hts).1 hs)

/-- The bullets read the tree part and DEC_STATE only. -/
theorem State.treeRegsOk_of_treePart {s t : State} (h : t.treePart = s.treePart)
    (hidle : s.treeState = .none → s.decState = .idle → t.decState = .idle) (hs : s.treeRegsOk) : t.treeRegsOk := by
  have hset : ({ s with decState := t.decState } : State).treeRegsOk :=
    State.treeRegsOk_update t.decState s.codesValid s.code (fun hn hc hd => ⟨hc, hidle hn hd⟩) hs
  have hpart : ({ s.treePart with decState := t.decState } : State).treeRegsOk := hset
  rwa [← h] at hpart

theorem State.invalidate_treeRegsOk (s : State) : s.invalidate.treeRegsOk := ⟨rfl, rfl, rfl, rfl, rfl⟩

theorem State.clearRegisters_treeRegsOk (s : State) : s.clearRegisters.treeRegsOk := ⟨rfl, rfl, rfl, rfl, rfl⟩

theorem State.retire_treeRegsOk {s : State} (h : s.treeRegsOk) : s.retire.treeRegsOk := h

/-! ## The six operations that write the tree part -/

theorem execCount_treeRegsOk {sym : Byte} {s t : State} (hs : s.treeRegsOk) (h : execCount sym s = .next t) :
    t.treeRegsOk := by
  rw [execCount_next] at h
  rcases h with ⟨-, rfl⟩ | ⟨-, rfl⟩
  · exact hs
  · exact State.retire_treeRegsOk (s.setFreq sym _).invalidate_treeRegsOk

theorem execWrFreq_treeRegsOk {sym : Byte} {v : Word} {s t : State} (hs : s.treeRegsOk)
    (h : execWrFreq sym v s = .next t) : t.treeRegsOk := by
  rw [execWrFreq_next] at h
  rcases h with ⟨-, rfl⟩ | ⟨-, rfl⟩
  · exact (s.setFreq sym _).invalidate_treeRegsOk
  · exact hs

theorem execBuild_treeRegsOk {s t : State} (hW : s.freqW ≤ 32) (h : execBuild s = .next t) : t.treeRegsOk := by
  rw [execBuild_next] at h
  rcases h with ⟨-, rfl⟩ | ⟨hsum, rfl⟩
  · exact s.invalidate_treeRegsOk
  · exact State.buildFrom_treeRegsOk (lt_two_pow_of_le_freqMax hW hsum) _ rfl

/-- CODE and CODES_VALID are in the bullets only while there is no tree. -/
theorem execGenCodes_treeRegsOk {s t : State} (hs : s.treeRegsOk) (h : execGenCodes s = .next t) :
    t.treeRegsOk := by
  rw [execGenCodes_next] at h
  rcases h with ⟨-, rfl⟩ | ⟨hne, rfl⟩
  · exact hs
  · exact State.retire_treeRegsOk (State.treeRegsOk_update _ _ _ (fun hn => absurd hn hne) hs)

/-! ## Every operation and every step -/

theorem exec_treeRegsOk {i : Instr} {s t : State} (hW : s.freqW ≤ 32) (hs : s.treeRegsOk)
    (h : exec i s = .next t) : t.treeRegsOk := by
  have frame (hi : i.writesTree = false) : t.treeRegsOk :=
    State.treeRegsOk_of_treePart (exec_treePart hi h) (exec_bracketMove hi h).idle hs
  cases i
  case reset =>
    rw [execReset_next.1 h]
    exact s.clearRegisters_treeRegsOk
  case clrFreq =>
    rw [execClrFreq_next.1 h]
    exact State.invalidate_treeRegsOk { s with freq := [] }
  case count sym => exact execCount_treeRegsOk hs h
  case wrFreq sym v => exact execWrFreq_treeRegsOk hs h
  case build => exact execBuild_treeRegsOk hW h
  case genCodes => exact execGenCodes_treeRegsOk hs h
  all_goals exact frame rfl

theorem State.freqW_le_of_storesOk {s : State} (h : s.storesOk = true) : s.freqW ≤ 32 := by
  obtain ⟨⟨-, hW⟩, -⟩ := s.storesOk_iff.1 h
  exact hW

end Sys2Proof.Machine

namespace Sys2Proof

open Sys2Proof.Machine

/-- Settles O58: INVALIDATE and the resets leave no tree, BUILD's last merge is the root and carries the sum of the
counters, and every other operation leaves the tree part alone. -/
theorem stepKeepsTreeRegisters : Obligations.StepKeepsTreeRegisters := by
  intro s t hstores hs h
  obtain ⟨r, ⟨-, rfl⟩ | ⟨i, hi⟩ | rfl | ⟨enc, dec, rfl⟩⟩ := step_next h
  · exact hs
  · exact exec_treeRegsOk (s := { s with events := r }) (State.freqW_le_of_storesOk hstores) hs hi
  · exact State.clearRegisters_treeRegsOk _
  · exact hs

end Sys2Proof
end

section
/-! O59: the tree's nodes, the walk of an open bracket on an internal node, and the code table of the tree, kept by
every operation and every step. -/

namespace Sys2Proof.Machine

/-! ## Valid nodes -/

/-- `i` is an internal node of the tree: where the walk of an open bracket stands (44_decoder.md R165). -/
def State.OnInternal (s : State) (i : NodeIx) : Prop := 256 ≤ i.toNat ∧ i.toNat - 256 < s.nint

theorem State.nint_multi {s : State} (h : s.treeState = .multi) : s.nint = s.nsym.toNat - 1 := if_pos h

theorem State.nint_eq_zero {s : State} (h : s.treeState ≠ .multi) : s.nint = 0 := if_neg h

theorem State.nodeValid_leaf {s : State} {i : NodeIx} (h : i.toNat < 256) :
    s.nodeValid i = true ↔
      (s.treeState = .single ∨ s.treeState = .multi) ∧ s.freqAt (i.setWidth 8) ≠ 0#32 := by
  have h1 : i.toNat ≤ 255 := by omega
  have h2 : ¬ 256 ≤ i.toNat := by omega
  simp [State.nodeValid, h1, h2]

theorem State.nodeValid_internal {s : State} {i : NodeIx} (h : 256 ≤ i.toNat) :
    s.nodeValid i = true ↔ i.toNat ≤ 510 ∧ s.treeState = .multi ∧ i.toNat - 256 < s.nint := by
  have h1 : ¬ i.toNat ≤ 255 := by omega
  simp [State.nodeValid, h, h1, and_assoc]

theorem State.onInternal_of_nodeValid {s : State} {i : NodeIx} (h : s.nodeValid i = true)
    (hleaf : isLeaf i = false) : s.OnInternal i := by
  have hi := (isLeaf_eq_false_iff i).1 hleaf
  obtain ⟨-, -, hlt⟩ := (State.nodeValid_internal hi).1 h
  exact ⟨hi, hlt⟩

theorem State.onInternal_root {s : State} (hs : s.treeRegsOk) (hm : s.treeState = .multi) : s.OnInternal s.root := by
  obtain ⟨h2, -, hroot, -⟩ := (State.treeRegsOk_multi hm).1 hs
  rw [State.OnInternal, State.nint_multi hm]
  omega

/-- A walk from an internal node stays in the tree (44_decoder.md R165). -/
theorem State.nextNode_valid {s : State} (hnodes : ∀ k, k < s.nint → s.nodeOk k) {i nxt : NodeIx}
    (hi : s.OnInternal i) {chr : Byte} (hnext : nextNode s.inode i chr = some nxt) : s.nodeValid nxt = true := by
  obtain ⟨h256, hlt⟩ := hi
  obtain ⟨hleft, hright, -⟩ := hnodes _ hlt
  have hleaf : ¬ isLeaf i = true := by
    rw [isLeaf_iff]
    omega
  rw [nextNode, nodeLeft, nodeRight, if_neg hleaf, if_neg hleaf] at hnext
  split at hnext
  · rw [← Option.some.inj hnext]
    exact hleft
  · split at hnext
    · rw [← Option.some.inj hnext]
      exact hright
    · cases hnext

/-! ## The three parts of the invariant -/

/-- The nodes and the code table are in the tree part, so such an operation need only keep the walk in the tree. -/
theorem State.treeOk_of_treePart {s t : State} (h : t.treePart = s.treePart) (hs : s.treeOk)
    (hcur : s.treeState = .multi → t.decState = .active → s.OnInternal t.cur) : t.treeOk := by
  obtain ⟨hnodes, -, hcodes⟩ := hs
  have hpart : ({ s.treePart with decState := t.decState, cur := t.cur } : State).treeOk := ⟨hnodes, hcur, hcodes⟩
  rwa [← h] at hpart

theorem BracketMove.onInternal {s t : State} (h : BracketMove s t) (hregs : s.treeRegsOk) (hs : s.treeOk)
    (hm : s.treeState = .multi) (ha : t.decState = .active) : s.OnInternal t.cur := by
  obtain ⟨hnodes, hwalk, -⟩ := hs
  have hroot := State.onInternal_root hregs hm
  cases h with
  | stay hdec hcur =>
    rw [hcur]
    exact hwalk hm (hdec ▸ ha)
  | opened _ hcur =>
    rw [hcur]
    exact hroot
  | walked chr nxt hactive _ hnext hcur =>
    rw [hcur]
    cases hleaf : isLeaf nxt
    · exact State.onInternal_of_nodeValid (State.nextNode_valid hnodes (hwalk hm hactive) hnext) hleaf
    · exact hroot
  | closed _ hdec => exact absurd ha hdec

/-- A state without internal nodes and without codes holds nothing to keep. -/
theorem State.treeOk_of_ne_multi {s : State} (hm : s.treeState ≠ .multi) (hc : s.codesValid = false) : s.treeOk := by
  refine ⟨fun k hk => ?_, fun h => absurd h hm, fun h => ?_⟩
  · rw [State.nint_eq_zero hm] at hk
    exact absurd hk (Nat.not_lt_zero k)
  · simp [hc] at h

theorem State.invalidate_treeOk (s : State) : s.invalidate.treeOk :=
  State.treeOk_of_ne_multi (by simp) rfl

theorem State.clearRegisters_treeOk (s : State) : s.clearRegisters.treeOk :=
  State.treeOk_of_ne_multi (by simp) rfl

theorem State.retire_treeOk {s : State} (h : s.treeOk) : s.retire.treeOk := h

/-! ## BUILD -/

theorem Counted.nodeValid {s : State} (hm : s.treeState = .multi) (hn : s.nint ≤ 255) {i : NodeIx} {k : Nat}
    (hc : Counted s.freq i) (hi : i.toNat < 256 + k) (hk : k < s.nint) : s.nodeValid i = true := by
  by_cases hleaf : i.toNat < 256
  · exact (State.nodeValid_leaf hleaf).2 ⟨.inr hm, hc hleaf⟩
  · exact (State.nodeValid_internal (by omega)).2 ⟨by omega, hm, by omega⟩

theorem MergeOk.nodeOk {s : State} (hm : s.treeState = .multi) (hn : s.nint ≤ 255) {k : Nat} (hk : k < s.nint)
    (h : MergeOk s.freq s.inode k) : s.nodeOk k :=
  ⟨h.leftCounted.nodeValid hm hn h.leftMade hk, h.rightCounted.nodeValid hm hn h.rightMade hk,
    h.leftMade, h.rightMade, h.freq, h.rep⟩

theorem State.builtMulti_nodeOk {s : State} (hsum : freqTotal s.freq < 2 ^ 32) {k : Nat}
    (hk : k < (s.builtMulti (leafList s.freq)).nint) : (s.builtMulti (leafList s.freq)).nodeOk k := by
  have hlen := leafList_length_le s.freq
  have hnint := s.builtMulti_nint
  refine MergeOk.nodeOk rfl (by omega) hk ?_
  refine mergeLoop_mergeOk _ 0 s.inode _ (queueFits_sortNodes _ _ hsum) (sortNodes_counted _ _) ?_ k
    (Nat.zero_le k) ?_
  · rw [sortNodes_length]
  · rw [sortNodes_length]
    omega

theorem State.buildFrom_treeOk {s : State} (hsum : freqTotal s.freq < 2 ^ 32) :
    ∀ l, leafList s.freq = l → (s.invalidate.buildFrom l).treeOk
  | [], _ => State.treeOk_of_ne_multi (by simp [State.buildFrom_treeState]) rfl
  | [_], _ => State.treeOk_of_ne_multi (by simp [State.buildFrom_treeState]) rfl
  | a :: b :: l, hl => by
    change (s.invalidate.builtMulti (a :: b :: l)).treeOk
    rw [← hl]
    refine ⟨fun k hk => State.builtMulti_nodeOk (s := s.invalidate) hsum hk, fun _ hactive => ?_, fun hcodes => ?_⟩
    · cases hactive
    · cases hcodes

/-! ## The six operations that write the tree part -/

theorem execCount_treeOk {sym : Byte} {s t : State} (hs : s.treeOk) (h : execCount sym s = .next t) : t.treeOk := by
  rw [execCount_next] at h
  rcases h with ⟨-, rfl⟩ | ⟨-, rfl⟩
  · exact hs
  · exact State.retire_treeOk (s.setFreq sym _).invalidate_treeOk

theorem execWrFreq_treeOk {sym : Byte} {v : Word} {s t : State} (hs : s.treeOk)
    (h : execWrFreq sym v s = .next t) : t.treeOk := by
  rw [execWrFreq_next] at h
  rcases h with ⟨-, rfl⟩ | ⟨-, rfl⟩
  · exact (s.setFreq sym _).invalidate_treeOk
  · exact hs

theorem execBuild_treeOk {s t : State} (hW : s.freqW ≤ 32) (h : execBuild s = .next t) : t.treeOk := by
  rw [execBuild_next] at h
  rcases h with ⟨-, rfl⟩ | ⟨hsum, rfl⟩
  · exact s.invalidate_treeOk
  · exact State.retire_treeOk (State.buildFrom_treeOk (lt_two_pow_of_le_freqMax hW hsum) _ rfl)

/-- GEN_CODES makes the table the invariant names, of the tree it leaves alone (43_code_table.md R140). -/
theorem execGenCodes_treeOk {s t : State} (hs : s.treeOk) (h : execGenCodes s = .next t) : t.treeOk := by
  rw [execGenCodes_next] at h
  rcases h with ⟨-, rfl⟩ | ⟨-, rfl⟩
  · exact hs
  · obtain ⟨hnodes, hwalk, -⟩ := hs
    exact ⟨hnodes, hwalk, fun _ => rfl⟩

/-! ## Every operation -/

theorem exec_treeOk {i : Instr} {s t : State} (hW : s.freqW ≤ 32) (hregs : s.treeRegsOk) (hs : s.treeOk)
    (h : exec i s = .next t) : t.treeOk := by
  have frame (hi : i.writesTree = false) : t.treeOk :=
    State.treeOk_of_treePart (exec_treePart hi h) hs ((exec_bracketMove hi h).onInternal hregs hs)
  cases i
  case reset =>
    rw [execReset_next.1 h]
    exact s.clearRegisters_treeOk
  case clrFreq =>
    rw [execClrFreq_next.1 h]
    exact State.invalidate_treeOk { s with freq := [] }
  case count sym => exact execCount_treeOk hs h
  case wrFreq sym v => exact execWrFreq_treeOk hs h
  case build => exact execBuild_treeOk hW h
  case genCodes => exact execGenCodes_treeOk hs h
  all_goals exact frame rfl

end Sys2Proof.Machine

namespace Sys2Proof

open Sys2Proof.Machine

/-- Settles O59: every merge of BUILD makes a record of two valid nodes made before it, a walk from a valid internal
node reaches a valid node, and what drops the tree drops the codes. -/
theorem stepKeepsTree : Obligations.StepKeepsTree := by
  intro s t hstores hregs hs h
  obtain ⟨r, ⟨-, rfl⟩ | ⟨i, hi⟩ | rfl | ⟨enc, dec, rfl⟩⟩ := step_next h
  · exact hs
  · exact exec_treeOk (s := { s with events := r }) (State.freqW_le_of_storesOk hstores) hregs hs hi
  · exact State.clearRegisters_treeOk _
  · exact hs

end Sys2Proof
end

section
/-! Words as numbers: a field of a word, a word of two fields, the CODE window's words and STATUS. -/

namespace Sys2Proof

theorem extractLsb'_toNat_eq_div {m : Nat} (x : BitVec m) (lo n : Nat) :
    (x.extractLsb' lo n).toNat = x.toNat / 2 ^ lo % 2 ^ n := by
  rw [BitVec.extractLsb'_toNat, Nat.shiftRight_eq_div_pow]

theorem extractLsb'_eq_ofNat {m : Nat} (x : BitVec m) (lo n : Nat) :
    x.extractLsb' lo n = BitVec.ofNat n (x.toNat / 2 ^ lo % 2 ^ n) := by
  rw [← extractLsb'_toNat_eq_div, BitVec.ofNat_toNat, BitVec.setWidth_eq]

theorem extractLsb'_eq_iff {m n : Nat} (x : BitVec m) (lo : Nat) (v : BitVec n) :
    x.extractLsb' lo n = v ↔ x.toNat / 2 ^ lo % 2 ^ n = v.toNat := by
  rw [← BitVec.toNat_inj, extractLsb'_toNat_eq_div]

theorem getLsbD_eq_of_toNat {m : Nat} {x : BitVec m} {i : Nat} {b : Bool} (h : x.toNat / 2 ^ i % 2 = b.toNat) :
    x.getLsbD i = b := by
  rw [BitVec.getLsbD, Nat.testBit_eq_decide_div_mod_eq, h]
  cases b <;> rfl

/-- A word of two fields, the lower one at bit 0. -/
theorem atBit_or_atBit_zero {n m : Nat} (lo : Nat) (v : BitVec n) (w : BitVec m) (hw : m ≤ lo) (hv : lo + n ≤ 32) :
    atBit lo v ||| atBit 0 w = BitVec.ofNat 32 (w.toNat + 2 ^ lo * v.toNat) := by
  have h0 := atBit_zero_toNat w (by omega)
  have hlt : w.toNat < 2 ^ lo := w.isLt.trans_le (Nat.pow_le_pow_right (by omega) hw)
  have hor := atBit_or_toNat lo v (atBit 0 w) (by rwa [h0]) hv
  rw [h0, Nat.add_comm] at hor
  rw [← hor, BitVec.ofNat_toNat, BitVec.setWidth_eq]

theorem codeSymbol_eq {n : Nat} (base : Byte) (part : BitVec n) :
    codeSymbol base part = BitVec.ofNat 8 (base.toNat + part.toNat) := by
  apply BitVec.eq_of_toNat_eq
  simp [codeSymbol]

end Sys2Proof

namespace Sys2Proof.Machine

/-- A word of the CODE window as a number (10_state.md R50). -/
theorem codeWord_eq (c : CodeEntry) (idx : BitVec 4) :
    codeWord c idx = BitVec.ofNat 32 (codeWordValue c idx.toNat) := by
  unfold codeWord codeWordValue
  split
  · rw [atBit_or_atBit_zero 31 _ _ (by omega) (by omega), BitVec.toNat_ofBool, Nat.add_comm]
  · split
    · exact extractLsb'_eq_ofNat _ _ _
    · rfl

/-- Character `j` of a code stands at bit `j % 32` of word `1 + j / 32` (10_state.md R50). -/
theorem codeWordValue_getLsbD (c : CodeEntry) {j : Nat} (hj : j < 256) :
    (BitVec.ofNat 32 (codeWordValue c (1 + j / 32))).getLsbD (j % 32) = c.bits.getLsbD j := by
  have hword : 1 + j / 32 ≤ 8 := by omega
  have hbit : j % 32 < 32 := Nat.mod_lt _ (by omega)
  have hpos : 32 * (j / 32) + j % 32 = j := Nat.div_add_mod j 32
  rw [codeWordValue, if_neg (by omega), if_pos hword, Nat.add_sub_cancel_left, ← extractLsb'_eq_ofNat,
    BitVec.getLsbD_extractLsb', hpos, decide_eq_true hbit, Bool.true_and]

/-- STATUS as a number (10_state.md R37). -/
theorem State.statusWord_toNat (s : State) : s.statusWord.toNat = statusValue s := by
  have h0 := atBit_zero_toNat (BitVec.ofBool s.busy) (by omega)
  have h1 := atBit_or_toNat 1 (treeCode s.treeState) (atBit 0 (BitVec.ofBool s.busy)) (by rw [h0]; omega) (by omega)
  have h3 := atBit_or_toNat 3 (BitVec.ofBool s.codesValid) _ (by rw [h1, h0]; omega) (by omega)
  have h4 := atBit_or_toNat 4 (decCode s.decState) _ (by rw [h3, h1, h0]; omega) (by omega)
  have h6 := atBit_or_toNat 6 (BitVec.ofBool s.errAny) _ (by rw [h4, h3, h1, h0]; omega) (by omega)
  have h8 := atBit_or_toNat 8 s.nsym _ (by rw [h6, h4, h3, h1, h0]; omega) (by omega)
  simp only [State.statusWord, BitVec.or_assoc]
  rw [h8, h6, h4, h3, h1, h0]
  simp only [statusValue, BitVec.toNat_ofBool, State.errAny]
  omega

theorem State.statusWord_eq (s : State) : s.statusWord = BitVec.ofNat 32 (statusValue s) := by
  rw [← s.statusWord_toNat, BitVec.ofNat_toNat, BitVec.setWidth_eq]

theorem State.paramWord_eq (s : State) : s.paramWord = BitVec.ofNat 32 (s.freqW % 64) := by
  rw [← BitVec.toNat_inj, State.paramWord, atBit_zero_toNat _ (by omega), BitVec.toNat_ofNat, BitVec.toNat_ofNat]
  omega

theorem answerIdle_of_idle {s : State} (h : s.busy = false) (v : Word) :
    answerIdle s v = .next { s with reads := s.reads ++ [v] } := answerIdle_next.2 (.inl ⟨h, rfl⟩)

end Sys2Proof.Machine
end

section
/-! O16, O17 and O18: the registers a read shows. -/

namespace Sys2Proof

open Sys2Proof.Machine

/-- Settles O16: STATUS is its fields' sum, so each field is a quotient of it. -/
theorem statusRegister : Obligations.StatusRegister := by
  intro s v
  refine ⟨fun hidle => ⟨s.statusWord, execRdStatus_next.2 (.inl ⟨hidle, rfl⟩), ?_⟩,
    fun hbusy => ⟨_, execRdStatus_next.2 (.inr ⟨hbusy, rfl⟩), ?_, ?_⟩, rfl⟩
  · have hbusy := s.busy.toNat_lt
    have hcodes := s.codesValid.toNat_lt
    have herr := (decide (s.err ≠ 0#8)).toNat_lt
    have hzero : false.toNat = 0 ∧ (0#15).toNat = 0 := ⟨rfl, rfl⟩
    have hsum := s.statusWord_toNat
    rw [statusValue] at hsum
    refine ⟨getLsbD_eq_of_toNat ?_, (extractLsb'_eq_iff _ _ _).2 ?_, getLsbD_eq_of_toNat ?_,
      (extractLsb'_eq_iff _ _ _).2 ?_, getLsbD_eq_of_toNat ?_, getLsbD_eq_of_toNat ?_,
      (extractLsb'_eq_iff _ _ _).2 ?_, (extractLsb'_eq_iff _ _ _).2 ?_⟩
    all_goals
      rw [hsum]
      omega
  · simp [State.busyStatusWord]
  · simp [State.busyStatusWord, State.errAny]

/-- Settles O17: these reads are answered without looking at BUSY. -/
theorem exactReadsInEveryState : Obligations.ExactReadsInEveryState := by
  intro s a
  rw [BitVec.ofNat_toNat, BitVec.ofNat_toNat, BitVec.ofNat_toNat, ← s.paramWord_eq]
  exact ⟨rfl, rfl, rfl, rfl, rfl, rfl, rfl, rfl⟩

/-- Settles O18: with BUSY = 0 `answerIdle` answers with the register's value. -/
theorem idleReadsReturnRegisters : Obligations.IdleReadsReturnRegisters := by
  intro s hidle
  refine ⟨?_, ?_, answerIdle_of_idle hidle _, ?_, fun sym => answerIdle_of_idle hidle _, fun p w => ?_, fun p w => ?_,
    fun p w => ?_⟩
  · rw [← s.statusWord_eq]
    exact execRdStatus_next.2 (.inl ⟨hidle, rfl⟩)
  · rw [BitVec.ofNat_toNat]
    exact answerIdle_of_idle hidle _
  · rw [BitVec.ofNat_toNat]
    exact answerIdle_of_idle hidle _
  · rw [show BitVec.ofNat 8 p.toNat = codeSymbol 0#8 p by simp [codeSymbol_eq]]
    exact answerIdle_of_idle hidle _
  · exact codeSymbol_eq 64#8 p ▸ answerIdle_of_idle hidle _
  · exact codeSymbol_eq 192#8 p ▸ answerIdle_of_idle hidle _

end Sys2Proof
end

section
/-! O19: the node read port. -/

namespace Sys2Proof.Machine

theorem isLeaf_of_le {i : NodeIx} (h : i.toNat ≤ 255) : isLeaf i = true := (isLeaf_iff i).2 (by omega)

theorem State.nodeFreqWord_valid {s : State} (h : s.nodeValid s.nodeSel = true) :
    s.nodeFreqWord = nodeFreq s.freq s.inode s.nodeSel := if_pos h

theorem State.nodeRepWord_valid {s : State} (h : s.nodeValid s.nodeSel = true) :
    s.nodeRepWord = BitVec.ofNat 32 (0x80000000 + (nodeRep s.inode s.nodeSel).toNat) := by
  rw [State.nodeRepWord, if_pos h, atBit_or_atBit_zero 31 _ _ (by omega) (by omega), Nat.add_comm]
  rfl

theorem State.nodeLinkWord_valid {s : State} (h : s.nodeValid s.nodeSel = true) :
    s.nodeLinkWord = BitVec.ofNat 32
      ((nodeLeft s.inode s.nodeSel).toNat + 0x10000 * (nodeRight s.inode s.nodeSel).toNat) := by
  rw [State.nodeLinkWord, if_pos h, atBit_or_atBit_zero 16 _ _ (by omega) (by omega)]
  rfl

end Sys2Proof.Machine

namespace Sys2Proof

open Sys2Proof.Machine

/-- Settles O19: the three words of a valid node are those of `nodeFreq`, `nodeRep` and its links, which a leaf and an
internal node each give from its own place. -/
theorem nodeReadPort : Obligations.NodeReadPort := by
  intro s hidle
  refine ⟨s.nodeFreqWord, s.nodeRepWord, s.nodeLinkWord, answerIdle_of_idle hidle _, answerIdle_of_idle hidle _,
    answerIdle_of_idle hidle _, fun hv => ?_, fun hv hi => ?_, fun hv hi => ?_⟩
  · simp [State.nodeFreqWord, State.nodeRepWord, State.nodeLinkWord, hv]
  · rw [State.nodeFreqWord_valid hv, State.nodeRepWord_valid hv, State.nodeLinkWord_valid hv]
    have hrep : ((s.nodeSel.setWidth 8 : Byte)).toNat = s.nodeSel.toNat := by
      rw [BitVec.toNat_setWidth]
      omega
    simp [nodeFreq, nodeRep, nodeLeft, nodeRight, isLeaf_of_le hi, hrep, State.freqAt, BitVec.ofNat_toNat]
  · rw [State.nodeFreqWord_valid hv, State.nodeRepWord_valid hv, State.nodeLinkWord_valid hv]
    simp [nodeFreq, nodeRep, nodeLeft, nodeRight, (isLeaf_eq_false_iff _).2 hi, recordOf]

end Sys2Proof
end

section
/-! O20: the CODE window by address. -/

namespace Sys2Proof

theorem aligned_iff (a : Addr) : aligned a = true ↔ a.toNat % 4 = 0 := by
  rw [aligned, beq_iff_eq, extractLsb'_eq_iff]
  simp

theorem inFreqWindow_iff (a : Addr) : inFreqWindow a = true ↔ 0x0400 ≤ a.toNat ∧ a.toNat ≤ 0x07FF := by
  rw [inFreqWindow, beq_iff_eq, extractLsb'_eq_iff, BitVec.toNat_ofNat]
  omega

theorem decodeRead_window {a : Addr} (h : 0x0038 ≤ a.toNat) : decodeRead a = decodeReadWindow a := by
  unfold decodeRead
  split
  case h_15 => rfl
  all_goals omega

theorem decodeWrite_readOnly {a : Addr} (v : Word) (h : 0x0800 ≤ a.toNat) : decodeWrite a v = .wrBad a v := by
  have hfreq : ¬ inFreqWindow a = true := by
    rw [inFreqWindow_iff]
    omega
  unfold decodeWrite
  split
  case h_5 => simp [hfreq]
  all_goals omega

/-- The row of the CODE window an aligned address falls in, by the window's three ranges (10_state.md R50). -/
theorem decodeReadWindow_code {a : Addr} (hal : a.toNat % 4 = 0) (hlo : 0x1000 ≤ a.toNat) (hhi : a.toNat < 0x5000) :
    decodeReadWindow a =
      if a.toNat < 0x2000 then .rdCodeLow (a.extractLsb' 6 6) (a.extractLsb' 2 4)
      else if a.toNat < 0x4000 then .rdCodeMid (a.extractLsb' 6 7) (a.extractLsb' 2 4)
      else .rdCodeHigh (a.extractLsb' 6 6) (a.extractLsb' 2 4) := by
  have hfreq : ¬ inFreqWindow a = true := by
    rw [inFreqWindow_iff]
    omega
  have hlow : a.extractLsb' 12 4 = 0x1#4 ↔ a.toNat < 0x2000 := by
    rw [extractLsb'_eq_iff, BitVec.toNat_ofNat]
    omega
  have hmid : a.extractLsb' 13 3 = 0b001#3 ↔ 0x2000 ≤ a.toNat ∧ a.toNat < 0x4000 := by
    rw [extractLsb'_eq_iff, BitVec.toNat_ofNat]
    omega
  have hhigh : a.extractLsb' 12 4 = 0x4#4 ↔ 0x4000 ≤ a.toNat := by
    rw [extractLsb'_eq_iff, BitVec.toNat_ofNat]
    omega
  rw [decodeReadWindow, (aligned_iff a).2 hal, if_neg (by simp), if_neg hfreq]
  by_cases h1 : a.toNat < 0x2000
  · rw [if_pos (hlow.2 h1), if_pos h1]
  · rw [if_neg (h1 ∘ hlow.1), if_neg h1]
    by_cases h2 : a.toNat < 0x4000
    · rw [if_pos (hmid.2 ⟨by omega, h2⟩), if_pos h2]
    · rw [if_neg (fun h => h2 (hmid.1 h).2), if_pos (hhigh.2 (by omega)), if_neg h2]

end Sys2Proof

namespace Sys2Proof.Machine

/-- A read in the CODE window shows word `w` of CODE[s] for the `s` and `w` of its address (10_state.md R50). -/
theorem exec_read_codeWindow (s : State) {a : Addr} (hal : a.toNat % 4 = 0) (hlo : 0x1000 ≤ a.toNat)
    (hhi : a.toNat < 0x5000) :
    exec (decode (.read a)) s = answerIdle s (s.codeWindowWord (BitVec.ofNat 8 ((a.toNat - 0x1000) / 64))
      (BitVec.ofNat 4 ((a.toNat - 0x1000) % 64 / 4))) := by
  have hidx : BitVec.ofNat 4 ((a.toNat - 0x1000) % 64 / 4) = a.extractLsb' 2 4 := by
    rw [extractLsb'_eq_ofNat]
    congr 1
    omega
  have hsym {n : Nat} (base : Byte) (h : base.toNat + a.toNat / 2 ^ 6 % 2 ^ n = (a.toNat - 0x1000) / 64) :
      BitVec.ofNat 8 ((a.toNat - 0x1000) / 64) = codeSymbol base (a.extractLsb' 6 n) := by
    rw [codeSymbol_eq, extractLsb'_toNat_eq_div, h]
  have hdec : decode (.read a) = decodeReadWindow a := decodeRead_window (by omega)
  rw [hdec, decodeReadWindow_code hal hlo hhi, hidx]
  split
  · rw [hsym (n := 6) 0#8 (by simp; omega)]
    rfl
  · split
    · rw [hsym (n := 7) 64#8 (by simp; omega)]
      rfl
    · rw [hsym (n := 6) 192#8 (by simp; omega)]
      rfl

theorem State.codeWindowWord_eq (s : State) (sym : Byte) (idx : BitVec 4) :
    s.codeWindowWord sym idx
      = if s.codesValid = false then 0#32 else BitVec.ofNat 32 (codeWordValue (s.codeAt sym) idx.toNat) := by
  rw [State.codeWindowWord, codeWord_eq]
  cases s.codesValid <;> rfl

end Sys2Proof.Machine

namespace Sys2Proof

open Sys2Proof.Machine

/-- Settles O20: the address's row and fields name the symbol and the word, each word is a slice of the code entry,
and no write row covers the window. -/
theorem codeWindow : Obligations.CodeWindow := by
  intro s a v hlo hhi hal
  refine ⟨fun hidle => ?_, fun c j hj => (codeWordValue_getLsbD c hj).symm, ?_⟩
  · have hidx : (BitVec.ofNat 4 ((a.toNat - 0x1000) % 64 / 4)).toNat = (a.toNat - 0x1000) % 64 / 4 := by
      rw [BitVec.toNat_ofNat]
      omega
    rw [exec_read_codeWindow s hal hlo (by omega), answerIdle_of_idle hidle, State.codeWindowWord_eq, hidx]
  · rw [decode, decodeWrite_readOnly v (by omega)]
    rfl

end Sys2Proof
end

section
/-! O14: what a read can observe of INODE and CODE. -/

namespace Sys2Proof

/-- The operations a host read can be (30_encoding.md R87). -/
def Instr.isRead : Instr → Bool
  | .rdId | .rdCmd | .rdStatus | .rdErr | .rdErrInfo | .rdIrqEn | .rdRoot | .rdTotal | .rdDecCur | .rdNodeSel
  | .rdNodeFreq | .rdNodeRep | .rdNodeLink | .rdParam | .rdFreq _ | .rdCodeLow _ _ | .rdCodeMid _ _
  | .rdCodeHigh _ _ | .rdUnmapped _ => true
  | _ => false

theorem decodeReadWindow_isRead (a : Addr) : (decodeReadWindow a).isRead = true := by
  unfold decodeReadWindow
  repeat' split
  all_goals rfl

theorem decodeRead_isRead (a : Addr) : (decodeRead a).isRead = true := by
  unfold decodeRead
  split
  case h_15 => exact decodeReadWindow_isRead a
  all_goals rfl

end Sys2Proof

namespace Sys2Proof.Machine

/-- `s` with other contents of INODE and CODE. -/
def State.withStores (s : State) (n : Table Inode) (c : Table CodeEntry) : State := { s with inode := n, code := c }

/-- The two arenas agree on the tree's nodes, and the two code tables while CODES_VALID = 1. -/
structure SameVisible (s : State) (n : Table Inode) (c : Table CodeEntry) : Prop where
  inode : ∀ k, k < s.nint → inodeOf n k = inodeOf s.inode k
  code  : s.codesValid = true → c = s.code

theorem State.nodeValid_lt {s : State} {i : NodeIx} (h : s.nodeValid i = true) : i.toNat < 256 + s.nint := by
  by_cases hi : i.toNat < 256
  · omega
  · obtain ⟨-, -, hlt⟩ := (State.nodeValid_internal (by omega)).1 h
    omega

section Visible

variable {s : State} {n : Table Inode} {c : Table CodeEntry} (h : SameVisible s n c)

include h

theorem SameVisible.nodeFreqWord : (s.withStores n c).nodeFreqWord = s.nodeFreqWord :=
  ite_congr rfl (fun hv => nodeFreq_congr s.freq h.inode (State.nodeValid_lt hv)) fun _ => rfl

theorem SameVisible.nodeRepWord : (s.withStores n c).nodeRepWord = s.nodeRepWord :=
  ite_congr rfl (fun hv => congrArg (atBit 31 1#1 ||| atBit 0 ·) (nodeRep_congr h.inode (State.nodeValid_lt hv)))
    fun _ => rfl

theorem SameVisible.nodeLinkWord : (s.withStores n c).nodeLinkWord = s.nodeLinkWord :=
  ite_congr rfl
    (fun hv => congrArg₂ (atBit 16 · ||| atBit 0 ·) (nodeRight_congr h.inode (State.nodeValid_lt hv))
      (nodeLeft_congr h.inode (State.nodeValid_lt hv)))
    fun _ => rfl

theorem SameVisible.codeWindowWord (sym : Byte) (idx : BitVec 4) :
    (s.withStores n c).codeWindowWord sym idx = s.codeWindowWord sym idx :=
  ite_congr rfl (fun hv => congrArg (fun t => codeWord (codeOf t sym) idx) (h.code hv)) fun _ => rfl

end Visible

/-- The operation answers a state, and with other contents of INODE and CODE the same state but for them. -/
def SameAnswer (o : State → Host.Outcome State Fault Refusal) (s : State) (n : Table Inode) (c : Table CodeEntry) :
    Prop := ∃ t, o s = .next t ∧ o (s.withStores n c) = .next (t.withStores n c)

theorem answer_sameAnswer {s : State} {n : Table Inode} {c : Table CodeEntry} {v : State → Word}
    (hv : v (s.withStores n c) = v s) : SameAnswer (fun u => answer u (v u)) s n c :=
  ⟨_, rfl, congrArg (answer (s.withStores n c)) hv⟩

theorem answerDraw_sameAnswer {s : State} {n : Table Inode} {c : Table CodeEntry} {v : State → Word → Word}
    (hv : v (s.withStores n c) = v s) : SameAnswer (fun u => answerDraw u (v u)) s n c :=
  ⟨_, rfl, congrArg (answerDraw (s.withStores n c)) hv⟩

/-- BUSY is neither INODE nor CODE. -/
theorem ite_busy_sameAnswer {s : State} {n : Table Inode} {c : Table CodeEntry}
    {o o' : State → Host.Outcome State Fault Refusal} (ho : SameAnswer o s n c) (ho' : SameAnswer o' s n c) :
    SameAnswer (fun u => if u.busy = true then o u else o' u) s n c := by
  have hbusy : (s.withStores n c).busy = s.busy := rfl
  unfold SameAnswer
  simp only [hbusy]
  split
  · exact ho
  · exact ho'

theorem answerIdle_sameAnswer {s : State} {n : Table Inode} {c : Table CodeEntry} {v : State → Word}
    (hv : v (s.withStores n c) = v s) : SameAnswer (fun u => answerIdle u (v u)) s n c :=
  ite_busy_sameAnswer (answerDraw_sameAnswer (v := fun _ => id) rfl) (answer_sameAnswer hv)

theorem exec_read_sameAnswer {i : Instr} (hi : i.isRead = true) {s : State} {n : Table Inode} {c : Table CodeEntry}
    (h : SameVisible s n c) : SameAnswer (exec i) s n c := by
  cases i
  case rdId | rdCmd | rdErr | rdErrInfo | rdIrqEn | rdNodeSel | rdParam | rdUnmapped => exact answer_sameAnswer rfl
  case rdStatus => exact ite_busy_sameAnswer (answerDraw_sameAnswer rfl) (answer_sameAnswer rfl)
  case rdRoot | rdTotal | rdDecCur | rdFreq => exact answerIdle_sameAnswer rfl
  case rdNodeFreq => exact answerIdle_sameAnswer h.nodeFreqWord
  case rdNodeRep => exact answerIdle_sameAnswer h.nodeRepWord
  case rdNodeLink => exact answerIdle_sameAnswer h.nodeLinkWord
  case rdCodeLow | rdCodeMid | rdCodeHigh => exact answerIdle_sameAnswer (h.codeWindowWord _ _)
  all_goals cases hi

end Sys2Proof.Machine

namespace Sys2Proof

open Sys2Proof.Machine

/-- Settles O14: the node port shows valid nodes only, the CODE window CODE only while CODES_VALID = 1, and no other
read looks at either. -/
theorem unwrittenStoresUnobservable : Obligations.UnwrittenStoresUnobservable :=
  fun _ _ _ a hnodes hcode => exec_read_sameAnswer (decodeRead_isRead a) ⟨hnodes, hcode⟩

end Sys2Proof
end

section
/-! O36 and O60: a changed counter drops the tree, and the reset state meets the invariants. -/

namespace Sys2Proof.Machine

theorem State.treePart_freqAt {s t : State} (h : t.treePart = s.treePart) (sym : Byte) :
    t.freqAt sym = s.freqAt sym := by
  have hfreq : t.treePart.freqAt sym = s.treePart.freqAt sym := by rw [h]
  exact hfreq

/-- The tree, code table and decoder state are as INVALIDATE leaves them (10_state.md R32). -/
def State.Invalidated (s : State) : Prop :=
  s.treeState = .none ∧ s.nsym = 0#9 ∧ s.root = 0x1FF#9 ∧ s.total = 0#32 ∧ s.codesValid = false ∧
    s.decState = .idle ∧ s.cur = 0x1FF#9

theorem State.invalidate_invalidated (s : State) : s.invalidate.Invalidated := ⟨rfl, rfl, rfl, rfl, rfl, rfl, rfl⟩

theorem State.clearRegisters_invalidated (s : State) : s.clearRegisters.Invalidated :=
  ⟨rfl, rfl, rfl, rfl, rfl, rfl, rfl⟩

theorem execCount_freqAt_or_invalidated {x : Byte} {s t : State} (h : execCount x s = .next t) :
    (∀ sym, t.freqAt sym = s.freqAt sym) ∨ t.Invalidated := by
  rw [execCount_next] at h
  rcases h with ⟨-, rfl⟩ | ⟨-, rfl⟩
  · exact .inl fun _ => rfl
  · exact .inr (s.setFreq x (s.freqAt x + 1#32)).invalidate_invalidated

theorem execWrFreq_freqAt_or_invalidated {x : Byte} {v : Word} {s t : State} (h : execWrFreq x v s = .next t) :
    (∀ sym, t.freqAt sym = s.freqAt sym) ∨ t.Invalidated := by
  rw [execWrFreq_next] at h
  rcases h with ⟨-, rfl⟩ | ⟨-, rfl⟩
  · exact .inr (s.setFreq x (s.lowFreqBits v)).invalidate_invalidated
  · exact .inl fun _ => rfl

theorem execGenCodes_freqAt {s t : State} (h : execGenCodes s = .next t) (sym : Byte) :
    t.freqAt sym = s.freqAt sym := by
  rw [execGenCodes_next] at h
  rcases h with ⟨-, rfl⟩ | ⟨-, rfl⟩ <;> rfl

theorem execBuild_freqAt {s t : State} (h : execBuild s = .next t) (sym : Byte) : t.freqAt sym = s.freqAt sym := by
  rw [execBuild_next] at h
  rcases h with ⟨-, rfl⟩ | ⟨-, rfl⟩ <;> simp [State.freqAt]

/-- BUILD drops the codes and the bracket, error or not (42_tree_builder.md R124). -/
theorem execBuild_drops {s t : State} (h : execBuild s = .next t) :
    t.codesValid = false ∧ t.decState = .idle ∧ t.cur = 0x1FF#9 := by
  rw [execBuild_next] at h
  rcases h with ⟨-, rfl⟩ | ⟨-, rfl⟩ <;> simp

/-- An operation keeps every counter or leaves what INVALIDATE leaves (70_reset_and_hazards.md R257). -/
theorem exec_freqAt_or_invalidated {i : Instr} {s t : State} (h : exec i s = .next t) :
    (∀ sym, t.freqAt sym = s.freqAt sym) ∨ t.Invalidated := by
  cases i
  case reset =>
    rw [execReset_next.1 h]
    exact .inr s.clearRegisters_invalidated
  case clrFreq =>
    rw [execClrFreq_next.1 h]
    exact .inr (State.invalidate_invalidated { s with freq := [] })
  case count x => exact execCount_freqAt_or_invalidated h
  case wrFreq x v => exact execWrFreq_freqAt_or_invalidated h
  case build => exact .inl (execBuild_freqAt h)
  case genCodes => exact .inl (execGenCodes_freqAt h)
  all_goals exact .inl (State.treePart_freqAt (exec_treePart rfl h))

end Sys2Proof.Machine

namespace Sys2Proof

open Sys2Proof.Machine

/-- Settles O36: COUNT, CLR_FREQ, the FREQ write and RESET change counters, and each leaves INVALIDATE's values. -/
theorem freqChangeDiscardsTree : Obligations.FreqChangeDiscardsTree := by
  intro i s t h
  refine ⟨fun ⟨sym, hne⟩ => ?_, fun hi => ?_⟩
  · exact (exec_freqAt_or_invalidated h).resolve_left fun hkept => hne (hkept sym)
  · subst hi
    exact execBuild_drops h

/-- Settles O60: nothing is listed in the arrays, and there is no tree. -/
theorem resetMeetsInvariants : Obligations.ResetMeetsInvariants :=
  ⟨rfl, rfl, ⟨rfl, rfl, rfl, rfl, rfl⟩, State.treeOk_of_ne_multi (by simp [State.reset]) rfl⟩

end Sys2Proof
end

section
/-! O6 and O27: the address map by number, the reads and writes it names, and those it rejects. -/

namespace Sys2Proof

open Sys2Proof.Machine

/-! ## The map's ranges -/

theorem unmappedAddr_iff (a : Nat) :
    unmappedAddr a = true ↔
      0x0038 ≤ a ∧ a ≤ 0x03FF ∨ 0x0800 ≤ a ∧ a ≤ 0x0FFF ∨ 0x5000 ≤ a ∧ a ≤ 0xFFFF := by
  simp [unmappedAddr, or_assoc]

theorem readOnlyAddr_iff (a : Nat) :
    readOnlyAddr a = true ↔
      a ∈ [0x0000, 0x0008, 0x0010, 0x0018, 0x001C, 0x0020, 0x0028, 0x002C, 0x0030, 0x0034] ∨
      0x1000 ≤ a ∧ a ≤ 0x4FFF := by
  simp only [readOnlyAddr, Bool.or_eq_true, Bool.and_eq_true, decide_eq_true_eq]

/-- An aligned mapped address is a register's or lies in one of the two windows (20_memory.md R61). -/
theorem mapped_cases {a : Addr} (h : ¬ (a.toNat % 4 ≠ 0 ∨ unmappedAddr a.toNat = true)) :
    a.toNat % 4 = 0 ∧ (a.toNat < 0x0038 ∨ 0x0400 ≤ a.toNat ∧ a.toNat ≤ 0x07FF ∨
      0x1000 ≤ a.toNat ∧ a.toNat < 0x5000) := by
  rw [unmappedAddr_iff] at h
  omega

/-- The addresses a write is not rejected at (20_memory.md R63). -/
theorem writable_cases {a : Addr}
    (h : ¬ (a.toNat % 4 ≠ 0 ∨ unmappedAddr a.toNat = true ∨ readOnlyAddr a.toNat = true)) :
    a = 0x0004#16 ∨ a = 0x000C#16 ∨ a = 0x0014#16 ∨ a = 0x0024#16 ∨
      (a.toNat % 4 = 0 ∧ 0x0400 ≤ a.toNat ∧ a.toNat ≤ 0x07FF) := by
  simp only [unmappedAddr_iff, readOnlyAddr_iff, List.mem_cons, List.not_mem_nil, or_false] at h
  simp only [← BitVec.toNat_inj, BitVec.toNat_ofNat]
  omega

/-! ## The FREQ window -/

theorem freqAddr_toNat (sym : Byte) : (freqAddr sym).toNat = 0x0400 + 4 * sym.toNat := by
  simp only [freqAddr, BitVec.toNat_add, BitVec.toNat_mul, BitVec.toNat_setWidth, BitVec.toNat_ofNat]
  omega

/-- The symbol an address of the FREQ window names (30_encoding.md R87). -/
theorem freqWindow_symbol {a : Addr} (hlo : 0x0400 ≤ a.toNat) (hhi : a.toNat ≤ 0x07FF) :
    a.extractLsb' 2 8 = BitVec.ofNat 8 ((a.toNat - 0x0400) / 4) := by
  rw [extractLsb'_eq_iff, BitVec.toNat_ofNat]
  omega

theorem freqAddr_freqWindow_symbol {a : Addr} (hal : a.toNat % 4 = 0) (hlo : 0x0400 ≤ a.toNat)
    (hhi : a.toNat ≤ 0x07FF) : freqAddr (BitVec.ofNat 8 ((a.toNat - 0x0400) / 4)) = a := by
  rw [← BitVec.toNat_inj, freqAddr_toNat, BitVec.toNat_ofNat]
  omega

theorem decodeRead_freqWindow {a : Addr} (hal : a.toNat % 4 = 0) (hlo : 0x0400 ≤ a.toNat)
    (hhi : a.toNat ≤ 0x07FF) : decodeRead a = .rdFreq (BitVec.ofNat 8 ((a.toNat - 0x0400) / 4)) := by
  rw [decodeRead_window (by omega), decodeReadWindow, (aligned_iff a).2 hal, if_neg (by simp),
    if_pos ((inFreqWindow_iff a).2 ⟨hlo, hhi⟩), freqWindow_symbol hlo hhi]

theorem decodeWrite_freqWindow {a : Addr} (v : Word) (hal : a.toNat % 4 = 0) (hlo : 0x0400 ≤ a.toNat)
    (hhi : a.toNat ≤ 0x07FF) : decodeWrite a v = .wrFreq (BitVec.ofNat 8 ((a.toNat - 0x0400) / 4)) v := by
  unfold decodeWrite
  split
  case h_5 => simp [(aligned_iff a).2 hal, (inFreqWindow_iff a).2 ⟨hlo, hhi⟩, freqWindow_symbol hlo hhi]
  all_goals omega

/-! ## The addresses the map rejects -/

theorem aligned_eq_false {a : Addr} (h : a.toNat % 4 ≠ 0) : aligned a = false := by
  rwa [← Bool.not_eq_true, aligned_iff]

theorem decodeReadWindow_unmapped {a : Addr} (h : unmappedAddr a.toNat = true) :
    decodeReadWindow a = .rdUnmapped a := by
  rw [unmappedAddr_iff] at h
  have hfreq : ¬ inFreqWindow a = true := by
    rw [inFreqWindow_iff]
    omega
  have hlow : ¬ a.extractLsb' 12 4 = 0x1#4 := by
    rw [extractLsb'_eq_iff, BitVec.toNat_ofNat]
    omega
  have hmid : ¬ a.extractLsb' 13 3 = 0b001#3 := by
    rw [extractLsb'_eq_iff, BitVec.toNat_ofNat]
    omega
  have hhigh : ¬ a.extractLsb' 12 4 = 0x4#4 := by
    rw [extractLsb'_eq_iff, BitVec.toNat_ofNat]
    omega
  rw [decodeReadWindow, if_neg hfreq, if_neg hlow, if_neg hmid, if_neg hhigh, ite_self]

/-- A read of a misaligned or unmapped address names no register (20_memory.md R62). -/
theorem decodeRead_unmapped {a : Addr} (h : a.toNat % 4 ≠ 0 ∨ unmappedAddr a.toNat = true) :
    decodeRead a = .rdUnmapped a := by
  rcases h with hal | hun
  · unfold decodeRead
    split
    case h_15 => simp [decodeReadWindow, aligned_eq_false hal]
    all_goals omega
  · have hrange := (unmappedAddr_iff _).1 hun
    rw [decodeRead_window (by omega), decodeReadWindow_unmapped hun]

/-- A write to a misaligned, unmapped or read-only address is WR_BAD (20_memory.md R63). -/
theorem decodeWrite_bad {a : Addr} (v : Word)
    (h : a.toNat % 4 ≠ 0 ∨ unmappedAddr a.toNat = true ∨ readOnlyAddr a.toNat = true) :
    decodeWrite a v = .wrBad a v := by
  simp only [unmappedAddr_iff, readOnlyAddr_iff, List.mem_cons, List.not_mem_nil, or_false] at h
  have hfreq : ¬ (aligned a && inFreqWindow a) = true := by
    rw [Bool.and_eq_true, aligned_iff, inFreqWindow_iff]
    omega
  unfold decodeWrite
  split
  case h_5 => rw [if_neg hfreq]
  all_goals omega

/-! ## The statements -/

/-- Settles O27: WR_BAD is one raise, and its ERR_INFO word is its fields' sum. -/
theorem badWriteRaisesBadAddr : Obligations.BadWriteRaisesBadAddr := by
  intro s a v
  have hrecord : errorRecord .badAddr 0#4 0#8 a = BitVec.ofNat 32 (65536 * a.toNat + 7) := by
    rw [errorRecord_eq, Nat.add_comm]
    rfl
  rw [← hrecord]
  rfl

/-- Settles O6: each region's addresses decode to its row. -/
theorem addressMapRegions : Obligations.AddressMapRegions := by
  refine ⟨rfl, rfl, rfl, rfl, rfl, rfl, rfl, rfl, rfl, rfl, rfl, rfl, rfl, rfl, fun sym => ?_, fun sym w s => ?_,
    fun a v s hun => ⟨?_, ?_⟩⟩
  · have ha : (BitVec.ofNat 16 (0x0400 + 4 * sym.toNat)).toNat = 0x0400 + 4 * sym.toNat := by
      rw [BitVec.toNat_ofNat]
      omega
    rw [decode, decodeRead_freqWindow (by omega) (by omega) (by omega), ha]
    simp
  · have ha : (BitVec.ofNat 16 (0x1000 + 64 * sym.toNat + 4 * w.toNat)).toNat
        = 0x1000 + 64 * sym.toNat + 4 * w.toNat := by
      rw [BitVec.toNat_ofNat]
      omega
    have hsym : (0x1000 + 64 * sym.toNat + 4 * w.toNat - 0x1000) / 64 = sym.toNat := by omega
    have hidx : (0x1000 + 64 * sym.toNat + 4 * w.toNat - 0x1000) % 64 / 4 = w.toNat := by omega
    rw [exec_read_codeWindow s (by omega) (by omega) (by omega), ha, hsym, hidx]
    simp
  · rw [decode, decodeRead_unmapped (.inr hun)]
    rfl
  · rw [decode, decodeWrite_bad v (.inr (.inl hun))]
    rfl

end Sys2Proof
end

section
/-! O21: a write at any address. -/

namespace Sys2Proof.Machine

/-- A write taken only while BUSY = 0: one of its two outcomes, by BUSY. -/
theorem acceptWrite_outcome (s : State) (a : Addr) (u : State) :
    ∃ t, acceptWrite s a u = .next t ∧ if s.busy = true then t = s.raise .busyViolation 0#4 0#8 a else t = u := by
  cases hbusy : s.busy
  · exact ⟨u, acceptWrite_next.2 (.inl ⟨hbusy, rfl⟩), rfl⟩
  · exact ⟨_, acceptWrite_next.2 (.inr ⟨hbusy, rfl⟩), rfl⟩

/-- The same for a write at an address of the FREQ window, whose symbol leads back to that address. -/
theorem execWrFreq_outcome (s : State) {a : Addr} (v : Word) (hal : a.toNat % 4 = 0) (hlo : 0x0400 ≤ a.toNat)
    (hhi : a.toNat ≤ 0x07FF) :
    ∃ t, execWrFreq (BitVec.ofNat 8 ((a.toNat - 0x0400) / 4)) v s = .next t ∧
      if s.busy = true then t = s.raise .busyViolation 0#4 0#8 a
      else execWrFreq (BitVec.ofNat 8 ((a.toNat - 0x0400) / 4)) v s = .next t := by
  cases hbusy : s.busy
  · exact ⟨_, execWrFreq_next.2 (.inl ⟨hbusy, rfl⟩), execWrFreq_next.2 (.inl ⟨hbusy, rfl⟩)⟩
  · refine ⟨_, execWrFreq_next.2 (.inr ⟨hbusy, rfl⟩), ?_⟩
    rw [freqAddr_freqWindow_symbol hal hlo hhi]
    rfl

end Sys2Proof.Machine

namespace Sys2Proof

open Sys2Proof.Machine

/-- Settles O21: a rejected address is WR_BAD, and every other one is one of the four writable registers or in the
FREQ window. -/
theorem memWriteOutcome : Obligations.MemWriteOutcome := by
  intro a v s
  by_cases hbad : a.toNat % 4 ≠ 0 ∨ unmappedAddr a.toNat = true ∨ readOnlyAddr a.toNat = true
  · rw [decode, decodeWrite_bad v hbad]
    exact ⟨_, rfl, by rw [if_pos hbad]⟩
  · simp only [if_neg hbad]
    rcases writable_cases hbad with rfl | rfl | rfl | rfl | ⟨hal, hlo, hhi⟩
    · obtain ⟨t, ht, hcase⟩ := acceptWrite_outcome s 0x0004#16 (s.issue v)
      exact ⟨t, ht, by simpa [State.issue] using hcase⟩
    · exact ⟨_, rfl, by simp [State.clearErrors]⟩
    · exact ⟨_, rfl, by simp⟩
    · obtain ⟨t, ht, hcase⟩ := acceptWrite_outcome s 0x0024#16 { s with nodeSel := v.extractLsb' 0 9 }
      exact ⟨t, ht, by simpa using hcase⟩
    · rw [decode, decodeWrite_freqWindow v hal hlo hhi]
      obtain ⟨t, ht, hcase⟩ := execWrFreq_outcome s v hal hlo hhi
      refine ⟨t, ht, ?_⟩
      simp only [show a.toNat ≠ 0x0004 by omega, show a.toNat ≠ 0x000C by omega, show a.toNat ≠ 0x0014 by omega,
        show a.toNat ≠ 0x0024 by omega, ne_eq, not_false_eq_true, and_true, if_false]
      exact hcase

end Sys2Proof
end

section
/-! O15: a read at any address, by the three ways a mapped address is answered. -/

namespace Sys2Proof.Machine

/-! ## What a mapped address shows, as a number -/

theorem State.nodeRepWord_eq (s : State) :
    s.nodeRepWord
      = if s.nodeValid s.nodeSel then BitVec.ofNat 32 (2 ^ 31 + (nodeRep s.inode s.nodeSel).toNat) else 0#32 := by
  by_cases h : s.nodeValid s.nodeSel = true
  · rw [State.nodeRepWord_valid h, if_pos h]
    rfl
  · rw [State.nodeRepWord, if_neg h, if_neg h]

theorem State.nodeLinkWord_eq (s : State) :
    s.nodeLinkWord
      = if s.nodeValid s.nodeSel then
          BitVec.ofNat 32 ((nodeLeft s.inode s.nodeSel).toNat + 2 ^ 16 * (nodeRight s.inode s.nodeSel).toNat)
        else 0#32 := by
  by_cases h : s.nodeValid s.nodeSel = true
  · rw [State.nodeLinkWord_valid h, if_pos h]
    rfl
  · rw [State.nodeLinkWord, if_neg h, if_neg h]

theorem readValue_freqWindow (s : State) {a : Nat} (hlo : 0x0400 ≤ a) (hhi : a ≤ 0x07FF) :
    readValue s a = s.freqAt (BitVec.ofNat 8 ((a - 0x0400) / 4)) := by
  unfold readValue
  repeat rw [if_neg (by omega)]
  rw [if_pos hhi]

theorem readValue_codeWindow (s : State) {a : Nat} (hlo : 0x1000 ≤ a) :
    readValue s a
      = s.codeWindowWord (BitVec.ofNat 8 ((a - 0x1000) / 64)) (BitVec.ofNat 4 ((a - 0x1000) % 64 / 4)) := by
  have hidx : (BitVec.ofNat 4 ((a - 0x1000) % 64 / 4)).toNat = (a - 0x1000) % 64 / 4 := by
    rw [BitVec.toNat_ofNat]
    omega
  rw [State.codeWindowWord, codeWord_eq, hidx]
  unfold readValue
  repeat rw [if_neg (by omega)]

/-! ## The answer -/

/-- The registers that read exactly in every state (20_memory.md R64). -/
def exactAddrs : List Nat := [0x0000, 0x0004, 0x000C, 0x0010, 0x0014, 0x0024, 0x0034]

/-- How a mapped address is answered (20_memory.md R64): exactly in every state, STATUS in its own way, and the rest
only while BUSY = 0. -/
def mappedAnswer (s : State) (a : Nat) : Host.Outcome State Fault Refusal :=
  if a ∈ exactAddrs then answer s (readValue s a)
  else if a = 0x0008 then execRdStatus s
  else answerIdle s (readValue s a)

theorem mappedAnswer_of_window (s : State) {a : Nat} (h : 0x0038 ≤ a) :
    mappedAnswer s a = answerIdle s (readValue s a) := by
  have hexact : a ∉ exactAddrs := by
    simp only [exactAddrs, List.mem_cons, List.not_mem_nil, or_false]
    omega
  rw [mappedAnswer, if_neg hexact, if_neg (by omega)]

/-- Each register's row answers as `mappedAnswer` says of its address. -/
theorem exec_read_register (s : State) {a : Addr} (hal : a.toNat % 4 = 0) (h : a.toNat < 0x0038) :
    exec (decodeRead a) s = mappedAnswer s a.toNat := by
  unfold decodeRead
  split
  case h_15 =>
    simp only [imp_false] at *
    omega
  all_goals
    rename_i ha
    rw [ha]
    simp [mappedAnswer, exactAddrs, readValue, exec, execRdId, execRdCmd, execRdErr, execRdErrInfo, execRdIrqEn,
      execRdRoot, execRdTotal, execRdDecCur, execRdNodeSel, execRdNodeFreq, execRdNodeRep, execRdNodeLink,
      execRdParam, State.nodeFreqWord, State.nodeRepWord_eq, State.nodeLinkWord_eq, State.paramWord_eq]

theorem exec_read_mapped (s : State) {a : Addr} (h : ¬ (a.toNat % 4 ≠ 0 ∨ unmappedAddr a.toNat = true)) :
    exec (decode (.read a)) s = mappedAnswer s a.toNat := by
  obtain ⟨hal, hreg | ⟨hlo, hhi⟩ | ⟨hlo, hhi⟩⟩ := mapped_cases h
  · exact exec_read_register s hal hreg
  · rw [mappedAnswer_of_window s (by omega), readValue_freqWindow s hlo hhi, decode,
      decodeRead_freqWindow hal hlo hhi]
    rfl
  · rw [mappedAnswer_of_window s (by omega), readValue_codeWindow s hlo, exec_read_codeWindow s hal hlo hhi]

/-- Every mapped address shows its value while BUSY = 0. -/
theorem mappedAnswer_idle {s : State} (hidle : s.busy = false) (a : Nat) :
    mappedAnswer s a = .next { s with reads := s.reads ++ [readValue s a] } := by
  unfold mappedAnswer
  split_ifs with hexact hstatus
  · rfl
  · subst hstatus
    refine execRdStatus_next.2 (.inl ⟨hidle, ?_⟩)
    rw [s.statusWord_eq]
    rfl
  · exact answerIdle_of_idle hidle _

/-- STATUS while BUSY = 1 as masks: bits 0 and 6 are fixed, the rest is of the free word (20_memory.md R64). -/
theorem State.busyStatusWord_eq (s : State) (d : Word) :
    s.busyStatusWord d
      = (d &&& 0xFFFFFFBE#32) ||| 0x00000001#32 ||| (if s.err = 0#8 then 0#32 else 0x00000040#32) := by
  have hmask : ∀ i < 32, (0xFFFFFFBE#32).getLsbD i = decide (i ≠ 0 ∧ i ≠ 6) := by decide
  have hone : ∀ i < 32, (0x00000001#32).getLsbD i = decide (i = 0) := by decide
  have herr : ∀ i < 32, (if s.err = 0#8 then 0#32 else 0x00000040#32).getLsbD i = (s.errAny && decide (i = 6)) := by
    by_cases hzero : s.err = 0#8
    · simp [State.errAny, hzero]
    · simp only [State.errAny, hzero, if_false, ne_eq, not_false_eq_true]
      decide
  apply BitVec.eq_of_getLsbD_eq
  intro i hi
  rw [BitVec.getLsbD_or, BitVec.getLsbD_or, BitVec.getLsbD_and, hmask i hi, hone i hi, herr i hi]
  simp only [State.busyStatusWord, BitVec.getLsbD_or, atBit_getLsbD, BitVec.getLsbD_extractLsb']
  obtain rfl | ⟨hlo, hhi⟩ | rfl | hlo : i = 0 ∨ 1 ≤ i ∧ i ≤ 5 ∨ i = 6 ∨ 7 ≤ i := by omega
  · simp
  · simp [hi, hlo, show 1 + (i - 1) = i by omega, show ¬ 6 ≤ i by omega, show ¬ 7 ≤ i by omega,
      show i - 1 < 5 by omega, show i ≠ 0 by omega, show i ≠ 6 by omega]
  · simp
  · simp [hi, hlo, show 7 + (i - 7) = i by omega, show i - 7 < 25 by omega, show ¬ i - 1 < 5 by omega,
      show i - 6 ≠ 0 by omega, show i ≠ 0 by omega, show i ≠ 6 by omega]

/-- A mapped address while BUSY = 1 (20_memory.md R64). -/
theorem mappedAnswer_busy {s : State} (hbusy : s.busy = true) (a : Nat) :
    mappedAnswer s a =
      if a ∈ exactAddrs then .next { s with reads := s.reads ++ [readValue s a] }
      else if a = 0x0008 then
        .next { s with
          reads := s.reads ++ [s.busyStatusWord (Config.busyRead s.draws)], draws := s.draws + 1 }
      else .next { s with reads := s.reads ++ [Config.busyRead s.draws], draws := s.draws + 1 } := by
  rw [mappedAnswer, execRdStatus_next.2 (.inr ⟨hbusy, rfl⟩), answerIdle_next.2 (.inr ⟨hbusy, rfl⟩)]
  rfl

end Sys2Proof.Machine

namespace Sys2Proof

open Sys2Proof.Machine

/-- Settles O15: an address the map does not hold reads 0, and a mapped one is answered by BUSY. -/
theorem memReadOutcome : Obligations.MemReadOutcome := by
  intro a s
  by_cases hbad : a.toNat % 4 ≠ 0 ∨ unmappedAddr a.toNat = true
  · rw [if_pos hbad, decode, decodeRead_unmapped hbad]
    rfl
  · rw [if_neg hbad, exec_read_mapped s hbad, ← s.busyStatusWord_eq]
    cases hbusy : s.busy
    · rw [if_pos rfl, mappedAnswer_idle hbusy]
    · rw [if_neg (by simp), mappedAnswer_busy hbusy]
      rfl

end Sys2Proof
end

section
/-! O55 and O56: what an operation and a step do to the two output streams, and when a command completes. -/

namespace Sys2Proof

/-- The operations a command word can be (30_encoding.md R83). -/
def Instr.isCommand : Instr → Bool
  | .nop | .clrFreq | .count _ | .build | .genCodes | .encode _ | .decStart | .decChar _ | .decEnd | .reset
  | .illegal _ => true
  | _ => false

theorem decodeCommand_isCommand (w : Word) : (decodeCommand w).isCommand = true := by
  unfold decodeCommand decodeNoArg
  repeat' split
  all_goals rfl

end Sys2Proof

namespace Sys2Proof.Machine

/-! ## The streams -/

/-- A stream gains some bytes, and none while its consumer does not accept (20_memory.md R70). -/
def Appends (ready : Bool) (out out' : List Byte) : Prop :=
  ∃ bytes, out' = out ++ bytes ∧ (ready = false → bytes = [])

theorem Appends.same (ready : Bool) (out : List Byte) : Appends ready out out := ⟨[], by simp, fun _ => rfl⟩

theorem Appends.accepted {ready : Bool} {bytes : List Byte} (h : bytes = [] ∨ ready = true) (out : List Byte) :
    Appends ready out (out ++ bytes) :=
  ⟨bytes, rfl, fun hready => h.resolve_right (by simp [hready])⟩

theorem Appends.isPrefix {ready : Bool} {out out' : List Byte} (h : Appends ready out out') : out <+: out' := by
  obtain ⟨bytes, rfl, -⟩ := h
  exact List.prefix_append _ _

theorem Appends.eq_of_not_ready {ready : Bool} {out out' : List Byte} (h : Appends ready out out')
    (hready : ready = false) : out' = out := by
  obtain ⟨bytes, rfl, hnone⟩ := h
  rw [hnone hready, List.append_nil]

/-- Both streams gain bytes their consumer accepts. -/
def StreamsAppend (s t : State) : Prop :=
  Appends s.encReady s.encOut t.encOut ∧ Appends s.decReady s.decOut t.decOut

theorem streamsAppend_of_eq {s t : State} (henc : t.encOut = s.encOut) (hdec : t.decOut = s.decOut) :
    StreamsAppend s t := by
  rw [StreamsAppend, henc, hdec]
  exact ⟨.same _ _, .same _ _⟩

theorem execEncode_streamsAppend {sym : Byte} {s t : State} (h : execEncode sym s = .next t) : StreamsAppend s t := by
  rw [execEncode_next] at h
  rcases h with ⟨-, rfl⟩ | ⟨-, -, ⟨hready, rfl⟩ | ⟨-, -, rfl⟩⟩ | ⟨-, -, -, rfl⟩ | ⟨-, -, -, rfl⟩
  · exact streamsAppend_of_eq rfl rfl
  · exact ⟨.accepted hready _, .same _ _⟩
  all_goals exact streamsAppend_of_eq rfl rfl

theorem execDecChar_streamsAppend {chr : Byte} {s t : State} (h : execDecChar chr s = .next t) :
    StreamsAppend s t := by
  rw [execDecChar_next] at h
  rcases h with ⟨-, rfl⟩ | ⟨-, -, rfl⟩ | ⟨-, -, ⟨nxt, -, ⟨-, hready, rfl⟩ | ⟨-, -, rfl⟩ | ⟨-, rfl⟩⟩ | ⟨-, rfl⟩⟩
  case inr.inr.inl.inl => exact ⟨.same _ _, .accepted (.inr hready) _⟩
  all_goals exact streamsAppend_of_eq rfl rfl

theorem execDecEnd_streamsAppend {s t : State} (h : execDecEnd s = .next t) : StreamsAppend s t := by
  rw [execDecEnd_next] at h
  rcases h with ⟨-, rfl⟩ | ⟨-, -, ⟨hready, rfl⟩ | ⟨-, -, rfl⟩⟩ | ⟨-, -, rfl⟩ | ⟨-, -, -, rfl⟩
  · exact streamsAppend_of_eq rfl rfl
  · exact ⟨.same _ _, .accepted hready _⟩
  all_goals exact streamsAppend_of_eq rfl rfl

/-- ENCODE, DEC_CHAR and DEC_END are the operations that emit. -/
theorem exec_streamsAppend {i : Instr} {s t : State} (h : exec i s = .next t) : StreamsAppend s t := by
  cases i
  case encode sym => exact execEncode_streamsAppend h
  case decChar chr => exact execDecChar_streamsAppend h
  case decEnd => exact execDecEnd_streamsAppend h
  all_goals
    have hkept : t.encOut = s.encOut ∧ t.decOut = s.decOut := by
      revert h
      simp +contextual [exec, or_imp]
    exact streamsAppend_of_eq hkept.1 hkept.2

/-- Hardware reset leaves what was on the streams and the accepted part of the pending command's bytes
(70_reset_and_hazards.md R251). -/
theorem State.streams_isPrefix_abandon (s : State) : s.encOut <+: s.abandon.encOut ∧ s.decOut <+: s.abandon.decOut := by
  obtain ⟨a, b, d, h⟩ := s.abandon_eq
  rw [h]
  exact ⟨List.prefix_append _ _, List.prefix_append _ _⟩

theorem step_streams_isPrefix {s t : State} (h : step s = .next t) : s.encOut <+: t.encOut ∧ s.decOut <+: t.decOut := by
  obtain ⟨r, hcase⟩ := step_next h
  rcases hcase with ⟨-, rfl⟩ | ⟨i, hi⟩ | rfl | ⟨enc, dec, rfl⟩
  · exact ⟨List.prefix_rfl, List.prefix_rfl⟩
  · obtain ⟨henc, hdec⟩ := exec_streamsAppend hi
    exact ⟨henc.isPrefix, hdec.isPrefix⟩
  · exact State.streams_isPrefix_abandon { s with events := r }
  · exact ⟨List.prefix_rfl, List.prefix_rfl⟩

/-! ## Completion -/

/-- A command empties PENDING, or waits for the consumer with nothing changed (40_control.md R101; log entry 7). -/
theorem exec_command_retires {i : Instr} (hi : i.isCommand = true) {s t : State} (h : exec i s = .next t) :
    t.pending = none ∨ t = s := by
  revert h
  cases i
  case nop | clrFreq | count | build | genCodes | encode | decStart | decChar | decEnd | reset | illegal =>
    simp +contextual [exec, or_imp]
  all_goals cases hi

theorem codeBytes_ne_nil {c : CodeEntry} (h : c.len ≠ 0#8) : codeBytes c ≠ [] := by
  simpa [codeBytes, ← BitVec.toNat_inj] using h

/-- The child a character of an open bracket moves to (44_decoder.md R161). -/
theorem nextNode_internal (n : Table Inode) {i : NodeIx} (hi : 256 ≤ i.toNat) {chr : Byte}
    (hchr : chr = 0x30#8 ∨ chr = 0x31#8) :
    nextNode n i chr
      = some (if chr = 0x30#8 then (inodeOf n (i.toNat - 256)).left else (inodeOf n (i.toNat - 256)).right) := by
  have hleaf := (isLeaf_eq_false_iff i).2 hi
  rcases hchr with rfl | rfl <;> simp [nextNode, nodeLeft, nodeRight, hleaf, recordOf]

end Sys2Proof.Machine

namespace Sys2Proof

open Sys2Proof.Machine

/-- Settles O55: an operation appends to the streams, and hardware reset keeps what they hold. -/
theorem streamsOnlyGrow : Obligations.StreamsOnlyGrow := fun _ _ => step_streams_isPrefix

/-- Settles O56: the emitting commands have bytes to put out in the three cases, and so answer the unchanged state. -/
theorem undrainedOutputWaits : Obligations.UndrainedOutputWaits := by
  refine ⟨fun s t w _ h => ?_, fun s sym hready hcodes hvalid hlen => ?_,
    fun s chr hready hact htree hcur hchr hleaf => ?_, fun s hready hact htree hroot hfreq => ?_⟩
  · obtain ⟨henc, hdec⟩ := exec_streamsAppend h
    exact ⟨henc.eq_of_not_ready, hdec.eq_of_not_ready, exec_command_retires (decodeCommand_isCommand w) h⟩
  · exact execEncode_next.2 (.inr (.inl ⟨hcodes, hvalid, .inr ⟨codeBytes_ne_nil hlen, hready, rfl⟩⟩))
  · refine execDecChar_next.2 (.inr (.inr ⟨hact, by simp [htree], .inl ⟨_, nextNode_internal s.inode hcur hchr, ?_⟩⟩))
    exact .inr (.inl ⟨isLeaf_of_le hleaf, hready, rfl⟩)
  · have hbytes : (nodeFreq s.freq s.inode s.root).toNat ≠ 0 := by
      rw [nodeFreq, if_pos (isLeaf_of_le hroot)]
      simpa [State.freqAt, BitVec.ofNat_toNat, ← BitVec.toNat_inj] using hfreq
    exact execDecEnd_next.2 (.inr (.inl ⟨hact, htree, .inr ⟨by simpa using hbytes, hready, rfl⟩⟩))

end Sys2Proof
end

section
/-! The rows of the opcode table as numbers: what each mask fixes of a word or an address. -/

namespace Sys2Proof

open Sys2Proof.Machine

/-! ## Masks -/

/-- A mask that leaves out bits `lo` to `hi - 1` shows every other bit. -/
theorem and_mask_eq_iff_getLsbD {n : Nat} {lo hi : Nat} (x : BitVec n) {mask pat : BitVec n}
    (hmask : ∀ i < n, mask.getLsbD i = decide (i < lo ∨ hi ≤ i))
    (hpat : ∀ i < n, lo ≤ i → i < hi → pat.getLsbD i = false) :
    x &&& mask = pat ↔ ∀ i, i < lo ∨ hi ≤ i → x.getLsbD i = pat.getLsbD i := by
  constructor
  · rintro rfl i hshown
    by_cases hn : i < n
    · simp [hmask i hn, hshown]
    · rw [BitVec.getLsbD_of_ge _ i (by omega), BitVec.getLsbD_of_ge _ i (by omega)]
  · intro h
    refine BitVec.eq_of_getLsbD_eq fun i hn => ?_
    rw [BitVec.getLsbD_and, hmask i hn]
    by_cases hshown : i < lo ∨ hi ≤ i
    · simp [hshown, h i hshown]
    · simp [hshown, hpat i hn (by omega) (by omega)]

/-- The same as numbers: such a mask shows what stands below bit `lo` and from bit `hi` on. -/
theorem and_mask_eq_iff {n : Nat} (lo hi : Nat) (x : BitVec n) {mask pat : BitVec n}
    (hmask : ∀ i < n, mask.getLsbD i = decide (i < lo ∨ hi ≤ i))
    (hpat : ∀ i < n, lo ≤ i → i < hi → pat.getLsbD i = false) :
    x &&& mask = pat ↔ x.toNat % 2 ^ lo = pat.toNat % 2 ^ lo ∧ x.toNat / 2 ^ hi = pat.toNat / 2 ^ hi := by
  rw [and_mask_eq_iff_getLsbD x hmask hpat]
  simp only [← BitVec.testBit_toNat]
  constructor
  · intro h
    constructor <;> apply Nat.eq_of_testBit_eq <;> intro i
    · rw [Nat.testBit_mod_two_pow, Nat.testBit_mod_two_pow]
      by_cases hlt : i < lo <;> simp [hlt, h]
    · rw [Nat.testBit_div_two_pow, Nat.testBit_div_two_pow, h _ (.inr (by omega))]
  · rintro ⟨hlow, hhigh⟩ i (hlt | hge)
    · simpa [hlt] using congrArg (Nat.testBit · i) hlow
    · simpa only [Nat.testBit_div_two_pow, Nat.sub_add_cancel hge] using congrArg (Nat.testBit · (i - hi)) hhigh

@[simp] theorem and_wordMask (w : Word) : w &&& 0xFFFFFFFF#32 = w := BitVec.and_allOnes

@[simp] theorem and_addrMask (a : Addr) : a &&& 0xFFFF#16 = a := BitVec.and_allOnes

/-- The rows with an argument leave out ARG alone (30_encoding.md R82). -/
theorem and_argMask_iff (w : Word) {pat : Word} (hpat : pat.toNat < 256) :
    w &&& 0xFFFF00FF#32 = pat ↔ w.toNat % 256 = pat.toNat ∧ w.toNat < 65536 := by
  have hmid : ∀ i < 32, 8 ≤ i → i < 16 → pat.getLsbD i = false := fun i _ hi _ => by
    rw [← BitVec.testBit_toNat]
    exact Nat.testBit_lt_two_pow (hpat.trans_le (Nat.pow_le_pow_right (n := 2) (by omega) hi))
  rw [and_mask_eq_iff 8 16 w (by decide) hmid]
  omega

/-- The FREQ window's row (30_encoding.md R87). -/
theorem and_freqMask_iff (a : Addr) :
    a &&& 0xFC03#16 = 0x0400#16 ↔ a.toNat % 4 = 0 ∧ 0x0400 ≤ a.toNat ∧ a.toNat ≤ 0x07FF := by
  rw [and_mask_eq_iff 2 10 a (by decide) (by decide), BitVec.toNat_ofNat]
  omega

/-- The CODE window's rows: symbols 0 to 63, 64 to 191 and 192 to 255 (30_encoding.md R87, 10_state.md R50). -/
theorem and_codeLowMask_iff (a : Addr) :
    a &&& 0xF003#16 = 0x1000#16 ↔ a.toNat % 4 = 0 ∧ 0x1000 ≤ a.toNat ∧ a.toNat < 0x2000 := by
  rw [and_mask_eq_iff 2 12 a (by decide) (by decide), BitVec.toNat_ofNat]
  omega

theorem and_codeMidMask_iff (a : Addr) :
    a &&& 0xE003#16 = 0x2000#16 ↔ a.toNat % 4 = 0 ∧ 0x2000 ≤ a.toNat ∧ a.toNat < 0x4000 := by
  rw [and_mask_eq_iff 2 13 a (by decide) (by decide), BitVec.toNat_ofNat]
  omega

theorem and_codeHighMask_iff (a : Addr) :
    a &&& 0xF003#16 = 0x4000#16 ↔ a.toNat % 4 = 0 ∧ 0x4000 ≤ a.toNat ∧ a.toNat < 0x5000 := by
  rw [and_mask_eq_iff 2 12 a (by decide) (by decide), BitVec.toNat_ofNat]
  omega

theorem selects_iff {n : Nat} (w mask pat : BitVec n) : selects w (mask, pat) = true ↔ w &&& mask = pat := beq_iff_eq

/-! ## The rows by number -/

/-- The words some command row selects (30_encoding.md R82). -/
theorem any_commandRows_iff (w : Word) :
    commandRows.any (selects w) = true ↔
      w.toNat ∈ [0, 1, 3, 4, 6, 8, 15] ∨ (w.toNat % 256 ∈ [2, 5, 7] ∧ w.toNat < 65536) := by
  simp only [commandRows, List.any_cons, List.any_nil, Bool.or_false, Bool.or_eq_true, selects_iff, and_wordMask,
    and_argMask_iff, BitVec.toNat_ofNat, Nat.reducePow, Nat.reduceMod, Nat.reduceLT, List.mem_cons, List.not_mem_nil,
    or_false]
  simp only [← BitVec.toNat_inj, BitVec.toNat_ofNat]
  omega

/-- The addresses some write row selects (30_encoding.md R87). -/
theorem any_writeRows_iff (a : Addr) :
    writeRows.any (selects a) = true ↔
      ¬ (a.toNat % 4 ≠ 0 ∨ unmappedAddr a.toNat = true ∨ readOnlyAddr a.toNat = true) := by
  simp only [writeRows, List.any_cons, List.any_nil, Bool.or_false, Bool.or_eq_true, selects_iff, and_addrMask,
    and_freqMask_iff, unmappedAddr_iff, readOnlyAddr_iff, List.mem_cons, List.not_mem_nil, or_false]
  simp only [← BitVec.toNat_inj, BitVec.toNat_ofNat]
  omega

/-- The addresses some read row selects (30_encoding.md R87). -/
theorem any_readRows_iff (a : Addr) :
    readRows.any (selects a) = true ↔ ¬ (a.toNat % 4 ≠ 0 ∨ unmappedAddr a.toNat = true) := by
  simp only [readRows, List.any_cons, List.any_nil, Bool.or_false, Bool.or_eq_true, selects_iff, and_addrMask,
    and_freqMask_iff, and_codeLowMask_iff, and_codeMidMask_iff, and_codeHighMask_iff, unmappedAddr_iff]
  simp only [← BitVec.toNat_inj, BitVec.toNat_ofNat]
  omega

end Sys2Proof
end

section
/-! Command words (30_encoding.md R80 to R84): their fields, and the decoder against the encoder. -/

namespace Sys2Proof

open Sys2Proof.Machine

@[simp] theorem opField_commandWord (op : BitVec 4) (arg : Byte) : opField (commandWord op arg) = op := by
  rw [opField, extractLsb'_eq_iff, commandWord_toNat]
  omega

@[simp] theorem rsv0Field_commandWord (op : BitVec 4) (arg : Byte) : rsv0Field (commandWord op arg) = 0#4 := by
  rw [rsv0Field, extractLsb'_eq_iff, commandWord_toNat, BitVec.toNat_ofNat]
  omega

@[simp] theorem argField_commandWord (op : BitVec 4) (arg : Byte) : argField (commandWord op arg) = arg := by
  rw [argField, extractLsb'_eq_iff, commandWord_toNat]
  omega

@[simp] theorem rsv1Field_commandWord (op : BitVec 4) (arg : Byte) : rsv1Field (commandWord op arg) = 0#16 := by
  rw [rsv1Field, extractLsb'_eq_iff, commandWord_toNat, BitVec.toNat_ofNat]
  omega

/-- A word whose reserved fields are 0 is its OP and its ARG (30_encoding.md R80). -/
theorem commandWord_of_reserved {w : Word} (h : ¬ (rsv0Field w ≠ 0#4 ∨ rsv1Field w ≠ 0#16)) :
    commandWord (opField w) (argField w) = w := by
  simp only [rsv0Field, rsv1Field, ne_eq, extractLsb'_eq_iff, BitVec.toNat_ofNat] at h
  rw [← BitVec.toNat_inj, commandWord_toNat, opField, argField, extractLsb'_toNat_eq_div, extractLsb'_toNat_eq_div]
  omega

theorem encode_decodeNoArg {op : BitVec 4} {i : Instr} (hi : encode i = .command (commandWord op 0#8)) (arg : Byte) :
    encode (decodeNoArg (commandWord op arg) i) = .command (commandWord op arg) := by
  rw [decodeNoArg, argField_commandWord]
  split
  case isTrue harg => rw [hi, harg]
  case isFalse => rfl

theorem encode_decodeCommand (w : Word) : encode (decodeCommand w) = .command w := by
  by_cases hrsv : rsv0Field w ≠ 0#4 ∨ rsv1Field w ≠ 0#16
  · rw [decodeCommand, if_pos hrsv, encode]
  · rw [← commandWord_of_reserved hrsv]
    generalize opField w = op
    generalize argField w = arg
    rw [decodeCommand, if_neg (by simp), opField_commandWord, argField_commandWord]
    split
    case h_11 => rfl
    all_goals
      rename_i hop
      obtain ⟨-, rfl⟩ := BitVec.toNat_eq_nat.1 hop
    case h_3 | h_6 | h_8 => rfl
    all_goals exact encode_decodeNoArg rfl arg

theorem decodeNoArg_eq_illegal_iff (w : Word) {i : Instr} (hi : i ≠ .illegal w) :
    decodeNoArg w i = .illegal w ↔ argField w ≠ 0#8 := by
  by_cases harg : argField w = 0#8 <;> simp [decodeNoArg, harg, hi]

/-- The illegal words (30_encoding.md R84). -/
theorem decodeCommand_eq_illegal_iff (w : Word) :
    decodeCommand w = .illegal w ↔
      (9 ≤ (opField w).toNat ∧ (opField w).toNat ≤ 14) ∨ rsv0Field w ≠ 0#4 ∨ rsv1Field w ≠ 0#16 ∨
        (argField w ≠ 0#8 ∧ (opField w).toNat ∉ [2, 5, 7]) := by
  by_cases hrsv : rsv0Field w ≠ 0#4 ∨ rsv1Field w ≠ 0#16
  · rw [decodeCommand, if_pos hrsv]
    tauto
  · rw [decodeCommand, if_neg hrsv]
    rw [not_or, not_not, not_not] at hrsv
    split
    case h_11 =>
      have hlt := (opField w).isLt
      refine iff_of_true rfl (.inl ?_)
      simp only [imp_false] at *
      omega
    all_goals
      rename_i hop
      simp [hop, hrsv, decodeNoArg_eq_illegal_iff]

/-- No command row's mask selects a word exactly when the decoder finds it illegal (30_encoding.md R82, R84). -/
theorem wellFormed_illegal_iff (w : Word) : (Instr.illegal w).wellFormed = true ↔ decodeCommand w = .illegal w := by
  rw [decodeCommand_eq_illegal_iff, Instr.wellFormed, Bool.not_eq_true', ← Bool.not_eq_true, any_commandRows_iff]
  simp only [opField, rsv0Field, argField, rsv1Field, ne_eq, extractLsb'_eq_iff, extractLsb'_toNat_eq_div,
    BitVec.toNat_ofNat, List.mem_cons, List.not_mem_nil, or_false]
  omega

end Sys2Proof
end

section
/-! Accesses (30_encoding.md R87): the decoder against the encoder at every address. -/

namespace Sys2Proof

open Sys2Proof.Machine

theorem codeAddr_codeSymbol_toNat {n : Nat} (base : Byte) (part : BitVec n) (idx : BitVec 4)
    (h : base.toNat + part.toNat < 256) :
    (codeAddr (codeSymbol base part) idx).toNat = 0x1000 + 64 * (base.toNat + part.toNat) + 4 * idx.toNat := by
  simp only [codeAddr, codeSymbol_eq, BitVec.toNat_add, BitVec.toNat_mul, BitVec.toNat_setWidth, BitVec.toNat_ofNat]
  omega

/-- An aligned address of the CODE window is that of its fields (10_state.md R50). -/
theorem codeAddr_fields {n : Nat} {a : Addr} (base : Byte) (hal : a.toNat % 4 = 0) (hlo : 0x1000 ≤ a.toNat)
    (hhi : a.toNat < 0x5000) (hsym : base.toNat + a.toNat / 2 ^ 6 % 2 ^ n = (a.toNat - 0x1000) / 64) :
    codeAddr (codeSymbol base (a.extractLsb' 6 n)) (a.extractLsb' 2 4) = a := by
  rw [← BitVec.toNat_inj, codeAddr_codeSymbol_toNat, extractLsb'_toNat_eq_div, extractLsb'_toNat_eq_div, hsym]
  · omega
  · rw [extractLsb'_toNat_eq_div]
    omega

/-- The accesses the address map gives no register or window (20_memory.md R62, R63). -/
def Instr.isRejected : Instr → Bool
  | .wrBad _ _ | .rdUnmapped _ => true
  | _ => false

/-- `i` is the operation of `e`, an access the address map does not reject. -/
def Instr.Names (i : Instr) (e : Encoding) : Prop := Sys2Proof.encode i = e ∧ i.isRejected = false

/-- Every mapped address has a row of its own (20_memory.md R61, R62). -/
theorem decodeRead_names {a : Addr} (h : ¬ (a.toNat % 4 ≠ 0 ∨ unmappedAddr a.toNat = true)) :
    (decodeRead a).Names (.read a) := by
  obtain ⟨hal, hreg | ⟨hlo, hhi⟩ | ⟨hlo, hhi⟩⟩ := mapped_cases h
  · unfold decodeRead
    split
    case h_15 =>
      simp only [imp_false] at *
      omega
    all_goals
      rename_i ha
      exact ⟨congrArg Encoding.read (BitVec.toNat_eq_nat.1 ha).2.symm, rfl⟩
  · rw [decodeRead_freqWindow hal hlo hhi]
    exact ⟨congrArg Encoding.read (freqAddr_freqWindow_symbol hal hlo hhi), rfl⟩
  · rw [decodeRead_window (by omega), decodeReadWindow_code hal hlo hhi]
    split_ifs with h1 h2
    · exact ⟨congrArg Encoding.read (codeAddr_fields 0#8 hal hlo hhi (by rw [BitVec.toNat_ofNat]; omega)), rfl⟩
    · exact ⟨congrArg Encoding.read (codeAddr_fields 64#8 hal hlo hhi (by rw [BitVec.toNat_ofNat]; omega)), rfl⟩
    · exact ⟨congrArg Encoding.read (codeAddr_fields 192#8 hal hlo hhi (by rw [BitVec.toNat_ofNat]; omega)), rfl⟩

theorem encode_decodeRead (a : Addr) : encode (decodeRead a) = .read a := by
  by_cases h : a.toNat % 4 ≠ 0 ∨ unmappedAddr a.toNat = true
  · rw [decodeRead_unmapped h, encode]
  · exact (decodeRead_names h).1

theorem wellFormed_rdUnmapped_iff (a : Addr) :
    (Instr.rdUnmapped a).wellFormed = true ↔ decodeRead a = .rdUnmapped a := by
  rw [Instr.wellFormed, Bool.not_eq_true', ← Bool.not_eq_true, any_readRows_iff, not_not]
  refine ⟨decodeRead_unmapped, fun hdec => by_contra fun h => ?_⟩
  obtain ⟨-, hmapped⟩ := decodeRead_names h
  simp [hdec, Instr.isRejected] at hmapped

/-- Every writable address has a row of its own (20_memory.md R61, R63). -/
theorem decodeWrite_names {a : Addr} (v : Word)
    (h : ¬ (a.toNat % 4 ≠ 0 ∨ unmappedAddr a.toNat = true ∨ readOnlyAddr a.toNat = true)) :
    (decodeWrite a v).Names (.write a v) := by
  rcases writable_cases h with rfl | rfl | rfl | rfl | ⟨hal, hlo, hhi⟩
  · exact ⟨rfl, rfl⟩
  · exact ⟨rfl, rfl⟩
  · exact ⟨rfl, rfl⟩
  · exact ⟨rfl, rfl⟩
  · rw [decodeWrite_freqWindow v hal hlo hhi]
    exact ⟨congrArg (Encoding.write · v) (freqAddr_freqWindow_symbol hal hlo hhi), rfl⟩

theorem encode_decodeWrite (a : Addr) (v : Word) : encode (decodeWrite a v) = .write a v := by
  by_cases h : a.toNat % 4 ≠ 0 ∨ unmappedAddr a.toNat = true ∨ readOnlyAddr a.toNat = true
  · rw [decodeWrite_bad v h, encode]
  · exact (decodeWrite_names v h).1

theorem wellFormed_wrBad_iff (a : Addr) (v : Word) :
    (Instr.wrBad a v).wellFormed = true ↔ decodeWrite a v = .wrBad a v := by
  rw [Instr.wellFormed, Bool.not_eq_true', ← Bool.not_eq_true, any_writeRows_iff, not_not]
  refine ⟨decodeWrite_bad v, fun hdec => by_contra fun h => ?_⟩
  obtain ⟨-, hmapped⟩ := decodeWrite_names v h
  simp [hdec, Instr.isRejected] at hmapped

/-- A CODE window address made of a row's part and word index, and the two read back from it (10_state.md R50). -/
theorem codeAddr_codeSymbol_fields {n : Nat} (base : Byte) (part : BitVec n) (idx : BitVec 4)
    (hbound : base.toNat + 2 ^ n ≤ 256) (hbase : (64 + base.toNat) % 2 ^ n = 0) :
    (codeAddr (codeSymbol base part) idx).toNat = 0x1000 + 64 * (base.toNat + part.toNat) + 4 * idx.toNat ∧
    (codeAddr (codeSymbol base part) idx).extractLsb' 6 n = part ∧
    (codeAddr (codeSymbol base part) idx).extractLsb' 2 4 = idx := by
  have hpart := part.isLt
  have ha := codeAddr_codeSymbol_toNat base part idx (by omega)
  have hsym : (0x1000 + 64 * (base.toNat + part.toNat) + 4 * idx.toNat) / 2 ^ 6 = 64 + base.toNat + part.toNat := by
    omega
  refine ⟨ha, ?_, ?_⟩ <;> rw [extractLsb'_eq_iff, ha]
  · rw [hsym, Nat.add_mod, hbase, Nat.zero_add, Nat.mod_mod, Nat.mod_eq_of_lt hpart]
  · omega

theorem decodeRead_codeAddr_low (part : BitVec 6) (idx : BitVec 4) :
    decodeRead (codeAddr (codeSymbol 0#8 part) idx) = .rdCodeLow part idx := by
  obtain ⟨ha, hpart, hidx⟩ := codeAddr_codeSymbol_fields 0#8 part idx (by decide) (by decide)
  rw [BitVec.toNat_ofNat] at ha
  rw [decodeRead_window (by omega), decodeReadWindow_code (by omega) (by omega) (by omega), if_pos (by omega), hpart,
    hidx]

theorem decodeRead_codeAddr_mid (part : BitVec 7) (idx : BitVec 4) :
    decodeRead (codeAddr (codeSymbol 64#8 part) idx) = .rdCodeMid part idx := by
  obtain ⟨ha, hpart, hidx⟩ := codeAddr_codeSymbol_fields 64#8 part idx (by decide) (by decide)
  rw [BitVec.toNat_ofNat] at ha
  rw [decodeRead_window (by omega), decodeReadWindow_code (by omega) (by omega) (by omega), if_neg (by omega),
    if_pos (by omega), hpart, hidx]

theorem decodeRead_codeAddr_high (part : BitVec 6) (idx : BitVec 4) :
    decodeRead (codeAddr (codeSymbol 192#8 part) idx) = .rdCodeHigh part idx := by
  obtain ⟨ha, hpart, hidx⟩ := codeAddr_codeSymbol_fields 192#8 part idx (by decide) (by decide)
  rw [BitVec.toNat_ofNat] at ha
  rw [decodeRead_window (by omega), decodeReadWindow_code (by omega) (by omega) (by omega), if_neg (by omega),
    if_neg (by omega), hpart, hidx]

theorem decodeRead_freqAddr (sym : Byte) : decodeRead (freqAddr sym) = .rdFreq sym := by
  have ha := freqAddr_toNat sym
  rw [decodeRead_freqWindow (by omega) (by omega) (by omega), ha, Nat.add_sub_cancel_left,
    Nat.mul_div_cancel_left _ (by omega), BitVec.ofNat_toNat, BitVec.setWidth_eq]

theorem decodeWrite_freqAddr (sym : Byte) (v : Word) : decodeWrite (freqAddr sym) v = .wrFreq sym v := by
  have ha := freqAddr_toNat sym
  rw [decodeWrite_freqWindow v (by omega) (by omega) (by omega), ha, Nat.add_sub_cancel_left,
    Nat.mul_div_cancel_left _ (by omega), BitVec.ofNat_toNat, BitVec.setWidth_eq]

end Sys2Proof
end

section
/-! O2 and O3: decoding and encoding undo each other. -/

namespace Sys2Proof

open Sys2Proof.Machine

theorem encode_decode (e : Encoding) : encode (decode e) = e := by
  cases e with
  | command w => exact encode_decodeCommand w
  | write a v => exact encode_decodeWrite a v
  | read a => exact encode_decodeRead a

/-- The rows' masks and matches agree with the decoder: an operation is well formed exactly when its encoding decodes
to it. -/
theorem wellFormed_iff_decode_encode (i : Instr) : i.wellFormed = true ↔ decode (encode i) = i := by
  cases i with
  | illegal w => exact wellFormed_illegal_iff w
  | wrBad a v => exact wellFormed_wrBad_iff a v
  | rdUnmapped a => exact wellFormed_rdUnmapped_iff a
  | count sym => exact iff_of_true rfl (by simp [encode, decode, decodeCommand])
  | encode sym => exact iff_of_true rfl (by simp [encode, decode, decodeCommand])
  | decChar chr => exact iff_of_true rfl (by simp [encode, decode, decodeCommand])
  | wrFreq sym v => exact iff_of_true rfl (decodeWrite_freqAddr sym v)
  | rdFreq sym => exact iff_of_true rfl (decodeRead_freqAddr sym)
  | rdCodeLow part idx => exact iff_of_true rfl (decodeRead_codeAddr_low part idx)
  | rdCodeMid part idx => exact iff_of_true rfl (decodeRead_codeAddr_mid part idx)
  | rdCodeHigh part idx => exact iff_of_true rfl (decodeRead_codeAddr_high part idx)
  | _ => exact iff_of_true rfl rfl

/-- Settles O2: a row's operation decodes from its word or address, and a catch-all term is well formed when no other
row takes what it holds. -/
theorem decodeInvertsEncode : Obligations.DecodeInvertsEncode := fun i => (wellFormed_iff_decode_encode i).1

/-- Settles O3: encoding undoes decoding, so a decoded operation decodes from its own encoding, and is well formed. -/
theorem encodeInvertsDecode : Obligations.EncodeInvertsDecode := fun e =>
  ⟨(wellFormed_iff_decode_encode _).2 (congrArg decode (encode_decode e)), encode_decode e⟩

end Sys2Proof
end

section
/-! O4 and O5: the row a command word selects, and the illegal words. -/

namespace Sys2Proof

open Sys2Proof.Machine

/-- A row without an argument has one word (30_encoding.md R82). -/
theorem decode_of_fullRow {w pat : Word} {i : Instr} (hi : decode (.command pat) = i)
    (h : w &&& 0xFFFFFFFF#32 = pat) : decode (.command w) = i := by
  rw [and_wordMask] at h
  rw [h, hi]

/-- A row with an argument has one word for each ARG (30_encoding.md R82). -/
theorem decode_of_argRow {w : Word} {op : BitVec 4} {f : Byte → Instr}
    (hf : ∀ arg, decode (.command (commandWord op arg)) = f arg) (h : w &&& 0xFFFF00FF#32 = commandWord op 0#8) :
    decode (.command w) = f (argField w) := by
  have hpat : (commandWord op 0#8).toNat = op.toNat := by simp [commandWord_toNat]
  rw [and_argMask_iff w (by omega), hpat] at h
  have hw : w = commandWord op (argField w) := by
    rw [← BitVec.toNat_inj, commandWord_toNat, argField, extractLsb'_toNat_eq_div]
    omega
  exact (congrArg (decode ∘ .command) hw).trans (hf _)

/-- Every mask covers OP, so a selected row shows the word's OP (30_encoding.md R82). -/
theorem opField_of_selects {w : Word} {row : Word × Word} (hrow : row ∈ commandRows) (h : selects w row = true) :
    opField row.2 = opField w := by
  have hmask : ∀ r ∈ commandRows, opField r.1 = BitVec.allOnes 4 := by simp [commandRows, opField]
  rw [← (selects_iff w row.1 row.2).1 h, opField, BitVec.extractLsb'_and, ← opField, ← opField, hmask row hrow,
    BitVec.and_allOnes]

/-- The rows differ in OP, so no word selects two (30_encoding.md R82). -/
theorem countP_commandRows_le_one (w : Word) : commandRows.countP (selects w) ≤ 1 := by
  have hdiffer : (commandRows.map (opField ·.2)).Nodup := by decide
  calc commandRows.countP (selects w)
      ≤ commandRows.countP ((· == opField w) ∘ (opField ·.2)) :=
        List.countP_mono_left fun row hrow h => beq_iff_eq.2 (opField_of_selects hrow h)
    _ = (commandRows.map (opField ·.2)).count (opField w) := by rw [List.count, List.countP_map]
    _ ≤ 1 := List.nodup_iff_count_le_one.1 hdiffer _

/-- Settles O4: under its mask a row shows its one word, or its OP and any ARG, and no two rows show one OP. -/
theorem commandRowsSelectOneCommand : Obligations.CommandRowsSelectOneCommand := fun w =>
  ⟨decode_of_fullRow rfl, decode_of_fullRow rfl,
    decode_of_argRow fun sym => decodeInvertsEncode (.count sym) rfl,
    decode_of_fullRow rfl, decode_of_fullRow rfl,
    decode_of_argRow fun sym => decodeInvertsEncode (.encode sym) rfl,
    decode_of_fullRow rfl,
    decode_of_argRow fun chr => decodeInvertsEncode (.decChar chr) rfl,
    decode_of_fullRow rfl, decode_of_fullRow rfl, countP_commandRows_le_one w⟩

/-- ERR_INFO of an illegal word: CAUSE 1, its OP and ARG, the address of CMD (40_control.md R102). -/
theorem errorRecord_illegalCmd (w : Word) :
    errorRecord .illegalCmd (opField w) (argField w) 0x0004#16
      = BitVec.ofNat 32 (0x00040001 + 256 * (w.extractLsb' 8 8).toNat + 16 * (w.extractLsb' 0 4).toNat) := by
  have hcode : (causeCode .illegalCmd).toNat = 1 := rfl
  have haddr : (0x0004#16).toNat = 4 := rfl
  rw [errorRecord_eq, opField, argField]
  congr 1
  omega

/-- Settles O5: the illegal words by their fields, and ILLEGAL as one raise whose record is its fields' sum. -/
theorem illegalWordsRaiseIllegalCmd : Obligations.IllegalWordsRaiseIllegalCmd := by
  intro w s
  refine ⟨decodeCommand_eq_illegal_iff w, ?_⟩
  rw [← errorRecord_illegalCmd]
  exact execIllegal_next.2 rfl

end Sys2Proof
end

section
/-! O8 and O1: what a placed table word runs, and the sample words. -/

namespace Sys2Proof.Machine

/-- A placed access is the next act (log entry 12). -/
theorem step_place_access (s : State) {e : Encoding} (h : ∀ w, e ≠ .command w) :
    step (s.place e) = exec (decode e) s := by
  cases e with
  | command w => exact absurd rfl (h w)
  | write a v => rfl
  | read a => rfl

/-- A placed command is pending at the Engine's turn (log entry 12). -/
theorem step_place_command (s : State) (w : Word) :
    step (s.place (.command w)) = exec (decode (.command w)) { s with pending := some w } :=
  rfl

/-- A table address stands for an access (log entry 11). -/
theorem tableAccess_ne_command (a : Addr) (w : Word) : tableAccess a ≠ .command w := by
  unfold tableAccess
  split <;> nofun

end Sys2Proof.Machine

namespace Sys2Proof

open Sys2Proof.Machine

/-- Settles O1: each word and address decodes by evaluation. -/
theorem sampleWordsDecode : Obligations.SampleWordsDecode := by
  unfold Obligations.SampleWordsDecode
  decide

/-- Settles O8: a placed command is pending at the Engine's turn, and a 16-bit word places an access. -/
theorem placedTableWordRunsNext : Obligations.PlacedTableWordRunsNext := by
  refine ⟨fun s w => step_place_command s _, fun s w i hi => ?_⟩
  obtain rfl : decode (tableAccess (BitVec.ofNat 16 w)) = i := Option.some.inj hi
  exact step_place_access s (tableAccess_ne_command _)

end Sys2Proof
end

section
/-! O31, O13, O22 and O32: the command mechanism (40_control.md R100, R101). A command ends or waits, and an issue is the
one access that writes PENDING. -/

namespace Sys2Proof

theorem isCommand_iff_encode (i : Instr) : i.isCommand = true ↔ ∃ w, encode i = .command w := by
  cases i <;> simp [Instr.isCommand, encode]

end Sys2Proof

namespace Sys2Proof.Machine

theorem State.busy_eq_false_iff (s : State) : s.busy = false ↔ s.pending = none := by
  simp [State.busy]

theorem execWrCmd_pending {v : Word} {s t : State} (h : execWrCmd v s = .next t) :
    t.pending = s.pending ∨ (s.pending = none ∧ t.pending = some v) := by
  rcases execWrCmd_next.1 h with ⟨hidle, rfl⟩ | ⟨-, rfl⟩
  · exact .inr ⟨s.busy_eq_false_iff.1 hidle, rfl⟩
  · exact .inl rfl

/-- An access keeps PENDING, unless it is a CMD write that finds nothing pending (40_control.md R100). -/
theorem exec_access_pending {i : Instr} (hi : i.isCommand = false) {s t : State} (h : exec i s = .next t) :
    t.pending = s.pending ∨ ∃ v, i = .wrCmd v ∧ s.pending = none ∧ t.pending = some v := by
  cases i
  case wrCmd v => exact (execWrCmd_pending h).imp_right fun hissue => ⟨v, rfl, hissue⟩
  case nop | clrFreq | count | build | genCodes | encode | decStart | decChar | decEnd | reset | illegal => cases hi
  all_goals
    refine .inl ?_
    revert h
    simp +contextual [exec, or_imp, State.clearErrors]

/-- BUSY rises only by an issue (40_control.md R100, R101). -/
theorem exec_pending_some {i : Instr} {s t : State} (h : exec i s = .next t) {w : Word} (hw : t.pending = some w) :
    s.pending = some w ∨ (s.pending = none ∧ i = .wrCmd w) := by
  cases hi : i.isCommand
  · rcases exec_access_pending hi h with hkept | ⟨v, rfl, hnone, hissued⟩
    · exact .inl (hkept ▸ hw)
    · obtain rfl : v = w := Option.some.inj (hissued.symm.trans hw)
      exact .inr ⟨hnone, rfl⟩
  · rcases exec_command_retires hi h with hnone | rfl
    · rw [hnone] at hw
      cases hw
    · exact .inl hw

end Sys2Proof.Machine

namespace Sys2Proof

open Sys2Proof.Machine

/-- Settles O31: a command empties PENDING or waits unchanged, and an access writes it only as an issue, which needs
BUSY = 0. -/
theorem onlyIssueRaisesBusy : Obligations.OnlyIssueRaisesBusy := by
  intro i s t h
  refine ⟨fun w hw => exec_pending_some h hw,
    fun w hw => exec_command_retires ((isCommand_iff_encode i).2 ⟨w, hw⟩) h, fun hi hbusy => ?_⟩
  have haccess : i.isCommand = false := Bool.eq_false_iff.2 fun hc =>
    ((isCommand_iff_encode i).1 hc).elim hi
  refine (exec_access_pending haccess h).resolve_right ?_
  rintro ⟨-, -, hnone, -⟩
  rw [s.busy_eq_false_iff.2 hnone] at hbusy
  cases hbusy

/-- Settles O13: RESET is `clearRegisters` and the command's end. -/
theorem resetCommandRestoresRegisters : Obligations.ResetCommandRestoresRegisters := fun _ =>
  ⟨_, execReset_next.2 rfl, fun _ => rfl, rfl⟩

/-- Settles O22: a CMD write is an issue while BUSY = 0, and a raise, which keeps PENDING, while BUSY = 1. -/
theorem issueOnlySetsPending : Obligations.IssueOnlySetsPending := fun s _ =>
  ⟨fun hidle => execWrCmd_next.2 (.inl ⟨hidle, rfl⟩),
    fun hbusy => ⟨_, execWrCmd_next.2 (.inr ⟨hbusy, rfl⟩), rfl, s.raise_pending _ _ _ _⟩⟩

/-- Settles O32: NOP is the command's end alone. -/
theorem nopOnlyRetires : Obligations.NopOnlyRetires := fun _ => execNop_next.2 rfl

end Sys2Proof
end

section
/-! O33, O26 and O34: the three operations that write counters (41_frequency.md R110 to R112). Each leaves the state of
an `invalidate`, so its frame holds by definition and what is left to show is FREQ and the error's record. -/

namespace Sys2Proof.Machine

theorem freqAddr_eq_ofNat (sym : Byte) : freqAddr sym = BitVec.ofNat 16 (0x0400 + 4 * sym.toNat) := by
  rw [← freqAddr_toNat, BitVec.ofNat_toNat, BitVec.setWidth_eq]

/-- ERR_INFO of a COUNT at the largest value: CAUSE 3, OP 2, its symbol, the address of CMD (41_frequency.md R112). -/
theorem errorRecord_countOverflow (sym : Byte) :
    errorRecord .freqOverflow 0x2#4 sym 0x0004#16 = BitVec.ofNat 32 (0x00040023 + 256 * sym.toNat) := by
  have hcode : (causeCode .freqOverflow).toNat = 3 := rfl
  have hop : (0x2#4).toNat = 2 := rfl
  have haddr : (0x0004#16).toNat = 4 := rfl
  rw [errorRecord_eq]
  congr 1
  omega

/-- A counter below FREQ_MAX does not wrap (00_scope.md section 4). -/
theorem succ_toNat_of_lt_freqMax {s : State} {v : Word} (hW : s.freqW ≤ 32) (hv : v.toNat < s.freqMax) :
    (v + 1#32).toNat = v.toNat + 1 := by
  have hfits : v.toNat + 1 < 2 ^ 32 := lt_two_pow_of_le_freqMax hW hv
  rw [BitVec.toNat_add, BitVec.toNat_ofNat]
  omega

end Sys2Proof.Machine

namespace Sys2Proof

open Sys2Proof.Machine

/-- Settles O33: CLR_FREQ leaves no counter listed. -/
theorem clrFreqClearsTable : Obligations.ClrFreqClearsTable := fun _ =>
  ⟨_, execClrFreq_next.2 rfl, fun _ => rfl, rfl⟩

/-- Settles O26: a FREQ write is taken while BUSY = 0 and rejected while BUSY = 1, and no misaligned address is one. -/
theorem freqWriteStoresAndInvalidates : Obligations.FreqWriteStoresAndInvalidates := by
  intro s sym v
  refine ⟨fun hidle => ⟨_, execWrFreq_next.2 (.inl ⟨hidle, rfl⟩), s.freqAt_setFreq sym (v := s.lowFreqBits v), rfl⟩,
    fun hbusy => ?_, fun a hmis => ?_⟩
  · rw [← freqAddr_eq_ofNat]
    exact execWrFreq_next.2 (.inr ⟨hbusy, rfl⟩)
  · rw [decode, decodeWrite_bad v (.inl hmis)]
    rfl

/-- Settles O34: COUNT at FREQ_MAX is one raise; below it, one counter's write and INVALIDATE. -/
theorem countIncrementsOrOverflows : Obligations.CountIncrementsOrOverflows := by
  intro s sym
  refine ⟨fun hmax => ?_, fun hroom => ?_⟩
  · rw [← errorRecord_countOverflow]
    exact execCount_next.2 (.inl ⟨hmax, rfl⟩)
  · have hfreq := s.freqAt_setFreq sym (v := s.freqAt sym + 1#32)
    refine ⟨_, execCount_next.2 (.inr ⟨hroom, rfl⟩), hfreq, fun hlt hW => ?_, rfl⟩
    calc ((s.setFreq sym (s.freqAt sym + 1#32)).freqAt sym).toNat
        = (s.freqAt sym + 1#32).toNat := by rw [hfreq, if_pos rfl]
      _ = (s.freqAt sym).toNat + 1 := succ_toNat_of_lt_freqMax hW hlt

end Sys2Proof
end

section
/-! O35: counting a source byte by byte (41_frequency.md R113), by induction on the source from any counters. -/

namespace Sys2Proof.Machine

theorem execAll_cons_of_next {i : Instr} {s t : State} (h : exec i s = .next t) (is : List Instr) :
    execAll (i :: is) s = execAll is t := by
  rw [execAll, h]

/-- COUNT of a symbol whose counter is below FREQ_MAX counts one byte and raises nothing (41_frequency.md R112). -/
theorem exec_count_of_lt_freqMax {s : State} {x : Byte} (hW : s.freqW ≤ 32) (hx : (s.freqAt x).toNat < s.freqMax) :
    ∃ t, exec (.count x) s = .next t ∧ t.freqW = s.freqW ∧ t.err = s.err ∧
      ∀ c, (t.freqAt c).toNat = (s.freqAt c).toNat + [x].count c := by
  obtain ⟨t, ht, hfreq, hsucc, hframe⟩ := (countIncrementsOrOverflows s x).2 hx.ne
  refine ⟨t, ht, (congrArg State.freqW hframe :), (congrArg State.err hframe :), fun c => ?_⟩
  by_cases hc : c = x
  · rw [hc, hsucc hx hW, List.count_singleton_self]
  · rw [hfreq, if_neg hc, List.count_singleton, if_neg (by simpa using Ne.symm hc), Nat.add_zero]

/-- COUNT of each byte of a source adds its counts to FREQ, where no sum passes FREQ_MAX. -/
theorem execAll_count {s : State} {src : List Byte} (hW : s.freqW ≤ 32)
    (hroom : ∀ c, (s.freqAt c).toNat + src.count c ≤ s.freqMax) :
    ∃ t, execAll (src.map .count) s = .next t ∧ t.err = s.err ∧
      ∀ c, (t.freqAt c).toNat = (s.freqAt c).toNat + src.count c := by
  induction src generalizing s with
  | nil => exact ⟨s, rfl, rfl, fun _ => rfl⟩
  | cons x xs ih =>
    have hsplit : ∀ c, (x :: xs).count c = [x].count c + xs.count c := fun c => List.count_append (l₁ := [x])
    have hx : (s.freqAt x).toNat < s.freqMax := by
      have := hroom x
      rw [List.count_cons_self] at this
      omega
    obtain ⟨u, hu, huW, huerr, hufreq⟩ := exec_count_of_lt_freqMax hW hx
    have huroom : ∀ c, (u.freqAt c).toNat + xs.count c ≤ u.freqMax := fun c => by
      rw [hufreq, Nat.add_assoc, ← hsplit, State.freqMax, huW]
      exact hroom c
    obtain ⟨t, ht, hterr, htfreq⟩ := ih (huW ▸ hW) huroom
    refine ⟨t, (execAll_cons_of_next hu _).trans ht, hterr.trans huerr, fun c => ?_⟩
    rw [htfreq, hufreq, Nat.add_assoc, ← hsplit]

end Sys2Proof.Machine

namespace Sys2Proof

open Sys2Proof.Machine

/-- Settles O35: after CLR_FREQ every counter is 0, and each COUNT adds its byte. -/
theorem countingASource : Obligations.CountingASource := by
  intro s src hW hcounts
  obtain ⟨z, hz, hzero, hframe⟩ := clrFreqClearsTable s
  have hzW : z.freqW = s.freqW := (congrArg State.freqW hframe :)
  have hzerr : z.err = s.err := (congrArg State.err hframe :)
  have hsum : ∀ c, (z.freqAt c).toNat + src.count c = src.count c := fun c => by
    rw [hzero, BitVec.toNat_zero, Nat.zero_add]
  obtain ⟨t, ht, hterr, htfreq⟩ := execAll_count (hzW ▸ hW) fun c => by
    rw [hsum, State.freqMax, hzW]
    exact hcounts c
  exact ⟨t, (execAll_cons_of_next hz _).trans ht, hterr.trans hzerr, fun c => (htfreq c).trans (hsum c)⟩

end Sys2Proof
end

section
/-! The nodes BUILD has made before a merge, and the edges of its merges: each node is in the queue or the child of
one edge, never both (42_tree_builder.md R133: "each node enters Q once and leaves it once, as a child"). -/

namespace Sys2Proof.Machine

/-! ## The nodes made -/

theorem symbols_nodup : symbols.Nodup :=
  List.nodup_range.map_on fun x hx y hy h => by
    rw [List.mem_range] at hx hy
    simpa [Nat.mod_eq_of_lt hx, Nat.mod_eq_of_lt hy] using congrArg BitVec.toNat h

theorem leafList_nodup (f : Table Word) : (leafList f).Nodup :=
  (symbols_nodup.filter _).map fun _ _ => leafIx_injective

/-- The leaves BUILD starts from and the results of its first `k` merges. -/
def madeNodes (f : Table Word) (k : Nat) : List NodeIx := leafList f ++ (List.range k).map internalIx

theorem toNat_lt_of_mem_leafList {f : Table Word} {i : NodeIx} (h : i ∈ leafList f) : i.toNat < 256 := by
  obtain ⟨x, -, rfl⟩ := mem_leafList.1 h
  rw [leafIx_toNat]
  exact x.isLt

theorem internalIx_injective {j k : Nat} (hj : j ≤ 255) (hk : k ≤ 255) (h : internalIx j = internalIx k) :
    j = k := by
  have := congrArg BitVec.toNat h
  rw [internalIx_toNat hj, internalIx_toNat hk] at this
  omega

theorem internalIx_of_toNat {i : NodeIx} (h : 256 ≤ i.toNat) : internalIx (i.toNat - 256) = i := by
  rw [← BitVec.toNat_inj, internalIx_toNat (by omega)]
  omega

theorem madeNodes_nodup (f : Table Word) {k : Nat} (hk : k ≤ 256) : (madeNodes f k).Nodup := by
  refine List.nodup_append.2 ⟨leafList_nodup f, List.nodup_range.map_on fun x hx y hy => ?_, fun i hi j hj => ?_⟩
  · rw [List.mem_range] at hx hy
    exact internalIx_injective (by omega) (by omega)
  · obtain ⟨m, hm, rfl⟩ := List.mem_map.1 hj
    rw [List.mem_range] at hm
    have hleaf := toNat_lt_of_mem_leafList hi
    have hinner := internalIx_toNat (k := m) (by omega)
    rintro rfl
    omega

/-! ## The edges -/

/-- The edges of the first `k` merges: a record and one of its two sides, right for true. -/
def edgesBelow (k : Nat) : List (Nat × Bool) := (List.range k).product [false, true]

/-- The node an edge leads down to. -/
def edgeChild (n : Table Inode) (p : Nat × Bool) : NodeIx :=
  if p.2 then (inodeOf n p.1).right else (inodeOf n p.1).left

theorem mem_edgesBelow {k : Nat} {p : Nat × Bool} : p ∈ edgesBelow k ↔ p.1 < k := by
  obtain ⟨j, b⟩ := p
  cases b <;> simp [edgesBelow]

theorem edgesBelow_succ (k : Nat) : edgesBelow (k + 1) = edgesBelow k ++ [(k, false), (k, true)] := by
  simp [edgesBelow, List.product, List.range_succ]

/-- The children of the first `k` merges. -/
def childrenBelow (n : Table Inode) (k : Nat) : List NodeIx := (edgesBelow k).map (edgeChild n)

/-- A merge adds its two nodes to the children. -/
theorem childrenBelow_mergedArena (f : Table Word) (n : Table Inode) (k : Nat) (a b : NodeIx) :
    childrenBelow (mergedArena f n k a b) (k + 1) = childrenBelow n k ++ [a, b] := by
  have hself : inodeOf (mergedArena f n k a b) k = mergeRecord f n a b := by
    rw [mergedArena, inodeOf_setInode, if_pos rfl]
  have hbelow : ∀ p ∈ edgesBelow k, edgeChild (mergedArena f n k a b) p = edgeChild n p := fun p hp => by
    rw [edgeChild, edgeChild, inodeOf_mergedArena_of_lt f n a b (mem_edgesBelow.1 hp)]
  rw [childrenBelow, edgesBelow_succ, List.map_append, List.map_congr_left hbelow]
  simp [childrenBelow, edgeChild, hself, mergeRecord]

/-! ## The forest -/

/-- Before merge `k` the queue and the children of the merges done are together the nodes made. -/
def Forest (f : Table Word) (n : Table Inode) (k : Nat) (q : List NodeIx) : Prop :=
  (q ++ childrenBelow n k).Perm (madeNodes f k)

theorem Forest.start (f : Table Word) (n : Table Inode) : Forest f n 0 (sortNodes f n (leafList f)) := by
  simpa [Forest, childrenBelow, edgesBelow, madeNodes, List.product] using sortNodes_perm f n (leafList f)

theorem Forest.merge {f : Table Word} {n : Table Inode} {k : Nat} {a b : NodeIx} {q : List NodeIx}
    (h : Forest f n k (a :: b :: q)) : Forest f (mergedArena f n k a b) (k + 1) (mergedQueue f n k a b q) := by
  have hmade : madeNodes f (k + 1) = madeNodes f k ++ [internalIx k] := by
    simp [madeNodes, List.range_succ]
  rw [Forest, childrenBelow_mergedArena, hmade]
  calc List.Perm (mergedQueue f n k a b q ++ (childrenBelow n k ++ [a, b]))
        (internalIx k :: (q ++ (childrenBelow n k ++ [a, b]))) := (insertNode_perm _ _ _ _).append_right _
    List.Perm _ (internalIx k :: (a :: b :: q ++ childrenBelow n k)) := by
      rw [← List.append_assoc]
      exact List.perm_append_comm.cons _
    List.Perm _ (internalIx k :: madeNodes f k) := h.cons _
    List.Perm _ (madeNodes f k ++ [internalIx k]) := (List.perm_append_singleton _ _).symm

/-- A loop with a round for each node of its queue. -/
theorem mergeLoop_forest {f : Table Word} : ∀ (rounds k : Nat) (n : Table Inode) (q : List NodeIx),
    q.length ≤ rounds → q ≠ [] → Forest f n k q →
      Forest f (mergeLoop f rounds k n q).1 (k + q.length - 1) (mergeLoop f rounds k n q).2
  | _, _, _, [], _, hq, _ => absurd rfl hq
  | 0, _, _, _ :: _, hr, _, _ => by simp at hr
  | _ + 1, _, _, [_], _, _, h => h
  | rounds + 1, k, n, a :: b :: q, hr, _, h => by
    simp only [List.length_cons] at hr
    have hlen : (mergedQueue f n k a b q).length = q.length + 1 := mergedQueue_length
    have hne : mergedQueue f n k a b q ≠ [] := List.ne_nil_of_length_pos (by omega)
    have hnext := mergeLoop_forest rounds (k + 1) _ _ (by omega) hne h.merge
    rw [hlen] at hnext
    have hk : k + (a :: b :: q).length - 1 = k + 1 + (q.length + 1) - 1 := by
      simp only [List.length_cons]
      omega
    rw [mergeLoop_merge, hk]
    exact hnext

end Sys2Proof.Machine
end

section
/-! The tree BUILD leaves, as later proofs use it, and how each of its nodes hangs on it (42_tree_builder.md R128,
R133). -/

namespace Sys2Proof.Machine

/-- A MULTI tree as the merges leave it: its root is the last internal node made, every record is as 10_state.md R33
says, and every node made but the root is the child of one edge. -/
structure State.BuiltTree (t : State) : Prop where
  multi    : t.treeState = .multi
  nint_pos : 0 < t.nint
  nint_le  : t.nint ≤ 255
  root     : t.root = internalIx (t.nint - 1)
  nodes    : ∀ k, k < t.nint → t.nodeOk k
  forest   : Forest t.freq t.inode t.nint [t.root]

theorem State.builtMulti_builtTree {s : State} (h2 : 2 ≤ (leafList s.freq).length)
    (hsum : freqTotal s.freq < 2 ^ 32) : (s.builtMulti (leafList s.freq)).BuiltTree := by
  have hlen := leafList_length_le s.freq
  have hnint := s.builtMulti_nint
  have hroot := State.builtMulti_root h2
  have hsorted : (sortNodes s.freq s.inode (leafList s.freq)).length = (leafList s.freq).length :=
    sortNodes_length _ _ _
  have hqueue := mergeLoop_queue s.freq (leafList s.freq).length 0 s.inode
    (sortNodes s.freq s.inode (leafList s.freq)) (by omega) (by omega)
  have hforest := mergeLoop_forest (leafList s.freq).length 0 s.inode _ (by omega)
    (List.ne_nil_of_length_pos (by omega)) (Forest.start s.freq s.inode)
  rw [hqueue, hsorted, Nat.zero_add, ← hroot, ← hnint] at hforest
  exact ⟨rfl, by omega, by omega, by rw [hroot, hnint, Nat.sub_sub], fun k hk => State.builtMulti_nodeOk hsum hk,
    hforest⟩

theorem State.BuiltTree.retire {t : State} (h : t.BuiltTree) : t.retire.BuiltTree :=
  ⟨h.multi, h.nint_pos, h.nint_le, h.root, h.nodes, h.forest⟩

section Built

variable {t : State} (h : t.BuiltTree)
include h

/-! ## Nodes and edges -/

theorem State.BuiltTree.root_toNat : t.root.toNat = 255 + t.nint := by
  have hpos := h.nint_pos
  have hle := h.nint_le
  rw [h.root, internalIx_toNat (by omega)]
  omega

theorem State.BuiltTree.nodeValid_internal {i : NodeIx} (hi : 256 ≤ i.toNat) :
    t.nodeValid i = true ↔ i.toNat - 256 < t.nint := by
  have hle := h.nint_le
  rw [State.nodeValid_internal hi]
  exact ⟨fun ⟨_, _, hlt⟩ => hlt, fun hlt => ⟨by omega, h.multi, hlt⟩⟩

theorem State.BuiltTree.nodeValid_root : t.nodeValid t.root = true := by
  have hroot := h.root_toNat
  have hpos := h.nint_pos
  rw [h.nodeValid_internal (by omega)]
  omega

/-- The valid nodes are the nodes made. -/
theorem State.BuiltTree.nodeValid_iff_mem (i : NodeIx) : t.nodeValid i = true ↔ i ∈ madeNodes t.freq t.nint := by
  have hle := h.nint_le
  simp only [madeNodes, List.mem_append, mem_leafList, List.mem_map, List.mem_range]
  by_cases hi : i.toNat < 256
  · have hix : leafIx (i.setWidth 8) = i := by
      rw [← BitVec.toNat_inj, leafIx_toNat, BitVec.toNat_setWidth]
      omega
    rw [State.nodeValid_leaf hi]
    constructor
    · rintro ⟨-, hfreq⟩
      exact .inl ⟨_, hfreq, hix⟩
    · rintro (⟨x, hx, rfl⟩ | ⟨k, hk, rfl⟩)
      · rw [leafIx_setWidth]
        exact ⟨.inr h.multi, hx⟩
      · rw [internalIx_toNat (by omega)] at hi
        omega
  · rw [h.nodeValid_internal (by omega)]
    constructor
    · exact fun hlt => .inr ⟨_, hlt, internalIx_of_toNat (by omega)⟩
    · rintro (⟨x, -, rfl⟩ | ⟨k, hk, rfl⟩)
      · rw [leafIx_toNat] at hi
        exact absurd x.isLt hi
      · rw [internalIx_toNat (by omega)]
        omega

/-- The root and the children of the edges are the valid nodes, each once. -/
theorem State.BuiltTree.nodup_root_cons_children : (t.root :: childrenBelow t.inode t.nint).Nodup :=
  h.forest.nodup_iff.2 (madeNodes_nodup _ (h.nint_le.trans (by omega)))

theorem State.BuiltTree.root_ne_edgeChild {p : Nat × Bool} (hp : p.1 < t.nint) : edgeChild t.inode p ≠ t.root := by
  have hroot := (List.nodup_cons.1 h.nodup_root_cons_children).1
  exact fun he => hroot (List.mem_map.2 ⟨p, mem_edgesBelow.2 hp, he⟩)

theorem State.BuiltTree.edgeChild_injective {p p' : Nat × Bool} (hp : p.1 < t.nint) (hp' : p'.1 < t.nint)
    (he : edgeChild t.inode p = edgeChild t.inode p') : p = p' :=
  List.inj_on_of_nodup_map (List.nodup_cons.1 h.nodup_root_cons_children).2 (mem_edgesBelow.2 hp)
    (mem_edgesBelow.2 hp') he

/-- Every valid node but the root has a parent. -/
theorem State.BuiltTree.exists_edge {i : NodeIx} (hi : t.nodeValid i = true) (hroot : i ≠ t.root) :
    ∃ p : Nat × Bool, p.1 < t.nint ∧ edgeChild t.inode p = i := by
  have hmem : i ∈ [t.root] ++ childrenBelow t.inode t.nint := h.forest.mem_iff.2 ((h.nodeValid_iff_mem i).1 hi)
  rcases List.mem_append.1 hmem with hi | hi
  · exact absurd (List.mem_singleton.1 hi) hroot
  · obtain ⟨p, hp, hpi⟩ := List.mem_map.1 hi
    exact ⟨p, mem_edgesBelow.1 hp, hpi⟩

/-- An edge leads to a valid node made before its record. -/
theorem State.BuiltTree.edgeChild_valid {p : Nat × Bool} (hp : p.1 < t.nint) :
    t.nodeValid (edgeChild t.inode p) = true ∧ (edgeChild t.inode p).toNat < 256 + p.1 := by
  obtain ⟨k, b⟩ := p
  obtain ⟨hleft, hright, hleftlt, hrightlt, -⟩ := h.nodes k hp
  cases b
  · exact ⟨hleft, hleftlt⟩
  · exact ⟨hright, hrightlt⟩

end Built

/-! ## Paths -/

/-- No node of the path but its last is a leaf. -/
def InnerPath (n : Table Inode) (i : NodeIx) (p : List Bool) : Prop :=
  ∀ j, j < p.length → isLeaf (follow n i (p.take j)) = false

theorem follow_append (n : Table Inode) (i : NodeIx) (p p' : List Bool) :
    follow n i (p ++ p') = follow n (follow n i p) p' := by
  induction p generalizing i with
  | nil => rfl
  | cons b p ih => exact ih _

theorem innerPath_nil (n : Table Inode) (i : NodeIx) : InnerPath n i [] := fun j hj => absurd hj (Nat.not_lt_zero j)

theorem innerPath_concat {n : Table Inode} {i : NodeIx} {p : List Bool} {b : Bool} :
    InnerPath n i (p ++ [b]) ↔ InnerPath n i p ∧ isLeaf (follow n i p) = false := by
  have htake : ∀ j ≤ p.length, (p ++ [b]).take j = p.take j := fun j hj => List.take_append_of_le_length hj
  simp only [InnerPath, List.length_append, List.length_singleton, Nat.lt_succ_iff]
  constructor
  · intro hall
    refine ⟨fun j hj => ?_, ?_⟩
    · rw [← htake j hj.le]
      exact hall j hj.le
    · have hlast := hall p.length le_rfl
      rwa [htake _ le_rfl, List.take_length] at hlast
  · rintro ⟨hinner, hlast⟩ j hj
    rw [htake j hj]
    rcases hj.lt_or_eq with hj | rfl
    · exact hinner j hj
    · rwa [List.take_length]

/-- From an internal node a path takes that record's edge. -/
theorem follow_concat_of_internal {n : Table Inode} {i : NodeIx} {p : List Bool}
    (hp : isLeaf (follow n i p) = false) (b : Bool) :
    follow n i (p ++ [b]) = edgeChild n ((follow n i p).toNat - 256, b) := by
  rw [follow_append]
  cases b <;> simp [follow, edgeChild, nodeLeft, nodeRight, recordOf, hp]

/-- A path from the root whose earlier nodes are internal stays in the tree. -/
theorem State.BuiltTree.nodeValid_of_innerPath {t : State} (h : t.BuiltTree) {p : List Bool}
    (hp : InnerPath t.inode t.root p) : t.nodeValid (follow t.inode t.root p) = true := by
  induction p using List.reverseRecOn with
  | nil => exact h.nodeValid_root
  | append_singleton p b ih =>
    obtain ⟨hinner, hlast⟩ := innerPath_concat.1 hp
    obtain ⟨-, hlt⟩ := State.onInternal_of_nodeValid (ih hinner) hlast
    rw [follow_concat_of_internal hlast]
    exact (h.edgeChild_valid (p := (_, b)) hlt).1

/-- Every valid node is reached from the root. Records fall along a path, which bounds its length: a path that ends at
record `k` has at most `nint - 1 - k` edges, and one that ends at a leaf at most `nint`. -/
theorem State.BuiltTree.exists_innerPath {t : State} (h : t.BuiltTree) (i : NodeIx) (hi : t.nodeValid i = true) :
    ∃ p, InnerPath t.inode t.root p ∧ follow t.inode t.root p = i ∧ p.length + (i.toNat - 255) ≤ t.nint := by
  by_cases hroot : i = t.root
  · subst hroot
    have hnat := h.root_toNat
    exact ⟨[], innerPath_nil _ _, rfl, by simp only [List.length_nil]; omega⟩
  · obtain ⟨⟨k, b⟩, hk, rfl⟩ := h.exists_edge hi hroot
    obtain ⟨-, hlt⟩ := h.edgeChild_valid hk
    have hle := h.nint_le
    have hparent : (internalIx k).toNat = 256 + k := internalIx_toNat (by omega)
    have hvalid : t.nodeValid (internalIx k) = true := (h.nodeValid_internal (by omega)).2 (by omega)
    obtain ⟨p, hinner, hfollow, hlen⟩ := h.exists_innerPath (internalIx k) hvalid
    have hlast : isLeaf (follow t.inode t.root p) = false := by
      rw [hfollow, isLeaf_eq_false_iff]
      omega
    refine ⟨p ++ [b], innerPath_concat.2 ⟨hinner, hlast⟩, ?_, ?_⟩
    · rw [follow_concat_of_internal hlast, hfollow, hparent, Nat.add_sub_cancel_left]
    · simp only [List.length_append, List.length_singleton]
      omega
termination_by 512 - i.toNat

/-! ## BUILD's answer -/

theorem State.leafCount_eq (s : State) : s.leafCount = (leafList s.freq).length := by
  rw [State.leafCount, List.countP_eq_length_filter, leafList, List.length_map]
  rfl

theorem State.buildFrom_multi (s : State) {l : List NodeIx} (h : 2 ≤ l.length) : s.buildFrom l = s.builtMulti l := by
  match l with
  | [] | [_] => simp at h
  | _ :: _ :: _ => rfl

/-- BUILD of two or more leaves whose sum fits. -/
theorem State.buildsTree.exec_build {s : State} (h : s.buildsTree) :
    exec .build s = .next (s.invalidate.builtMulti (leafList s.freq)).retire := by
  obtain ⟨-, h2, hsum⟩ := h
  rw [State.leafCount_eq] at h2
  rw [← State.buildFrom_multi _ h2]
  exact execBuild_next.2 (.inr ⟨hsum, rfl⟩)

theorem State.buildsTree.builtTree {s : State} (h : s.buildsTree) :
    (s.invalidate.builtMulti (leafList s.freq)).retire.BuiltTree := by
  obtain ⟨hW, h2, hsum⟩ := h
  rw [State.leafCount_eq] at h2
  exact (State.builtMulti_builtTree (s := s.invalidate) h2 (lt_two_pow_of_le_freqMax hW hsum)).retire

end Sys2Proof.Machine

namespace Sys2Proof

open Sys2Proof.Machine

/-- Settles O44: the nodes made are the root and the children of the merges, each once, so parents are unique; and
records fall along every path, so climbing to parents ends at the root. -/
theorem buildTreeIsStrictBinary : Obligations.BuildTreeIsStrictBinary := by
  intro s hbuild
  have hexec := hbuild.exec_build
  have hbuilt := hbuild.builtTree
  obtain ⟨hW, -⟩ := hbuild
  refine ⟨_, hexec, fun i => ⟨fun hi => ?_, ?_⟩, fun i hi hroot => ?_,
    fun k hk => ⟨hbuilt.root_ne_edgeChild (p := (k, false)) hk, hbuilt.root_ne_edgeChild (p := (k, true)) hk⟩,
    execBuild_treeRegsOk hW hexec, execBuild_treeOk hW hexec⟩
  · obtain ⟨p, hinner, hfollow, hlen⟩ := hbuilt.exists_innerPath i hi
    have hle := hbuilt.nint_le
    exact ⟨p, by omega, hfollow, hinner⟩
  · rintro ⟨p, -, rfl, hinner⟩
    exact hbuilt.nodeValid_of_innerPath hinner
  · obtain ⟨p, hp, hpi⟩ := hbuilt.exists_edge hi hroot
    exact ⟨p, ⟨hp, hpi.symm⟩, fun p' ⟨hp', hpi'⟩ =>
      hbuilt.edgeChild_injective hp' hp (hpi'.symm.trans hpi.symm)⟩

end Sys2Proof
end

section
/-! O37, O38 and O39: the comparator as a comparison of numbers, and insertion and sorting by it (42_tree_builder.md
R121 to R127). -/

namespace Sys2Proof.Machine

/-! ## The key -/

/-- The key {nodeFreq, nodeRep} of a node as a number (42_tree_builder.md R122). -/
def nodeKey (f : Table Word) (n : Table Inode) (i : NodeIx) : Nat := (nodeFreq f n i ++ nodeRep n i).toNat

theorem nodeKey_eq (f : Table Word) (n : Table Inode) (i : NodeIx) :
    nodeKey f n i = 256 * (nodeFreq f n i).toNat + (nodeRep n i).toNat := by
  rw [nodeKey, BitVec.toNat_append, ← Nat.shiftLeft_add_eq_or_of_lt (nodeRep n i).isLt, Nat.shiftLeft_eq,
    Nat.mul_comm]

theorem nodeKey_eq_iff {f : Table Word} {n : Table Inode} {a b : NodeIx} :
    nodeKey f n a = nodeKey f n b ↔ (nodeFreq f n a, nodeRep n a) = (nodeFreq f n b, nodeRep n b) := by
  rw [nodeKey_eq, nodeKey_eq, Prod.mk.injEq, ← BitVec.toNat_inj, ← BitVec.toNat_inj]
  omega

theorem comesBefore_iff {f : Table Word} {n : Table Inode} {a b : NodeIx} :
    comesBefore f n a b = true ↔ nodeKey f n a < nodeKey f n b := by
  simp only [comesBefore, Bool.or_eq_true, Bool.and_eq_true, decide_eq_true_eq, beq_iff_eq, ← BitVec.toNat_inj,
    nodeKey_eq]
  omega

theorem comesBefore_eq_false_iff {f : Table Word} {n : Table Inode} {a b : NodeIx} :
    comesBefore f n a b = false ↔ nodeKey f n b ≤ nodeKey f n a := by
  rw [← Bool.not_eq_true, comesBefore_iff, Nat.not_lt]

/-! ## Queues in order -/

/-- A queue in which each node comes before every later one. -/
def Ordered (f : Table Word) (n : Table Inode) (q : List NodeIx) : Prop :=
  q.Pairwise fun a b => comesBefore f n a b = true

theorem Ordered.cons_iff {f : Table Word} {n : Table Inode} {a : NodeIx} {q : List NodeIx} :
    Ordered f n (a :: q) ↔ (∀ x ∈ q, nodeKey f n a < nodeKey f n x) ∧ Ordered f n q := by
  simp only [Ordered, List.pairwise_cons, comesBefore_iff]

/-- There is one ordered list of given nodes (42_tree_builder.md R123, R125). -/
theorem Ordered.eq_of_perm {f : Table Word} {n : Table Inode} {q q' : List NodeIx} (h : Ordered f n q)
    (h' : Ordered f n q') (hperm : q.Perm q') : q = q' :=
  hperm.eq_of_pairwise (fun _ _ _ _ hab hba => absurd (comesBefore_iff.1 hab) (comesBefore_iff.1 hba).asymm) h h'

/-- Insertion splits the queue at the first node that does not come before the new one. -/
theorem insertNode_eq_take_cons_drop (f : Table Word) (n : Table Inode) (m : NodeIx) (q : List NodeIx) :
    ∃ i, i ≤ q.length ∧ insertNode f n m q = q.take i ++ m :: q.drop i ∧
      (∀ x ∈ q.take i, comesBefore f n x m = true) ∧
      (∀ x, (q.drop i).head? = some x → comesBefore f n x m = false) := by
  induction q with
  | nil => exact ⟨0, le_rfl, rfl, by simp, by simp⟩
  | cons a q ih =>
    rw [insertNode]
    split
    · rename_i ha
      obtain ⟨i, hi, hsplit, hbefore, hplace⟩ := ih
      exact ⟨i + 1, Nat.succ_le_succ hi, by rw [hsplit]; rfl, by simpa [ha] using hbefore, hplace⟩
    · rename_i ha
      exact ⟨0, Nat.zero_le _, rfl, by simp, by simpa using ha⟩

theorem insertNode_ordered {f : Table Word} {n : Table Inode} {m : NodeIx} {q : List NodeIx} (hq : Ordered f n q)
    (hkey : ∀ x ∈ q, nodeKey f n x ≠ nodeKey f n m) : Ordered f n (insertNode f n m q) := by
  induction q with
  | nil => exact List.pairwise_singleton _ _
  | cons a q ih =>
    obtain ⟨hfirst, hrest⟩ := Ordered.cons_iff.1 hq
    rw [insertNode]
    split
    · rename_i ha
      refine Ordered.cons_iff.2 ⟨fun x hx => ?_, ih hrest fun x hx => hkey x (.tail _ hx)⟩
      rcases List.mem_cons.1 ((insertNode_perm f n m q).mem_iff.1 hx) with rfl | hx
      · exact comesBefore_iff.1 ha
      · exact hfirst x hx
    · rename_i ha
      have hma : nodeKey f n m < nodeKey f n a :=
        (comesBefore_eq_false_iff.1 (by simpa using ha)).lt_of_ne (hkey a (by simp)).symm
      refine Ordered.cons_iff.2 ⟨fun x hx => ?_, hq⟩
      rcases List.mem_cons.1 hx with rfl | hx
      · exact hma
      · exact hma.trans (hfirst x hx)

theorem sortNodes_ordered {f : Table Word} {n : Table Inode} {q : List NodeIx}
    (hkeys : q.Pairwise fun a b => nodeKey f n a ≠ nodeKey f n b) : Ordered f n (sortNodes f n q) := by
  induction q with
  | nil => exact .nil
  | cons a q ih =>
    obtain ⟨hfirst, hrest⟩ := List.pairwise_cons.1 hkeys
    exact insertNode_ordered (ih hrest) fun x hx => (hfirst x ((sortNodes_perm f n q).mem_iff.1 hx)).symm

/-! ## The leaves -/

theorem nodeRep_leafIx (n : Table Inode) (x : Byte) : nodeRep n (leafIx x) = x := by
  have hleaf : isLeaf (leafIx x) = true := by
    rw [isLeaf_iff, leafIx_toNat]
    exact x.isLt
  rw [nodeRep, if_pos hleaf, leafIx_setWidth]

/-- A leaf's representative is its symbol, so different leaves have different keys (42_tree_builder.md R123). -/
theorem leafList_keys (f : Table Word) (n : Table Inode) :
    (leafList f).Pairwise fun a b => nodeKey f n a ≠ nodeKey f n b := by
  refine (leafList_nodup f).imp_of_mem fun ha hb hne hkey => hne ?_
  obtain ⟨x, -, rfl⟩ := mem_leafList.1 ha
  obtain ⟨y, -, rfl⟩ := mem_leafList.1 hb
  have hrep := (Prod.mk.inj (nodeKey_eq_iff.1 hkey)).2
  rw [nodeRep_leafIx, nodeRep_leafIx] at hrep
  rw [hrep]

theorem sortNodes_leafList_ordered (f : Table Word) (n : Table Inode) : Ordered f n (sortNodes f n (leafList f)) :=
  sortNodes_ordered (leafList_keys f n)

end Sys2Proof.Machine

namespace Sys2Proof

open Sys2Proof.Machine

/-- Settles O37: {freq, rep} as a number is 256 * freq + rep, and numbers are totally ordered. -/
theorem comparatorIsKeyComparison : Obligations.ComparatorIsKeyComparison := by
  intro f n a b
  refine ⟨?_, fun hne => ?_⟩
  · rw [Bool.eq_iff_iff, comesBefore_iff, BitVec.ult_iff_lt, BitVec.lt_def, nodeKey, nodeKey]
  · have hkey : nodeKey f n a ≠ nodeKey f n b := fun h => hne (nodeKey_eq_iff.1 h)
    rw [Bool.eq_iff_iff, Bool.not_eq_true', comesBefore_iff, comesBefore_eq_false_iff]
    omega

/-- Settles O38: sorting permutes the leaves, whose keys differ, and there is one ordered list of them. -/
theorem leafQueueIsTheSortedLeaves : Obligations.LeafQueueIsTheSortedLeaves := by
  intro f n
  have hperm := sortNodes_perm f n (leafList f)
  have hordered := sortNodes_leafList_ordered f n
  refine ⟨fun i => ?_, hperm.nodup_iff.2 (leafList_nodup f), hordered,
    fun l hl h => Ordered.eq_of_perm h hordered (hl.trans hperm.symm)⟩
  rw [hperm.mem_iff, mem_leafList]
  exact ⟨fun ⟨x, hx, hi⟩ => ⟨x, hi.symm, hx⟩, fun ⟨x, hi, hx⟩ => ⟨x, hx, hi.symm⟩⟩

/-- Settles O39: insertion stops at the first node that does not come before the new one. -/
theorem insertionAtFirstNonPreceding : Obligations.InsertionAtFirstNonPreceding := fun f n m q =>
  ⟨insertNode_eq_take_cons_drop f n m q,
    fun hq hkey => insertNode_ordered hq fun x hx h => hkey x hx (nodeKey_eq_iff.1 h)⟩

end Sys2Proof
end

section
/-! O40, O41 and O42: BUILD's registers by the sum of FREQ and the number of leaves (42_tree_builder.md R128, R129,
R134), and O25, the NODE_SEL write. -/

namespace Sys2Proof.Machine

/-- The leaf list when one symbol occurs. -/
theorem leafList_eq_singleton {f : Table Word} {x : Byte} (hx : freqOf f x ≠ 0#32)
    (hother : ∀ y, y ≠ x → freqOf f y = 0#32) : leafList f = [leafIx x] := by
  refine List.perm_singleton.1 ((List.perm_ext_iff_of_nodup (leafList_nodup f) (List.nodup_singleton _)).2 fun i => ?_)
  rw [mem_leafList, List.mem_singleton]
  constructor
  · rintro ⟨y, hy, rfl⟩
    exact congrArg leafIx (not_imp_comm.1 (hother y) hy)
  · rintro rfl
    exact ⟨x, hx, rfl⟩

theorem leafList_eq_nil {f : Table Word} (h : ∀ x, freqOf f x = 0#32) : leafList f = [] := by
  refine List.eq_nil_iff_forall_not_mem.2 fun i hi => ?_
  obtain ⟨x, hx, -⟩ := mem_leafList.1 hi
  exact hx (h x)

/-- The sum of FREQ over its leaves. -/
theorem freqTotal_eq_of_leafList {f : Table Word} {l : List NodeIx} (h : leafList f = l) :
    freqTotal f = queueWeight f [] l := by
  rw [← queueWeight_leafList f [], h]

/-- BUILD when the sum of FREQ fits, by the list of leaves. -/
theorem exec_build_of_leafList {s : State} {l : List NodeIx} (hl : leafList s.freq = l)
    (hsum : queueWeight s.freq [] l ≤ s.freqMax) : exec .build s = .next (s.invalidate.buildFrom l).retire := by
  rw [← freqTotal_eq_of_leafList hl] at hsum
  rw [← hl]
  exact execBuild_next.2 (.inr ⟨hsum, rfl⟩)

/-- ERR_INFO of a BUILD whose sum does not fit: CAUSE 3, OP 3, ARG 0, the address of CMD (42_tree_builder.md R129). -/
theorem errorRecord_buildOverflow : errorRecord .freqOverflow 0x3#4 0#8 0x0004#16 = 0x00040033#32 := by decide

/-- INODE beyond the merges of BUILD. -/
theorem State.inodeOf_builtMulti_above (s : State) {k : Nat} (hk : (leafList s.freq).length - 1 ≤ k) :
    inodeOf (s.builtMulti (leafList s.freq)).inode k = inodeOf s.inode k := by
  refine mergeLoop_above _ _ _ _ _ _ ?_
  rw [sortNodes_length]
  omega

end Sys2Proof.Machine

namespace Sys2Proof

open Sys2Proof.Machine

/-- Settles O40: the overflow is one raise after INVALIDATE. -/
theorem buildOverflow : Obligations.BuildOverflow := by
  intro s hsum
  rw [← errorRecord_buildOverflow]
  exact execBuild_next.2 (.inl ⟨hsum, rfl⟩)

/-- Settles O41: no leaf, or one leaf whose counter is the sum. -/
theorem buildDegenerateTrees : Obligations.BuildDegenerateTrees := by
  intro s
  refine ⟨fun hzero => exec_build_of_leafList (leafList_eq_nil hzero) (Nat.zero_le _), fun x hx hother hmax => ?_⟩
  have hfreq : nodeFreq s.freq s.inode (leafIx x) = s.freqAt x := nodeFreq_leafIx _ _ _
  have hsum : queueWeight s.freq [] [leafIx x] ≤ s.freqMax := by
    simpa [queueWeight, nodeFreq_leafIx, State.freqMax, State.freqAt] using hmax
  rw [exec_build_of_leafList (leafList_eq_singleton hx hother) hsum, ← hfreq]
  rfl

/-- Settles O42: the registers are those of 10_state.md R33, and the merges write the records below `n - 1` only. -/
theorem buildMultiRegisters : Obligations.BuildMultiRegisters := by
  intro s hbuild
  have hexec := hbuild.exec_build
  obtain ⟨hW, -⟩ := hbuild
  obtain ⟨-, -, hroot, htotal, hsum⟩ := (State.treeRegsOk_multi rfl).1 (execBuild_treeRegsOk hW hexec)
  have hnsym : (s.invalidate.builtMulti (leafList s.freq)).nsym.toNat = s.leafCount :=
    s.invalidate.builtMulti_nsym.trans s.leafCount_eq.symm
  refine ⟨_, hexec, hnsym, hroot.trans (by rw [State.retire_nsym, hnsym]), htotal, hsum, fun k hk => ?_, rfl⟩
  rw [State.leafCount_eq] at hk
  exact s.invalidate.inodeOf_builtMulti_above hk

/-- Settles O25: bits 8:0 are the data modulo 512. -/
theorem nodeSelWrite : Obligations.NodeSelWrite := by
  intro s v
  have hbits : v.extractLsb' 0 9 = BitVec.ofNat 9 (v.toNat % 512) := by
    rw [extractLsb'_eq_ofNat, pow_zero, Nat.div_one]
    rfl
  rw [← hbits]
  exact ⟨fun hidle => execWrNodeSel_next.2 (.inl ⟨hidle, rfl⟩),
    fun hbusy => execWrNodeSel_next.2 (.inr ⟨hbusy, rfl⟩)⟩

end Sys2Proof
end

section
/-! O43: BUILD from two states with the same counters. The merge loop reads the records it has made itself and no
other, so what INODE held before is never seen (42_tree_builder.md R132). -/

namespace Sys2Proof.Machine

/-- The same counters, and the same records below `k`. -/
structure SameBelow (f f' : Table Word) (n n' : Table Inode) (k : Nat) : Prop where
  freq  : ∀ x, freqOf f x = freqOf f' x
  inode : ∀ j < k, inodeOf n j = inodeOf n' j

theorem sameBelow_zero {f f' : Table Word} (hfreq : ∀ x, freqOf f x = freqOf f' x) (n n' : Table Inode) :
    SameBelow f f' n n' 0 := ⟨hfreq, fun j hj => absurd hj (Nat.not_lt_zero j)⟩

/-- Every node of the queue was made before merge `k`. -/
def MadeBelow (k : Nat) (q : List NodeIx) : Prop := ∀ i ∈ q, i.toNat < 256 + k

theorem leafList_madeBelow (f : Table Word) : MadeBelow 0 (leafList f) := fun _ => toNat_lt_of_mem_leafList

section Same

variable {f f' : Table Word} {n n' : Table Inode} {k : Nat} (h : SameBelow f f' n n' k)
include h

theorem SameBelow.nodeFreq_eq {i : NodeIx} (hi : i.toNat < 256 + k) : nodeFreq f n i = nodeFreq f' n' i := by
  rw [nodeFreq_congr f h.inode hi]
  exact ite_congr rfl (fun _ => h.freq _) fun _ => rfl

theorem SameBelow.comesBefore_eq {a b : NodeIx} (ha : a.toNat < 256 + k) (hb : b.toNat < 256 + k) :
    comesBefore f n a b = comesBefore f' n' a b := by
  rw [comesBefore, comesBefore, h.nodeFreq_eq ha, h.nodeFreq_eq hb, nodeRep_congr h.inode ha,
    nodeRep_congr h.inode hb]

theorem SameBelow.insertNode_eq {m : NodeIx} {q : List NodeIx} (hm : m.toNat < 256 + k) (hq : MadeBelow k q) :
    insertNode f n m q = insertNode f' n' m q := by
  induction q with
  | nil => rfl
  | cons a q ih =>
    obtain ⟨ha, hq⟩ := List.forall_mem_cons.1 hq
    rw [insertNode, insertNode, h.comesBefore_eq ha hm, ih hq]

theorem SameBelow.sortNodes_eq {q : List NodeIx} (hq : MadeBelow k q) : sortNodes f n q = sortNodes f' n' q := by
  induction q with
  | nil => rfl
  | cons a q ih =>
    obtain ⟨ha, hq⟩ := List.forall_mem_cons.1 hq
    have hsorted : MadeBelow k (sortNodes f n q) := fun i hi => hq i ((sortNodes_perm f n q).mem_iff.1 hi)
    rw [sortNodes, sortNodes, ← ih hq, h.insertNode_eq ha hsorted]

theorem SameBelow.merge {a b : NodeIx} (ha : a.toNat < 256 + k) (hb : b.toNat < 256 + k) :
    SameBelow f f' (mergedArena f n k a b) (mergedArena f' n' k a b) (k + 1) := by
  refine ⟨h.freq, fun j hj => ?_⟩
  have hrecord : mergeRecord f n a b = mergeRecord f' n' a b := by
    rw [mergeRecord, mergeRecord, h.nodeFreq_eq ha, h.nodeFreq_eq hb, nodeRep_congr h.inode ha,
      nodeRep_congr h.inode hb]
  rw [mergedArena, mergedArena, inodeOf_setInode, inodeOf_setInode, hrecord]
  exact ite_congr rfl (fun _ => rfl) fun hne => h.inode j (by omega)

end Same

theorem internalIx_toNat_le (k : Nat) : (internalIx k).toNat ≤ 256 + k := by
  rw [internalIx, BitVec.toNat_ofNat]
  exact Nat.mod_le _ _

theorem MadeBelow.merge {k : Nat} {q : List NodeIx} (hq : MadeBelow k q) (f : Table Word) (n : Table Inode)
    (a b : NodeIx) : MadeBelow (k + 1) (mergedQueue f n k a b q) := by
  intro i hi
  rcases List.mem_cons.1 ((insertNode_perm _ _ _ _).mem_iff.1 hi) with rfl | hi
  · exact Nat.lt_succ_of_le (internalIx_toNat_le k)
  · exact Nat.lt_succ_of_lt (hq i hi)

theorem mergeLoop_same {f f' : Table Word} : ∀ (rounds k : Nat) (n n' : Table Inode) (q : List NodeIx),
    SameBelow f f' n n' k → MadeBelow k q → q.length ≤ rounds →
      ∀ j, j + 1 < k + q.length →
        inodeOf (mergeLoop f rounds k n q).1 j = inodeOf (mergeLoop f' rounds k n' q).1 j
  | 0, _, _, _, [], h, _, _, j, hj | _ + 1, _, _, _, [], h, _, _, j, hj =>
    h.inode j (by simp only [List.length_nil] at hj; omega)
  | 0, _, _, _, _ :: _, _, _, hr, _, _ => by simp at hr
  | _ + 1, _, _, _, [_], h, _, _, j, hj => h.inode j (by simpa using hj)
  | rounds + 1, k, n, n', a :: b :: q, h, hmade, hr, j, hj => by
    obtain ⟨ha, hb, hq⟩ : a.toNat < 256 + k ∧ b.toNat < 256 + k ∧ MadeBelow k q := by
      simpa [MadeBelow] using hmade
    simp only [List.length_cons] at hr hj
    have harena := h.merge ha hb
    have hqueue : mergedQueue f n k a b q = mergedQueue f' n' k a b q :=
      harena.insertNode_eq (Nat.lt_succ_of_le (internalIx_toNat_le k)) fun i hi => Nat.lt_succ_of_lt (hq i hi)
    rw [mergeLoop_merge, mergeLoop_merge, ← hqueue]
    exact mergeLoop_same rounds (k + 1) _ _ _ harena (hq.merge f n a b) (by rw [mergedQueue_length]; omega) j
      (by rw [mergedQueue_length]; omega)

/-! ## BUILD from two states -/

/-- The tree registers and the tree's records are the same (42_tree_builder.md R132). -/
def SameTree (t t' : State) : Prop :=
  t.treeState = t'.treeState ∧ t.nsym = t'.nsym ∧ t.root = t'.root ∧ t.total = t'.total ∧
    ∀ k, k < t.nint → inodeOf t.inode k = inodeOf t'.inode k

theorem SameTree.retire {t t' : State} (h : SameTree t t') : SameTree t.retire t'.retire := h

theorem sameTree_of_ne_multi {t t' : State} (hm : t.treeState ≠ .multi) (hstate : t.treeState = t'.treeState)
    (hnsym : t.nsym = t'.nsym) (hroot : t.root = t'.root) (htotal : t.total = t'.total) : SameTree t t' :=
  ⟨hstate, hnsym, hroot, htotal, fun k hk => absurd hk (by simp [State.nint_eq_zero hm])⟩

theorem State.builtMulti_inode (s : State) (l : List NodeIx) :
    (s.builtMulti l).inode = (mergeLoop s.freq l.length 0 s.inode (sortNodes s.freq s.inode l)).1 := rfl

theorem State.builtMulti_total_eq (s : State) (l : List NodeIx) :
    (s.builtMulti l).total = nodeFreq s.freq (s.builtMulti l).inode (s.builtMulti l).root := rfl

section SameFreq

variable {s s' : State} (hfreq : ∀ x, freqOf s.freq x = freqOf s'.freq x)
include hfreq

theorem freqTotal_same : freqTotal s.freq = freqTotal s'.freq := by
  simp only [freqTotal, hfreq]

theorem leafList_same : leafList s.freq = leafList s'.freq := by
  simp only [leafList, hfreq]

theorem builtMulti_same {l : List NodeIx} (hl : leafList s.freq = l) (hl' : leafList s'.freq = l)
    (h2 : 2 ≤ l.length) :
    SameTree (s.builtMulti l) (s'.builtMulti l) := by
  have hroot := State.builtMulti_root (hl ▸ h2)
  have hroot' := State.builtMulti_root (hl' ▸ h2)
  have hnint := s.builtMulti_nint
  rw [hl] at hroot hnint
  rw [hl'] at hroot'
  have hstart := sameBelow_zero hfreq s.inode s'.inode
  have hmade : MadeBelow 0 l := hl ▸ leafList_madeBelow s.freq
  have hsorted := hstart.sortNodes_eq hmade
  have hbuilt : SameBelow s.freq s'.freq (s.builtMulti l).inode (s'.builtMulti l).inode (l.length - 1) := by
    refine ⟨hfreq, fun j hj => ?_⟩
    rw [State.builtMulti_inode, State.builtMulti_inode, ← hsorted]
    exact mergeLoop_same _ _ _ _ _ hstart (fun i hi => hmade i ((sortNodes_perm _ _ _).mem_iff.1 hi)) (by simp) j
      (by rw [sortNodes_length]; omega)
  have htop := internalIx_toNat_le (l.length - 2)
  have htotal := hbuilt.nodeFreq_eq (i := (s.builtMulti l).root) (by rw [hroot]; omega)
  refine ⟨rfl, rfl, hroot.trans hroot'.symm, ?_, fun k hk => hbuilt.inode k (hnint ▸ hk)⟩
  rw [State.builtMulti_total_eq, State.builtMulti_total_eq, htotal, hroot, hroot']

theorem buildFrom_same : ∀ l, leafList s.freq = l → leafList s'.freq = l →
    SameTree (s.invalidate.buildFrom l) (s'.invalidate.buildFrom l)
  | [], _, _ => sameTree_of_ne_multi (by simp [State.buildFrom_treeState]) rfl rfl rfl rfl
  | [leaf], hl, _ => by
    have hleaf : leaf.toNat < 256 := toNat_lt_of_mem_leafList (f := s.freq) (by simp [hl])
    have hstart := sameBelow_zero hfreq s.inode s'.inode
    exact sameTree_of_ne_multi (by simp [State.buildFrom_treeState]) rfl rfl rfl (hstart.nodeFreq_eq hleaf)
  | _ :: _ :: _, hl, hl' => builtMulti_same (s := s.invalidate) (s' := s'.invalidate) hfreq hl hl' (by simp)

end SameFreq

end Sys2Proof.Machine

namespace Sys2Proof

open Sys2Proof.Machine

/-- Settles O43: the same counters give the same sum and the same leaves, and the merges read nothing else. -/
theorem buildDependsOnFreqOnly : Obligations.BuildDependsOnFreqOnly := by
  intro s s' t t' hW hfreq ht ht'
  have htotal : freqTotal s.freq = freqTotal s'.freq := freqTotal_same hfreq
  have hmax : s.freqMax = s'.freqMax := by rw [State.freqMax, State.freqMax, hW]
  rcases execBuild_next.1 ht with ⟨hsum, rfl⟩ | ⟨hsum, rfl⟩ <;>
    rcases execBuild_next.1 ht' with ⟨hsum', rfl⟩ | ⟨hsum', rfl⟩
  · exact sameTree_of_ne_multi (by simp) rfl rfl rfl rfl
  · omega
  · omega
  · rw [← leafList_same hfreq]
    exact (buildFrom_same hfreq _ rfl (leafList_same hfreq).symm).retire

end Sys2Proof
end

section
/-! The path from the root to a node of a built tree: there is exactly one whose earlier nodes are internal
(43_code_table.md R141: "the path to a leaf is unique"). -/

namespace Sys2Proof.Machine

/-- The path from the root to a node, for a node the tree has. -/
noncomputable def State.pathTo (t : State) (i : NodeIx) : List Bool :=
  Classical.epsilon fun p => InnerPath t.inode t.root p ∧ follow t.inode t.root p = i

section Built

variable {t : State} (h : t.BuiltTree)
include h

/-- The last step of a path from the root takes an edge of the tree. -/
theorem State.BuiltTree.exists_edge_of_concat {p : List Bool} {b : Bool} (hp : InnerPath t.inode t.root (p ++ [b])) :
    InnerPath t.inode t.root p ∧ ∃ k, k < t.nint ∧ follow t.inode t.root p = internalIx k ∧
      follow t.inode t.root (p ++ [b]) = edgeChild t.inode (k, b) := by
  obtain ⟨hinner, hlast⟩ := innerPath_concat.1 hp
  obtain ⟨h256, hlt⟩ := State.onInternal_of_nodeValid (h.nodeValid_of_innerPath hinner) hlast
  exact ⟨hinner, _, hlt, (internalIx_of_toNat h256).symm, follow_concat_of_internal hlast b⟩

theorem State.BuiltTree.follow_concat_ne_root {p : List Bool} {b : Bool}
    (hp : InnerPath t.inode t.root (p ++ [b])) : follow t.inode t.root (p ++ [b]) ≠ t.root := by
  obtain ⟨-, k, hk, -, hedge⟩ := h.exists_edge_of_concat hp
  rw [hedge]
  exact h.root_ne_edgeChild hk

/-- Two paths to one node are the same path, since their last edges are. -/
theorem State.BuiltTree.innerPath_unique {p q : List Bool} (hp : InnerPath t.inode t.root p)
    (hq : InnerPath t.inode t.root q) (hpq : follow t.inode t.root p = follow t.inode t.root q) : p = q := by
  induction p using List.reverseRecOn generalizing q with
  | nil =>
    cases q using List.reverseRecOn with
    | nil => rfl
    | append_singleton q c => exact absurd hpq.symm (h.follow_concat_ne_root hq)
  | append_singleton p b ih =>
    cases q using List.reverseRecOn with
    | nil => exact absurd hpq (h.follow_concat_ne_root hp)
    | append_singleton q c =>
      obtain ⟨hinner, k, hk, hpk, hpe⟩ := h.exists_edge_of_concat hp
      obtain ⟨hinner', l, hl, hql, hqe⟩ := h.exists_edge_of_concat hq
      obtain ⟨rfl, rfl⟩ := Prod.mk.inj (h.edgeChild_injective hk hl (hpe.symm.trans (hpq.trans hqe)))
      rw [ih hinner hinner' (hpk.trans hql.symm)]

theorem State.BuiltTree.pathTo_spec {i : NodeIx} (hi : t.nodeValid i = true) :
    InnerPath t.inode t.root (t.pathTo i) ∧ follow t.inode t.root (t.pathTo i) = i := by
  obtain ⟨p, hinner, hfollow, -⟩ := h.exists_innerPath i hi
  exact Classical.epsilon_spec (p := fun p => InnerPath t.inode t.root p ∧ follow t.inode t.root p = i)
    ⟨p, hinner, hfollow⟩

theorem State.BuiltTree.pathTo_follow {p : List Bool} (hp : InnerPath t.inode t.root p) :
    t.pathTo (follow t.inode t.root p) = p := by
  obtain ⟨hinner, hfollow⟩ := h.pathTo_spec (h.nodeValid_of_innerPath hp)
  exact h.innerPath_unique hinner hp hfollow

theorem State.BuiltTree.pathTo_length_le {i : NodeIx} (hi : t.nodeValid i = true) :
    (t.pathTo i).length ≤ t.nint := by
  obtain ⟨p, hinner, rfl, hlen⟩ := h.exists_innerPath i hi
  rw [h.pathTo_follow hinner]
  omega

theorem State.BuiltTree.pathTo_root : t.pathTo t.root = [] := h.pathTo_follow (innerPath_nil _ _)

/-- An edge's path is its parent's and one step more. -/
theorem State.BuiltTree.pathTo_edgeChild {k : Nat} (hk : k < t.nint) (b : Bool) :
    t.pathTo (edgeChild t.inode (k, b)) = t.pathTo (internalIx k) ++ [b] := by
  have hle := h.nint_le
  have hnat : (internalIx k).toNat = 256 + k := internalIx_toNat (by omega)
  obtain ⟨hinner, hfollow⟩ := h.pathTo_spec ((h.nodeValid_internal (i := internalIx k) (by omega)).2 (by omega))
  have hleaf : isLeaf (follow t.inode t.root (t.pathTo (internalIx k))) = false := by
    rw [hfollow, isLeaf_eq_false_iff]
    omega
  have hedge := follow_concat_of_internal hleaf b
  rw [hfollow, hnat, Nat.add_sub_cancel_left] at hedge
  rw [← hedge, h.pathTo_follow (innerPath_concat.2 ⟨hinner, hleaf⟩)]

theorem State.BuiltTree.nodeValid_leafIx (x : Byte) : t.nodeValid (leafIx x) = true ↔ t.freqAt x ≠ 0#32 := by
  have hleaf : (leafIx x).toNat < 256 := by
    rw [leafIx_toNat]
    exact x.isLt
  rw [State.nodeValid_leaf hleaf, leafIx_setWidth]
  exact and_iff_right (.inr h.multi)

/-- A leaf is not the root of a MULTI tree, so its path has a step. -/
theorem State.BuiltTree.pathTo_leafIx_ne_nil {x : Byte} (hx : t.freqAt x ≠ 0#32) : t.pathTo (leafIx x) ≠ [] := by
  intro hnil
  obtain ⟨-, hfollow⟩ := h.pathTo_spec ((h.nodeValid_leafIx x).2 hx)
  rw [hnil] at hfollow
  have hroot := h.root_toNat
  have hpos := h.nint_pos
  have hnat := leafIx_toNat x
  rw [← (show t.root = leafIx x from hfollow)] at hnat
  omega

end Built

end Sys2Proof.Machine
end

section
/-! What GEN_CODES writes (43_code_table.md R140 to R142): a walk leaves at each leaf it reaches the code of a path to
it, and on a built tree that is the one path from the root. -/

namespace Sys2Proof.Machine

/-! ## Code entries -/

/-- The entry of a code with the characters of a path (43_code_table.md R142). -/
def pathEntry (path : List Bool) : CodeEntry :=
  { valid := true, len := BitVec.ofNat 8 path.length, bits := packPath path }

theorem codeOf_setCode (c : Table CodeEntry) (x y : Byte) (path : List Bool) :
    codeOf (setCode c x path) y = if y = x then pathEntry path else codeOf c y := by
  rw [codeOf, setCode, Table.get_set]
  exact if_congr BitVec.toNat_inj rfl rfl

theorem packPath_getLsbD (path : List Bool) (j : Nat) :
    (packPath path).getLsbD j = (decide (j < 256) && path.getD j false) := by
  rw [packPath, BitVec.getLsbD_setWidth, BitVec.getLsbD_ofBoolListLE]

theorem pathEntry_len_toNat {path : List Bool} (hpath : path.length ≤ 255) :
    (pathEntry path).len.toNat = path.length := by
  rw [pathEntry, BitVec.toNat_ofNat]
  omega

/-- The characters stored are those of the path, as many as LEN can count. -/
theorem codePath_pathEntry {path : List Bool} (hpath : path.length ≤ 255) : codePath (pathEntry path) = path := by
  have hlen := pathEntry_len_toNat hpath
  refine List.ext_getElem (by simp [codePath, hlen]) fun j hj hj' => ?_
  have hj256 : j < 256 := by omega
  simp [codePath, pathEntry, packPath_getLsbD, hj256, hj']

theorem pathEntry_bits_above {path : List Bool} {j : Nat} (hj : path.length ≤ j) :
    (pathEntry path).bits.getLsbD j = false := by
  rw [pathEntry, packPath_getLsbD, List.getD_eq_default _ _ hj, Bool.and_false]

/-! ## The walk -/

/-- A path from `i` that ends at the leaf of `x` and passes no other leaf. -/
def LeafPath (n : Table Inode) (i : NodeIx) (p : List Bool) (x : Byte) : Prop :=
  InnerPath n i p ∧ follow n i p = leafIx x

theorem innerPath_cons {n : Table Inode} {i : NodeIx} {b : Bool} {p : List Bool} :
    InnerPath n i (b :: p) ↔ isLeaf i = false ∧ InnerPath n (if b then nodeRight n i else nodeLeft n i) p := by
  constructor
  · exact fun hp => ⟨hp 0 (Nat.zero_lt_succ _), fun j hj => hp (j + 1) (Nat.succ_lt_succ hj)⟩
  · rintro ⟨hi, hp⟩ (_ | j) hj
    · exact hi
    · exact hp j (Nat.lt_of_succ_lt_succ hj)

theorem leafPath_of_leaf {n : Table Inode} {i : NodeIx} (hi : isLeaf i = true) {p : List Bool} {x : Byte} :
    LeafPath n i p x ↔ p = [] ∧ i = leafIx x := by
  cases p with
  | nil => simp [LeafPath, innerPath_nil, follow]
  | cons b p => simp [LeafPath, innerPath_cons, hi]

theorem leafPath_of_internal {n : Table Inode} {i : NodeIx} (hi : isLeaf i = false) {p : List Bool} {x : Byte} :
    LeafPath n i p x ↔ ∃ b q, p = b :: q ∧ LeafPath n (if b then nodeRight n i else nodeLeft n i) q x := by
  cases p with
  | nil =>
    have hne : i ≠ leafIx x := by
      rintro rfl
      rw [isLeaf_eq_false_iff, leafIx_toNat] at hi
      omega
    simp [LeafPath, follow, hne]
  | cons b p => simp [LeafPath, innerPath_cons, hi, follow]

theorem leafIx_eq_iff {i : NodeIx} (hi : isLeaf i = true) (x : Byte) : i = leafIx x ↔ x = i.setWidth 8 := by
  rw [isLeaf_iff] at hi
  rw [← BitVec.toNat_inj, ← BitVec.toNat_inj, leafIx_toNat, BitVec.toNat_setWidth, Nat.mod_eq_of_lt hi]
  exact eq_comm

theorem walk_leaf {n : Table Inode} {i : NodeIx} (hi : isLeaf i = true) (levels : Nat) (path : List Bool)
    (c : Table CodeEntry) : walk n (levels + 1) i path c = setCode c (i.setWidth 8) path := if_pos hi

theorem walk_internal {n : Table Inode} {i : NodeIx} (hi : isLeaf i = false) (levels : Nat) (path : List Bool)
    (c : Table CodeEntry) : walk n (levels + 1) i path c
      = walk n levels (nodeRight n i) (path ++ [true]) (walk n levels (nodeLeft n i) (path ++ [false]) c) :=
  if_neg (by simp [hi])

/-- A walk gives a symbol the code of a path to its leaf, or leaves its entry alone and no path of fewer edges than
its bound on nodes reaches the leaf. -/
theorem codeOf_walk (n : Table Inode) (x : Byte) : ∀ (levels : Nat) (i : NodeIx) (path : List Bool)
    (c : Table CodeEntry),
    (∃ p, LeafPath n i p x ∧ codeOf (walk n levels i path c) x = pathEntry (path ++ p)) ∨
    ((∀ p, LeafPath n i p x → levels ≤ p.length) ∧ codeOf (walk n levels i path c) x = codeOf c x)
  | 0, _, _, _ => .inr ⟨fun _ _ => Nat.zero_le _, rfl⟩
  | levels + 1, i, path, c => by
    cases hi : isLeaf i
    · rw [walk_internal hi]
      have extend {b : Bool} {p : List Bool} (hp : LeafPath n (if b then nodeRight n i else nodeLeft n i) p x) :
          LeafPath n i (b :: p) x := (leafPath_of_internal hi).2 ⟨b, p, rfl, hp⟩
      rcases codeOf_walk n x levels (nodeRight n i) (path ++ [true])
          (walk n levels (nodeLeft n i) (path ++ [false]) c) with ⟨p, hp, hcode⟩ | ⟨hright, hcode⟩
      · exact .inl ⟨true :: p, extend (b := true) hp, by rw [hcode, List.append_assoc, List.singleton_append]⟩
      · rw [hcode]
        rcases codeOf_walk n x levels (nodeLeft n i) (path ++ [false]) c with ⟨p, hp, hcode⟩ | ⟨hleft, hcode⟩
        · exact .inl ⟨false :: p, extend (b := false) hp, by rw [hcode, List.append_assoc, List.singleton_append]⟩
        · refine .inr ⟨fun p hp => ?_, hcode⟩
          obtain ⟨b, q, rfl, hq⟩ := (leafPath_of_internal hi).1 hp
          cases b
          · exact Nat.succ_le_succ (hleft q hq)
          · exact Nat.succ_le_succ (hright q hq)
    · rw [walk_leaf hi, codeOf_setCode]
      by_cases hx : i = leafIx x
      · rw [if_pos ((leafIx_eq_iff hi x).1 hx)]
        exact .inl ⟨[], (leafPath_of_leaf hi).2 ⟨rfl, hx⟩, by rw [List.append_nil]⟩
      · exact .inr ⟨fun p hp => absurd ((leafPath_of_leaf hi).1 hp).2 hx, if_neg (mt (leafIx_eq_iff hi x).2 hx)⟩

/-! ## GEN_CODES on a built tree -/

/-- What GEN_CODES leaves on a MULTI tree. -/
def State.coded (t : State) : State :=
  ({ t with code := walk t.inode 256 t.root [] [], codesValid := true } : State).retire

/-- BUILD and then GEN_CODES, where BUILD makes a MULTI tree. -/
theorem State.buildsTree.exec_build_genCodes {s : State} (h : s.buildsTree) :
    ∃ t : State, t.BuiltTree ∧ exec .build s = .next t ∧ exec .genCodes t = .next t.coded := by
  have hbuilt := h.builtTree
  refine ⟨_, hbuilt, h.exec_build, execGenCodes_next.2 (.inr ⟨by rw [hbuilt.multi]; simp, ?_⟩)⟩
  rw [if_pos hbuilt.multi]
  rfl

section Built

variable {t : State} (h : t.BuiltTree)
include h

/-- The table of a built tree: the symbols that occur have the code of the path to their leaf, the others none. -/
theorem State.BuiltTree.coded_codeAt (x : Byte) :
    t.coded.codeAt x = if t.freqAt x = 0#32 then CodeEntry.absent else pathEntry (t.pathTo (leafIx x)) := by
  have hle := h.nint_le
  rcases codeOf_walk t.inode x 256 t.root [] [] with ⟨p, ⟨hinner, hfollow⟩, hcode⟩ | ⟨hnone, hcode⟩
  · have hvalid := h.nodeValid_of_innerPath hinner
    have hpath := h.pathTo_follow hinner
    rw [hfollow] at hvalid hpath
    rw [if_neg ((h.nodeValid_leafIx x).1 hvalid), hpath]
    exact hcode
  · by_cases hx : t.freqAt x = 0#32
    · rw [if_pos hx]
      exact hcode
    · have hvalid := (h.nodeValid_leafIx x).2 hx
      have hlong := hnone _ (h.pathTo_spec hvalid)
      have hshort := h.pathTo_length_le hvalid
      omega

theorem State.BuiltTree.coded_valid_iff (x : Byte) : (t.coded.codeAt x).valid = true ↔ t.freqAt x ≠ 0#32 := by
  rw [h.coded_codeAt]
  by_cases hx : t.freqAt x = 0#32 <;> simp [hx, CodeEntry.absent, pathEntry]

theorem State.BuiltTree.coded_codeAt_of_valid {x : Byte} (hx : (t.coded.codeAt x).valid = true) :
    t.coded.codeAt x = pathEntry (t.pathTo (leafIx x)) := by
  rw [h.coded_codeAt, if_neg ((h.coded_valid_iff x).1 hx)]

theorem State.BuiltTree.nodeValid_of_coded {x : Byte} (hx : (t.coded.codeAt x).valid = true) :
    t.nodeValid (leafIx x) = true := (h.nodeValid_leafIx x).2 ((h.coded_valid_iff x).1 hx)

/-- LEN of a code is the length of its path. -/
theorem State.BuiltTree.coded_len_toNat {x : Byte} (hx : (t.coded.codeAt x).valid = true) :
    (t.coded.codeAt x).len.toNat = (t.pathTo (leafIx x)).length := by
  rw [h.coded_codeAt_of_valid hx]
  exact pathEntry_len_toNat ((h.pathTo_length_le (h.nodeValid_of_coded hx)).trans h.nint_le)

theorem State.BuiltTree.coded_codePath {x : Byte} (hx : (t.coded.codeAt x).valid = true) :
    codePath (t.coded.codeAt x) = t.pathTo (leafIx x) := by
  rw [h.coded_codeAt_of_valid hx]
  exact codePath_pathEntry ((h.pathTo_length_le (h.nodeValid_of_coded hx)).trans h.nint_le)

end Built

end Sys2Proof.Machine

namespace Sys2Proof

open Sys2Proof.Machine

/-- Settles O46: the walk reaches the leaf of every symbol that occurs, along the one path to it. -/
theorem codeIsPathToLeaf : Obligations.CodeIsPathToLeaf := by
  intro s hbuild
  obtain ⟨t, hbuilt, hexec, hcodes⟩ := hbuild.exec_build_genCodes
  refine ⟨t, t.coded, hexec, hcodes, fun x => ⟨hbuilt.coded_valid_iff x, fun hx => ⟨?_, ?_, ?_, fun j hj => ?_⟩⟩⟩
  · rw [hbuilt.coded_len_toNat hx]
    exact List.length_pos_iff.2 (hbuilt.pathTo_leafIx_ne_nil ((hbuilt.coded_valid_iff x).1 hx))
  · rw [hbuilt.coded_len_toNat hx]
    exact (hbuilt.pathTo_length_le (hbuilt.nodeValid_of_coded hx)).trans (State.nint_multi hbuilt.multi).le
  · rw [hbuilt.coded_codePath hx]
    exact (hbuilt.pathTo_spec (hbuilt.nodeValid_of_coded hx)).2
  · rw [hbuilt.coded_len_toNat hx] at hj
    rw [hbuilt.coded_codeAt_of_valid hx]
    exact pathEntry_bits_above hj

end Sys2Proof
end

section
/-! O47: the codes of a built tree (43_code_table.md R144). No leaf's path passes another leaf; and a node weighs what
its two children weigh together, so the leaves weigh what the root does. -/

namespace Sys2Proof.Machine

/-- 2^-d in units of 2^-255, for a node `d` steps below the root. -/
noncomputable def State.nodeWeight (t : State) (i : NodeIx) : Nat := 2 ^ (255 - (t.pathTo i).length)

/-- A sum over the leaves as a sum over the symbols. -/
theorem sum_map_leafList (s : State) (g : NodeIx → Nat) :
    ((leafList s.freq).map g).sum = (symbols.map fun x => if s.freqAt x ≠ 0#32 then g (leafIx x) else 0).sum := by
  simp only [leafList, State.freqAt, List.map_map]
  induction symbols with
  | nil => rfl
  | cons x xs ih =>
    by_cases hx : freqOf s.freq x = 0#32
    · simpa [hx] using ih
    · simpa [hx] using ih

section Built

variable {t : State} (h : t.BuiltTree)
include h

/-! ## No leaf's path goes on -/

/-- The leaf at the end of one path stands on no longer path to a leaf. -/
theorem State.BuiltTree.eq_of_pathTo_isPrefix {x y : Byte} (hx : t.nodeValid (leafIx x) = true)
    (hy : t.nodeValid (leafIx y) = true) (hxy : t.pathTo (leafIx x) <+: t.pathTo (leafIx y)) : x = y := by
  obtain ⟨-, hfollowx⟩ := h.pathTo_spec hx
  obtain ⟨hinner, hfollowy⟩ := h.pathTo_spec hy
  have htake : (t.pathTo (leafIx y)).take (t.pathTo (leafIx x)).length = t.pathTo (leafIx x) :=
    (List.prefix_iff_eq_take.1 hxy).symm
  rcases hxy.length_le.lt_or_eq with hlt | heq
  · have hleaf := hinner _ hlt
    rw [htake, hfollowx, isLeaf_eq_false_iff, leafIx_toNat] at hleaf
    omega
  · rw [← hxy.eq_of_length heq, hfollowx] at hfollowy
    exact leafIx_injective hfollowy

/-! ## Weights -/

theorem State.BuiltTree.nodeWeight_root : t.nodeWeight t.root = 2 ^ 255 := by
  rw [State.nodeWeight, h.pathTo_root, List.length_nil, Nat.sub_zero]

/-- The two children of a node weigh half of it each. -/
theorem State.BuiltTree.nodeWeight_children {k : Nat} (hk : k < t.nint) :
    t.nodeWeight (edgeChild t.inode (k, false)) + t.nodeWeight (edgeChild t.inode (k, true))
      = t.nodeWeight (internalIx k) := by
  have hle := h.nint_le
  have hlen := h.pathTo_length_le (h.edgeChild_valid (p := (k, false)) hk).1
  rw [h.pathTo_edgeChild hk, List.length_append, List.length_singleton] at hlen
  have hdepth : 255 - (t.pathTo (internalIx k)).length = 255 - ((t.pathTo (internalIx k)).length + 1) + 1 := by omega
  simp only [State.nodeWeight, h.pathTo_edgeChild hk, List.length_append, List.length_singleton]
  rw [hdepth, pow_succ, mul_two]

/-- The children of the first `m` merges weigh what their results weigh. -/
theorem State.BuiltTree.sum_nodeWeight_childrenBelow : ∀ {m : Nat}, m ≤ t.nint →
    ((childrenBelow t.inode m).map t.nodeWeight).sum = (((List.range m).map internalIx).map t.nodeWeight).sum
  | 0, _ => rfl
  | m + 1, hm => by
    have ih := State.BuiltTree.sum_nodeWeight_childrenBelow (m := m) (by omega)
    have hpair := h.nodeWeight_children hm
    simp only [childrenBelow, edgesBelow_succ, List.range_succ, List.map_append, List.sum_append, List.map_cons,
      List.map_nil, List.sum_cons, List.sum_nil] at ih ⊢
    omega

/-- The nodes made are the leaves and the merges' results; they are also the root and the merges' children. The weights
of results and children cancel. -/
theorem State.BuiltTree.sum_nodeWeight_leafList : ((leafList t.freq).map t.nodeWeight).sum = 2 ^ 255 := by
  have hforest := (h.forest.map t.nodeWeight).sum_eq
  have hchildren := h.sum_nodeWeight_childrenBelow le_rfl
  have hroot := h.nodeWeight_root
  simp only [madeNodes, List.map_append, List.sum_append, List.map_cons, List.map_nil, List.sum_cons,
    List.sum_nil] at hforest
  omega

theorem State.BuiltTree.kraft_term (x : Byte) :
    (if (t.coded.codeAt x).valid then 2 ^ (255 - (t.coded.codeAt x).len.toNat) else 0)
      = if t.freqAt x ≠ 0#32 then t.nodeWeight (leafIx x) else 0 := by
  by_cases hx : (t.coded.codeAt x).valid = true
  · rw [if_pos hx, if_pos ((h.coded_valid_iff x).1 hx), h.coded_len_toNat hx, State.nodeWeight]
  · rw [if_neg hx, if_neg (mt (h.coded_valid_iff x).2 hx)]

end Built

end Sys2Proof.Machine

namespace Sys2Proof

open Sys2Proof.Machine

/-- Settles O47: the codes are the paths to the leaves, and the leaves' weights are the Kraft sum's terms. -/
theorem codesPrefixFreeAndComplete : Obligations.CodesPrefixFreeAndComplete := by
  intro s hbuild
  obtain ⟨t, hbuilt, hexec, hcodes⟩ := hbuild.exec_build_genCodes
  refine ⟨t, t.coded, hexec, hcodes, fun x y hx hy hxy hprefix => hxy ?_, ?_⟩
  · rw [hbuilt.coded_codePath hx, hbuilt.coded_codePath hy] at hprefix
    exact hbuilt.eq_of_pathTo_isPrefix (hbuilt.nodeValid_of_coded hx) (hbuilt.nodeValid_of_coded hy) hprefix
  · rw [List.map_congr_left fun x _ => hbuilt.kraft_term x, ← sum_map_leafList]
    exact hbuilt.sum_nodeWeight_leafList

end Sys2Proof
end

section
/-! O48 and O45: the outcomes of ENCODE and of GEN_CODES, read off their inversions (43_code_table.md R140, R143,
R145 to R147). -/

namespace Sys2Proof.Machine

/-- The bytes ENCODE emits are the characters of the code. -/
theorem codeBytes_eq_map_codePath (c : CodeEntry) :
    codeBytes c = (codePath c).map fun b => if b then 0x31#8 else 0x30#8 := by
  rw [codeBytes, codePath, List.map_map]
  rfl

theorem errorRecord_encode (e : ErrorCause) (sym : Byte) :
    errorRecord e 0x5#4 sym 0x0004#16 = BitVec.ofNat 32 (0x00040050 + (causeCode e).toNat + 256 * sym.toNat) := by
  have hop : (0x5#4).toNat = 5 := rfl
  have haddr : (0x0004#16).toNat = 4 := rfl
  rw [errorRecord_eq]
  congr 1
  omega

end Sys2Proof.Machine

namespace Sys2Proof

open Sys2Proof.Machine

/-- Settles O48: the four answers of ENCODE with a consumer that accepts. -/
theorem encodeOutcome : Obligations.EncodeOutcome := by
  intro s x hready
  refine ⟨fun hcodes => ?_, fun hcodes hvalid => ?_, fun hcodes hvalid hsingle hroot => ?_,
    fun hcodes hvalid hother => ?_⟩
  · refine execEncode_next.2 (.inl ⟨hcodes, ?_⟩)
    rw [State.raise, errorRecord_encode]
    rfl
  · rw [← codeBytes_eq_map_codePath]
    exact execEncode_next.2 (.inr (.inl ⟨hcodes, hvalid, .inl ⟨.inr hready, rfl⟩⟩))
  · exact execEncode_next.2 (.inr (.inr (.inl ⟨hcodes, hvalid, ⟨hsingle, hroot⟩, rfl⟩)))
  · refine execEncode_next.2 (.inr (.inr (.inr ⟨hcodes, hvalid, not_and_or.2 hother, ?_⟩)))
    rw [State.raise, errorRecord_encode]
    rfl

/-- Settles O45: without a tree one raise; with a tree the table is written, and it is empty unless the tree is
MULTI. -/
theorem genCodesOutcome : Obligations.GenCodesOutcome := by
  intro s
  refine ⟨fun hnone => execGenCodes_next.2 (.inl ⟨hnone, rfl⟩), fun htree =>
    ⟨_, execGenCodes_next.2 (.inr ⟨htree, rfl⟩), rfl, fun hdegenerate x => ?_⟩⟩
  have hmulti : s.treeState ≠ .multi := by rcases hdegenerate with h | h <;> simp [h]
  rw [if_neg hmulti]
  rfl

end Sys2Proof
end

section
/-! O49 to O52: the state each single command of the decoder leaves (44_decoder.md R160 to R162, R167). -/

namespace Sys2Proof.Machine

/-! ## Error records -/

theorem errorRecord_decChar (e : ErrorCause) (chr : Byte) :
    errorRecord e 0x7#4 chr 0x0004#16 = BitVec.ofNat 32 (0x00040070 + (causeCode e).toNat + 256 * chr.toNat) := by
  have hop : (0x7#4).toNat = 7 := rfl
  have haddr : (0x0004#16).toNat = 4 := rfl
  rw [errorRecord_eq]
  congr 1
  omega

/-! ## A walk in a MULTI tree -/

/-- The decoder is in an open bracket of a MULTI tree, and DEC_OUT's consumer accepts. -/
structure State.Walking (s : State) : Prop where
  active : s.decState = .active
  multi  : s.treeState = .multi
  ready  : s.decReady = true

/-- The walk arrives at `nxt`: a leaf is emitted and the walk is back at the root, a node becomes CUR (44_decoder.md
R161). -/
def State.arriveAt (s : State) (nxt : NodeIx) : State :=
  if isLeaf nxt then { s with cur := s.root, decOut := s.decOut ++ [nxt.setWidth 8], pending := none }
  else { s with cur := nxt, pending := none }

theorem State.arriveAt_leaf (s : State) {nxt : NodeIx} (h : isLeaf nxt = true) :
    s.arriveAt nxt = { s with cur := s.root, decOut := s.decOut ++ [nxt.setWidth 8], pending := none } := if_pos h

theorem State.arriveAt_internal (s : State) {nxt : NodeIx} (h : isLeaf nxt = false) :
    s.arriveAt nxt = { s with cur := nxt, pending := none } := if_neg (by simp [h])

/-- DEC_CHAR of a character that names a child moves to it. -/
theorem State.Walking.exec_decChar {s : State} (h : s.Walking) {chr : Byte} {nxt : NodeIx}
    (hnext : nextNode s.inode s.cur chr = some nxt) : exec (.decChar chr) s = .next (s.arriveAt nxt) := by
  refine execDecChar_next.2 (.inr (.inr ⟨h.active, by simp [h.multi], .inl ⟨nxt, hnext, ?_⟩⟩))
  cases hleaf : isLeaf nxt
  · exact .inr (.inr ⟨rfl, s.arriveAt_internal hleaf⟩)
  · exact .inl ⟨rfl, h.ready, s.arriveAt_leaf hleaf⟩

/-- DEC_CHAR of any other character fails the bracket (44_decoder.md R161, R167). -/
theorem State.Walking.exec_decChar_malformed {s : State} (h : s.Walking) {chr : Byte}
    (hnext : nextNode s.inode s.cur chr = none) :
    exec (.decChar chr) s
      = .next (({ s with decState := .failed } : State).raise .malformedInput 0x7#4 chr 0x0004#16).retire :=
  execDecChar_next.2 (.inr (.inr ⟨h.active, by simp [h.multi], .inr ⟨hnext, rfl⟩⟩))

end Sys2Proof.Machine

namespace Sys2Proof

open Sys2Proof.Machine

/-- Settles O49: without a tree one raise, and with one the walk starts at the root. -/
theorem decStartOpensBracket : Obligations.DecStartOpensBracket := fun _ =>
  ⟨fun hnone => execDecStart_next.2 (.inl ⟨hnone, rfl⟩), fun htree => execDecStart_next.2 (.inr ⟨htree, rfl⟩)⟩

/-- Settles O50: outside a bracket one raise, in a degenerate tree nothing, and in a MULTI tree a move or, where the
character names no child, FAILED. -/
theorem decCharWalksTree : Obligations.DecCharWalksTree := by
  intro s chr hready
  refine ⟨fun hclosed => ?_, fun hact htree => execDecChar_next.2 (.inr (.inl ⟨hact, htree, rfl⟩)),
    fun hact htree hcur => ?_⟩
  · refine execDecChar_next.2 (.inl ⟨hclosed, ?_⟩)
    rw [State.raise, errorRecord_decChar]
    rfl
  · have hwalk : s.Walking := ⟨hact, htree, hready⟩
    refine ⟨fun hchr hleaf => ?_, fun hchr hinner => ?_, fun h0 h1 => ?_⟩
    · rw [hwalk.exec_decChar (nextNode_internal s.inode hcur hchr), s.arriveAt_leaf (isLeaf_of_le hleaf),
        BitVec.ofNat_toNat]
    · rw [hwalk.exec_decChar (nextNode_internal s.inode hcur hchr),
        s.arriveAt_internal ((isLeaf_eq_false_iff _).2 hinner)]
    · rw [hwalk.exec_decChar_malformed (by rw [nextNode, if_neg h0, if_neg h1]), State.raise, errorRecord_decChar]
      rfl

/-- Settles O51: each answer of DEC_END, by the bracket, the tree and where the walk stands. -/
theorem decEndClosesBracket : Obligations.DecEndClosesBracket := by
  intro s hready
  refine ⟨fun hclosed => execDecEnd_next.2 (.inl ⟨hclosed, rfl⟩), fun hact htree hroot => ?_,
    fun hact htree hcur => execDecEnd_next.2 (.inr (.inr (.inl ⟨hact, ⟨htree, hcur⟩, rfl⟩))),
    fun hact htree hcur => execDecEnd_next.2 (.inr (.inr (.inr ⟨hact, by simp [htree], by simp [hcur], rfl⟩))),
    fun hact htree => execDecEnd_next.2 (.inr (.inr (.inr ⟨hact, by simp [htree], by simp [htree], rfl⟩)))⟩
  have hfreq : nodeFreq s.freq s.inode s.root = s.freqAt (s.root.setWidth 8) := if_pos (isLeaf_of_le hroot)
  rw [BitVec.ofNat_toNat, ← hfreq]
  exact execDecEnd_next.2 (.inr (.inl ⟨hact, htree, .inl ⟨.inr hready, rfl⟩⟩))

/-- Settles O52: outside an open bracket DEC_CHAR and DEC_END only raise SEQUENCE, and no operation but the six named
writes DEC_STATE or DEC_OUT. -/
theorem failedBracketStaysFailed : Obligations.FailedBracketStaysFailed := by
  intro i s t h hfailed
  have hclosed : s.decState ≠ .active := by simp [hfailed]
  cases i
  case decChar chr =>
    obtain rfl : t = _ := by simpa [exec, hclosed] using h
    exact ⟨rfl, .inl hfailed⟩
  case decEnd =>
    obtain rfl : t = _ := by simpa [exec, hclosed] using h
    exact ⟨rfl, .inl hfailed⟩
  all_goals
    revert h
    simp +contextual [exec, or_imp, hfailed]

end Sys2Proof
end

section
/-! O53: the eager decoder against the source's loop (44_decoder.md R163, 90_conflicts.md C1). The loop is at a leaf it
has not noticed where the decoder has emitted it and is back at the root. -/

namespace Sys2Proof.Machine

/-! ## The source's loop -/

/-- The node a character of a stream of '0' and '1' leads to. -/
def childOf (n : Table Inode) (i : NodeIx) (chr : Byte) : NodeIx :=
  if chr = 0x30#8 then nodeLeft n i else nodeRight n i

theorem nextNode_eq_childOf (n : Table Inode) (i : NodeIx) {chr : Byte} (hchr : chr = 0x30#8 ∨ chr = 0x31#8) :
    nextNode n i chr = some (childOf n i chr) := by
  rcases hchr with rfl | rfl <;> rfl

theorem lazyDecode_internal_nil (n : Table Inode) (root : NodeIx) {i : NodeIx} (hi : isLeaf i = false) :
    lazyDecode n root i [] = [] := by
  simp [lazyDecode, hi]

theorem lazyDecode_internal_cons (n : Table Inode) (root : NodeIx) {i : NodeIx} (hi : isLeaf i = false) (chr : Byte)
    (chrs : List Byte) : lazyDecode n root i (chr :: chrs) = lazyDecode n root (childOf n i chr) chrs := by
  simp [lazyDecode, hi, childOf]

/-- At a leaf the loop emits it and goes on as from the root. -/
theorem lazyDecode_leaf (n : Table Inode) {root i : NodeIx} (hroot : isLeaf root = false) (hi : isLeaf i = true)
    (chrs : List Byte) : lazyDecode n root i chrs = i.setWidth 8 :: lazyDecode n root root chrs := by
  cases chrs <;> simp [lazyDecode, hi, hroot]

/-! ## The decoder's walk -/

section Arrive

variable {s : State} (nxt : NodeIx)

@[simp] theorem State.arriveAt_inode : (s.arriveAt nxt).inode = s.inode := by unfold State.arriveAt; split <;> rfl
@[simp] theorem State.arriveAt_root : (s.arriveAt nxt).root = s.root := by unfold State.arriveAt; split <;> rfl
@[simp] theorem State.arriveAt_err : (s.arriveAt nxt).err = s.err := by unfold State.arriveAt; split <;> rfl

theorem State.Walking.arriveAt (h : s.Walking) : (s.arriveAt nxt).Walking := by
  unfold State.arriveAt
  split <;> exact ⟨h.active, h.multi, h.ready⟩

theorem State.arriveAt_cur_internal (hroot : isLeaf s.root = false) : isLeaf (s.arriveAt nxt).cur = false := by
  cases hleaf : isLeaf nxt
  · rwa [s.arriveAt_internal hleaf]
  · rwa [s.arriveAt_leaf hleaf]

/-- What the decoder has emitted and what the loop would emit from the decoder's node add up to what the loop would emit
from `nxt`. -/
theorem State.arriveAt_decOut_append (hroot : isLeaf s.root = false) (chrs : List Byte) :
    (s.arriveAt nxt).decOut ++ lazyDecode s.inode s.root (s.arriveAt nxt).cur chrs
      = s.decOut ++ lazyDecode s.inode s.root nxt chrs := by
  cases hleaf : isLeaf nxt
  · rw [s.arriveAt_internal hleaf]
  · rw [s.arriveAt_leaf hleaf, lazyDecode_leaf s.inode hroot hleaf, List.append_assoc, List.singleton_append]

end Arrive

/-- DEC_CHAR by DEC_CHAR from an internal node, for every stream of '0' and '1'. -/
theorem State.Walking.execAll_decChar {s : State} (h : s.Walking) (hroot : isLeaf s.root = false)
    (hcur : isLeaf s.cur = false) {chrs : List Byte} (hchrs : ∀ c ∈ chrs, c = 0x30#8 ∨ c = 0x31#8) :
    ∃ t, execAll (chrs.map .decChar) s = .next t ∧ t.err = s.err ∧
      t.decOut = s.decOut ++ lazyDecode s.inode s.root s.cur chrs := by
  induction chrs generalizing s with
  | nil => exact ⟨s, rfl, rfl, by rw [lazyDecode_internal_nil _ _ hcur, List.append_nil]⟩
  | cons chr chrs ih =>
    obtain ⟨hchr, hrest⟩ := List.forall_mem_cons.1 hchrs
    have hstep := h.exec_decChar (nextNode_eq_childOf s.inode s.cur hchr)
    obtain ⟨t, ht, hterr, htout⟩ := ih (h.arriveAt (childOf s.inode s.cur chr)) (by rwa [State.arriveAt_root])
      (State.arriveAt_cur_internal _ hroot) hrest
    refine ⟨t, (execAll_cons_of_next hstep _).trans ht, hterr.trans (State.arriveAt_err _), ?_⟩
    rw [htout, State.arriveAt_inode, State.arriveAt_root, State.arriveAt_decOut_append _ hroot,
      lazyDecode_internal_cons _ _ hcur]

end Sys2Proof.Machine

namespace Sys2Proof

open Sys2Proof.Machine

/-- Settles O53, by induction on the stream: the root is internal, so each command is one round of the loop, and a leaf
is emitted one character earlier. -/
theorem eagerDecodeEqualsSourceLoop : Obligations.EagerDecodeEqualsSourceLoop := by
  intro s chrs hmulti hregs _ hactive hcur hready hchrs
  have hroot : isLeaf s.root = false := (isLeaf_eq_false_iff _).2 (State.onInternal_root hregs hmulti).1
  have hwalk : s.Walking := ⟨hactive, hmulti, hready⟩
  have hrun := hwalk.execAll_decChar hroot (hcur ▸ hroot) hchrs
  rwa [hcur] at hrun

end Sys2Proof
end

section
/-! O54, decoding: in a bracket of a tree that holds the paths of a code table, the characters of a source's codes give
the source (44_decoder.md R169). -/

namespace Sys2Proof.Machine

theorem execAll_append_of_next {is js : List Instr} {s t : State} (h : execAll is s = .next t) :
    execAll (is ++ js) s = execAll js t := by
  induction is generalizing s with
  | nil =>
    obtain rfl : s = t := by simpa [execAll] using h
    rfl
  | cons i is ih =>
    cases hi : exec i s with
    | next u =>
      rw [execAll_cons_of_next hi] at h
      rw [List.cons_append, execAll_cons_of_next hi, ih h]
    | fault r => cases r
    | refused r => simp [execAll, hi] at h

/-! ## One code -/

/-- The character of one step of a path (43_code_table.md R145). -/
def stepChar (b : Bool) : Byte := if b then 0x31#8 else 0x30#8

theorem nextNode_stepChar (n : Table Inode) (i : NodeIx) (b : Bool) :
    nextNode n i (stepChar b) = some (if b then nodeRight n i else nodeLeft n i) := by
  cases b <;> rfl

/-- `w` in an open bracket that has emitted `out` and stands on `i`. -/
def State.walkingAt (w : State) (i : NodeIx) (out : List Byte) : State :=
  { w with cur := i, decState := .active, decOut := w.decOut ++ out, pending := none }

section Walk

variable {w : State} (hmulti : w.treeState = .multi) (hready : w.decReady = true)
include hmulti hready

theorem State.walkingAt_walking (i : NodeIx) (out : List Byte) : (w.walkingAt i out).Walking := ⟨rfl, hmulti, hready⟩

/-- The characters of a path to a leaf emit its symbol and lead back to the root. -/
theorem execAll_leafPath {x : Byte} {p : List Bool} {i : NodeIx} (hi : isLeaf i = false)
    (hp : LeafPath w.inode i p x) (out : List Byte) :
    execAll ((p.map stepChar).map .decChar) (w.walkingAt i out) = .next (w.walkingAt w.root (out ++ [x])) := by
  induction p generalizing i with
  | nil =>
    obtain ⟨_, _, hnil, -⟩ := (leafPath_of_internal hi).1 hp
    cases hnil
  | cons b p ih =>
    obtain ⟨_, _, hcons, hrest⟩ := (leafPath_of_internal hi).1 hp
    cases hcons
    have hstep := (State.walkingAt_walking hmulti hready i out).exec_decChar (nextNode_stepChar w.inode i b)
    rw [List.map_cons, List.map_cons, execAll_cons_of_next hstep]
    cases hleaf : isLeaf (if b then nodeRight w.inode i else nodeLeft w.inode i)
    · rw [State.arriveAt_internal _ hleaf]
      exact ih hleaf hrest
    · obtain ⟨rfl, hx⟩ := (leafPath_of_leaf hleaf).1 hrest
      rw [State.arriveAt_leaf _ hleaf, hx, leafIx_setWidth]
      simp [execAll, State.walkingAt]

/-! ## A source -/

/-- The characters of a source under a code table. -/
def sourceChars (c : Table CodeEntry) (src : List Byte) : List Byte := src.flatMap fun x => codeBytes (codeOf c x)

theorem execAll_sourceChars {c : Table CodeEntry} {src : List Byte} (hroot : isLeaf w.root = false)
    (hpaths : ∀ x ∈ src, LeafPath w.inode w.root (codePath (codeOf c x)) x) (out : List Byte) :
    execAll ((sourceChars c src).map .decChar) (w.walkingAt w.root out)
      = .next (w.walkingAt w.root (out ++ src)) := by
  induction src generalizing out with
  | nil => rw [List.append_nil]; rfl
  | cons x xs ih =>
    obtain ⟨hx, hxs⟩ := List.forall_mem_cons.1 hpaths
    have hcode := execAll_leafPath hmulti hready hroot hx out
    have hsplit : sourceChars c (x :: xs) = (codePath (codeOf c x)).map stepChar ++ sourceChars c xs := by
      rw [sourceChars, List.flatMap_cons, codeBytes_eq_map_codePath]
      rfl
    rw [hsplit, List.map_append, execAll_append_of_next hcode, ih hxs, List.append_assoc, List.singleton_append]

end Walk

/-! ## The bracket -/

/-- The tree of `w` decodes the codes `c` of a source: the only symbol of a SINGLE tree, as often as it was counted,
has the empty code, and in a MULTI tree the code of each symbol is a path to its leaf. -/
inductive State.Decodes (w : State) (c : Table CodeEntry) (src : List Byte) : Prop where
  | single (x : Byte) (htree : w.treeState = .single) (hroot : w.root = leafIx x)
      (hsrc : src = List.replicate (w.freqAt x).toNat x) (hcode : codeOf c x = CodeEntry.absent)
  | multi (htree : w.treeState = .multi) (hroot : isLeaf w.root = false)
      (hpaths : ∀ x ∈ src, LeafPath w.inode w.root (codePath (codeOf c x)) x)

theorem sourceChars_replicate_absent {c : Table CodeEntry} {x : Byte} (hcode : codeOf c x = CodeEntry.absent)
    (n : Nat) : sourceChars c (List.replicate n x) = [] := by
  have hbytes : codeBytes (codeOf c x) = [] := by
    rw [hcode]
    rfl
  exact List.flatMap_eq_nil_iff.2 fun y hy => List.eq_of_mem_replicate hy ▸ hbytes

/-- The bracket appends the source and leaves everything else but the decoder's registers. -/
theorem State.Decodes.execAll_bracket {w : State} {c : Table CodeEntry} {src : List Byte} (h : w.Decodes c src)
    (hready : w.decReady = true) :
    execAll (.decStart :: (sourceChars c src).map .decChar ++ [.decEnd]) w
      = .next { w with cur := w.root, decState := .idle, decOut := w.decOut ++ src, pending := none } := by
  have hopen (htree : w.treeState ≠ .none) : exec .decStart w = .next (w.walkingAt w.root []) := by
    rw [(decStartOpensBracket w).2 htree, State.walkingAt, List.append_nil]
  cases h with
  | single x htree hroot hsrc hcode =>
    have hbytes : List.replicate (nodeFreq w.freq w.inode w.root).toNat (w.root.setWidth 8) = src := by
      rw [hsrc, hroot, nodeFreq_leafIx, leafIx_setWidth]
      rfl
    have hclose : exec .decEnd (w.walkingAt w.root [])
        = .next { w with cur := w.root, decState := .idle, decOut := w.decOut ++ src, pending := none } := by
      refine execDecEnd_next.2 (.inr (.inl ⟨rfl, htree, .inl ⟨.inr hready, ?_⟩⟩))
      simp [State.walkingAt, hbytes, State.retire]
    have hchars : sourceChars c src = [] := hsrc ▸ sourceChars_replicate_absent hcode _
    rw [hchars, List.cons_append, execAll_cons_of_next (hopen (by simp [htree]))]
    exact execAll_cons_of_next hclose []
  | multi htree hroot hpaths =>
    have hwalk := execAll_sourceChars htree hready hroot hpaths []
    rw [List.cons_append, execAll_cons_of_next (hopen (by simp [htree])), execAll_append_of_next hwalk]
    exact execAll_cons_of_next ((decEndClosesBracket (w.walkingAt w.root src) hready).2.2.2.1 rfl htree rfl) []

end Sys2Proof.Machine
end

section
/-! O54, encoding and the whole round trip (44_decoder.md R169): the counters of a source give a tree and a code table
that decodes it, ENCODE puts the source's characters on ENC_OUT, and a second BUILD makes the same tree. -/

namespace Sys2Proof.Machine

/-! ## The counters of a source -/

/-- FREQ holds the counts of a source (41_frequency.md R113). -/
def State.Counts (s : State) (src : List Byte) : Prop := ∀ c : Byte, (s.freqAt c).toNat = src.count c

theorem sum_count_symbols (src : List Byte) : (symbols.map fun x => src.count x).sum = src.length := by
  have hsum := Multiset.sum_count_eq_card (s := symbols.toFinset) (m := (src : Multiset Byte))
    fun x _ => List.mem_toFinset.2 (mem_symbols x)
  rw [List.sum_toFinset _ symbols_nodup] at hsum
  simpa only [Multiset.coe_count, Multiset.coe_card] using hsum

section Counts

variable {s : State} {src : List Byte} (h : s.Counts src)
include h

theorem State.Counts.freqTotal_eq : freqTotal s.freq = src.length :=
  (congrArg List.sum (List.map_congr_left fun x _ => h x)).trans (sum_count_symbols src)

theorem State.Counts.freqAt_ne_zero_iff (x : Byte) : s.freqAt x ≠ 0#32 ↔ x ∈ src := by
  rw [← List.count_pos_iff, ← h x, Nat.pos_iff_ne_zero, ne_eq, ne_eq, ← BitVec.toNat_inj]
  rfl

/-- A source of one symbol. -/
theorem State.Counts.eq_replicate {x : Byte} (hother : ∀ y, y ≠ x → s.freqAt y = 0#32) :
    src = List.replicate (s.freqAt x).toNat x := by
  have hall : ∀ y ∈ src, y = x := fun y hy => not_imp_comm.1 (hother y) ((h.freqAt_ne_zero_iff y).2 hy)
  rw [h x, List.count_eq_length.2 fun y hy => (hall y hy).symm]
  exact List.eq_replicate_of_mem hall

end Counts

/-! ## BUILD -/

/-- `t` has the counters, ERR, the streams and their consumer of `s`: what BUILD leaves alone. -/
structure KeepsPorts (s t : State) : Prop where
  freqW    : t.freqW = s.freqW
  freq     : t.freq = s.freq
  err      : t.err = s.err
  encOut   : t.encOut = s.encOut
  decOut   : t.decOut = s.decOut
  encReady : t.encReady = s.encReady
  decReady : t.decReady = s.decReady

theorem exec_build_keepsPorts {s t : State} (hfits : freqTotal s.freq ≤ s.freqMax) (h : exec .build s = .next t) :
    KeepsPorts s t := by
  rcases execBuild_next.1 h with ⟨hover, -⟩ | ⟨-, rfl⟩
  · exact absurd hover hfits.not_gt
  · constructor <;> simp

/-- BUILD writes no record outside its tree. -/
theorem State.inodeOf_buildFrom_above {s : State} {k : Nat} : ∀ l, leafList s.freq = l →
    (s.buildFrom l).nint ≤ k → inodeOf (s.buildFrom l).inode k = inodeOf s.inode k
  | [], _, _ | [_], _, _ => rfl
  | a :: b :: l, hl, hk => by
    have h2 : 2 ≤ (leafList s.freq).length := by simp [hl]
    rw [← hl, State.buildFrom_multi s h2] at hk ⊢
    exact s.inodeOf_builtMulti_above (s.builtMulti_nint ▸ hk)

theorem exec_build_inodeOf_above {s t : State} (h : exec .build s = .next t) {k : Nat} (hk : t.nint ≤ k) :
    inodeOf t.inode k = inodeOf s.inode k := by
  rcases execBuild_next.1 h with ⟨-, rfl⟩ | ⟨-, rfl⟩
  · rfl
  · exact State.inodeOf_buildFrom_above (s := s.invalidate) _ rfl hk

/-- A second BUILD over the first one's tree leaves that tree and its arena (42_tree_builder.md R132). -/
theorem exec_build_again {s t u r : State} (ht : exec .build s = .next t) (hr : exec .build u = .next r)
    (hW : u.freqW = s.freqW) (hfreq : u.freq = s.freq) (hinode : u.inode = t.inode) :
    r.treeState = t.treeState ∧ r.root = t.root ∧ ∀ k, inodeOf r.inode k = inodeOf t.inode k := by
  obtain ⟨htree, hnsym, hroot, -, hbelow⟩ :=
    buildDependsOnFreqOnly s u t r hW.symm (fun x => by rw [State.freqAt, State.freqAt, hfreq]) ht hr
  have hnint : r.nint = t.nint := by rw [State.nint, State.nint, htree, hnsym]
  refine ⟨htree.symm, hroot.symm, fun k => ?_⟩
  by_cases hk : k < t.nint
  · exact (hbelow k hk).symm
  · rw [exec_build_inodeOf_above hr (by omega), hinode]

/-! ## Decoding with another state's tree -/

theorem follow_congr {n n' : Table Inode} (h : ∀ k, inodeOf n' k = inodeOf n k) (p : List Bool) (i : NodeIx) :
    follow n' i p = follow n i p := by
  have hi (i : NodeIx) : i.toNat < 256 + 256 := i.isLt
  induction p generalizing i with
  | nil => rfl
  | cons b p ih =>
    rw [follow, follow, ih, nodeLeft_congr (fun k _ => h k) (hi i), nodeRight_congr (fun k _ => h k) (hi i)]

theorem LeafPath.congr {n n' : Table Inode} (h : ∀ k, inodeOf n' k = inodeOf n k) {i : NodeIx} {p : List Bool}
    {x : Byte} (hp : LeafPath n i p x) : LeafPath n' i p x := by
  simpa only [LeafPath, InnerPath, follow_congr h] using hp

theorem State.Decodes.congr {w w' : State} {c : Table CodeEntry} {src : List Byte} (h : w.Decodes c src)
    (htree : w'.treeState = w.treeState) (hroot : w'.root = w.root) (hfreq : w'.freq = w.freq)
    (hinode : ∀ k, inodeOf w'.inode k = inodeOf w.inode k) : w'.Decodes c src := by
  cases h with
  | single x hsingle hleaf hsrc hcode =>
    refine .single x (htree.trans hsingle) (hroot.trans hleaf) ?_ hcode
    rw [hsrc, State.freqAt, State.freqAt, hfreq]
  | multi hmulti hinner hpaths =>
    refine .multi (htree.trans hmulti) (hroot ▸ hinner) fun x hx => ?_
    rw [hroot]
    exact (hpaths x hx).congr hinode

/-! ## ENCODE -/

/-- ENCODE finds a code for `x`: an entry, or the empty code of a SINGLE tree's symbol (43_code_table.md R145, R146). -/
def State.HasCode (s : State) (x : Byte) : Prop :=
  (s.codeAt x).valid = true ∨ (s.codeAt x = CodeEntry.absent ∧ s.treeState = .single ∧ x.setWidth 9 = s.root)

section Encode

variable {s : State} (hready : s.encReady = true) (hcodes : s.codesValid = true)
include hready hcodes

theorem exec_encode_of_hasCode {x : Byte} (hx : s.HasCode x) :
    exec (.encode x) s = .next { s with encOut := s.encOut ++ codeBytes (s.codeAt x), pending := none } := by
  obtain ⟨-, hentry, hempty, -⟩ := encodeOutcome s x hready
  rcases hx with hvalid | ⟨habsent, hsingle, hroot⟩
  · rw [hentry hcodes hvalid, codeBytes_eq_map_codePath]
  · have hbytes : codeBytes (s.codeAt x) = [] := by
      rw [habsent]
      rfl
    rw [hempty hcodes (by rw [habsent]; rfl) hsingle hroot, hbytes, List.append_nil]

/-- ENCODE of each byte of a source puts its characters on ENC_OUT. -/
theorem execAll_encode {src : List Byte} (hidle : s.pending = none) (hsrc : ∀ x ∈ src, s.HasCode x) :
    execAll (src.map .encode) s
      = .next { s with encOut := s.encOut ++ sourceChars s.code src, pending := none } := by
  induction src generalizing s with
  | nil => simp [execAll, sourceChars, ← hidle]
  | cons x xs ih =>
    obtain ⟨hx, hxs⟩ := List.forall_mem_cons.1 hsrc
    rw [List.map_cons, execAll_cons_of_next (exec_encode_of_hasCode hready hcodes hx)]
    refine (ih (s := { s with encOut := _, pending := none }) hready hcodes rfl hxs).trans ?_
    rw [List.append_assoc]
    rfl

end Encode

/-! ## BUILD and GEN_CODES of a source -/

/-- `t` after a GEN_CODES that makes the table `c`. -/
def State.withCodes (t : State) (c : Table CodeEntry) : State :=
  { t with code := c, codesValid := true, pending := none }

/-- The tree and the codes that BUILD and GEN_CODES make of `s` encode and decode a source. -/
structure State.Codes (s t : State) (c : Table CodeEntry) (src : List Byte) : Prop where
  build    : exec .build s = .next t
  genCodes : exec .genCodes t = .next (t.withCodes c)
  hasCode  : ∀ x ∈ src, (t.withCodes c).HasCode x
  decodes  : t.Decodes c src

/-- `t` after GEN_CODES and ENCODE of each byte of a source. -/
def State.encoded (t : State) (c : Table CodeEntry) (src : List Byte) : State :=
  { t.withCodes c with encOut := t.encOut ++ sourceChars c src }

theorem State.Codes.execAll_encoding {s t : State} {c : Table CodeEntry} {src : List Byte} (h : s.Codes t c src)
    (hready : t.encReady = true) :
    execAll (.build :: .genCodes :: src.map .encode) s = .next (t.encoded c src) := by
  rw [execAll_cons_of_next h.build, execAll_cons_of_next h.genCodes]
  exact execAll_encode (s := t.withCodes c) hready rfl rfl h.hasCode

theorem State.Counts.codes_single {s : State} {src : List Byte} (h : s.Counts src) {x : Byte}
    (hx : s.freqAt x ≠ 0#32) (hother : ∀ y, y ≠ x → s.freqAt y = 0#32) (hmax : (s.freqAt x).toNat ≤ s.freqMax) :
    ∃ t c, s.Codes t c src := by
  have hsrc := h.eq_replicate hother
  refine ⟨_, [], (buildDegenerateTrees s).2 x hx hother hmax, execGenCodes_next.2 (.inr ⟨by simp, rfl⟩),
    fun y hy => ?_, .single x rfl rfl hsrc rfl⟩
  rw [hsrc] at hy
  obtain rfl := List.eq_of_mem_replicate hy
  exact .inr ⟨rfl, rfl, rfl⟩

theorem State.Counts.codes_multi {s : State} {src : List Byte} (h : s.Counts src) (hbuild : s.buildsTree) :
    ∃ t c, s.Codes t c src := by
  obtain ⟨t, hbuilt, hexec, hcodes⟩ := hbuild.exec_build_genCodes
  have hvalid : ∀ x ∈ src, (t.coded.codeAt x).valid = true := fun x hx => by
    rw [hbuilt.coded_valid_iff, execBuild_freqAt hexec]
    exact (h.freqAt_ne_zero_iff x).2 hx
  have hroot : isLeaf t.root = false := by
    rw [isLeaf_eq_false_iff, hbuilt.root_toNat]
    have := hbuilt.nint_pos
    omega
  refine ⟨t, walk t.inode 256 t.root [] [], hexec, hcodes, fun x hx => .inl (hvalid x hx),
    .multi hbuilt.multi hroot fun x hx => ?_⟩
  have hpath : codePath (t.coded.codeAt x) = t.pathTo (leafIx x) := hbuilt.coded_codePath (hvalid x hx)
  exact hpath ▸ hbuilt.pathTo_spec (hbuilt.nodeValid_of_coded (hvalid x hx))

theorem State.Counts.exists_codes {s : State} {src : List Byte} (h : s.Counts src) (hne : src ≠ [])
    (hW : s.freqW ≤ 32) (hlen : src.length ≤ s.freqMax) : ∃ t c, s.Codes t c src := by
  match hl : leafList s.freq with
  | [] =>
    obtain ⟨x, hx⟩ := List.exists_mem_of_ne_nil src hne
    exact absurd (freqOf_eq_zero_of_leafList_nil hl x) ((h.freqAt_ne_zero_iff x).2 hx)
  | [leaf] =>
    obtain ⟨x, -, hx, hother⟩ := exists_of_leafList_singleton hl
    exact h.codes_single hx hother ((h x).trans_le (List.count_le_length.trans hlen))
  | a :: b :: l =>
    refine h.codes_multi ⟨hW, ?_, h.freqTotal_eq.trans_le hlen⟩
    rw [State.leafCount_eq, hl]
    simp

/-! ## The bracket after ENCODE -/

/-- The tree decodes after ENCODE, kept or built again. -/
theorem State.Codes.execAll_again {s t : State} {c : Table CodeEntry} {src : List Byte} (h : s.Codes t c src)
    (hfits : freqTotal s.freq ≤ s.freqMax) {again : List Instr} (hagain : again ∈ [[], [.build]]) :
    ∃ w, execAll again (t.encoded c src) = .next w ∧ w.Decodes c src ∧ KeepsPorts (t.encoded c src) w := by
  obtain rfl | rfl : again = [] ∨ again = [.build] := by simpa using hagain
  · exact ⟨_, rfl, h.decodes.congr rfl rfl rfl fun _ => rfl, ⟨rfl, rfl, rfl, rfl, rfl, rfl, rfl⟩⟩
  · have hports := exec_build_keepsPorts hfits h.build
    have hfits' : freqTotal t.freq ≤ t.freqMax := by
      rwa [State.freqMax, hports.freqW, hports.freq]
    obtain ⟨w, hw⟩ : ∃ w, exec .build (t.encoded c src) = .next w := ⟨_, execBuild_next.2 (.inr ⟨hfits', rfl⟩)⟩
    have hwports : KeepsPorts (t.encoded c src) w := exec_build_keepsPorts hfits' hw
    obtain ⟨htree, hroot, hinode⟩ := exec_build_again h.build hw hports.freqW hports.freq rfl
    exact ⟨w, execAll_cons_of_next hw [], h.decodes.congr htree hroot hwports.freq hinode, hwports⟩

end Sys2Proof.Machine

namespace Sys2Proof

open Sys2Proof.Machine

/-- Settles O54: each code is the path to its symbol's leaf in the tree of the counters, and a second BUILD makes the
same tree; the code of a SINGLE tree's symbol is empty, and DEC_END emits it as often as it was counted. -/
theorem roundTrip : Obligations.RoundTrip := by
  intro s src hne hdrained _ hW hlen hcounts
  obtain ⟨henc, hdec⟩ := hdrained
  have hfits : freqTotal s.freq ≤ s.freqMax := (State.Counts.freqTotal_eq hcounts).trans_le hlen
  obtain ⟨t, c, hcodes⟩ := State.Counts.exists_codes hcounts hne hW hlen
  have hports := exec_build_keepsPorts hfits hcodes.build
  refine ⟨t.encoded c src, sourceChars c src, hcodes.execAll_encoding (hports.encReady.trans henc),
    congrArg (· ++ _) hports.encOut, fun again hagain => ?_⟩
  obtain ⟨w, hw, hdecodes, hwports⟩ := hcodes.execAll_again hfits hagain
  have hbracket := hdecodes.execAll_bracket (hwports.decReady.trans (hports.decReady.trans hdec))
  rw [List.append_assoc, execAll_append_of_next hw]
  exact ⟨_, hbracket, congrArg (· ++ src) (hwports.decOut.trans hports.decOut), hwports.encOut,
    hwports.err.trans hports.err⟩

end Sys2Proof
end

section
/-! O9: nothing stops the block (60_exceptions.md R226). Every operation ends in one of the shared ways to end one, and
each of them answers a next state. -/

namespace Sys2Proof.Machine

/-- The outcome is a next state: no fault and no refusal. -/
def Answers (o : Host.Outcome State Fault Refusal) : Prop := ∃ t, o = .next t

theorem answers_next (t : State) : Answers (.next t) := ⟨t, rfl⟩

theorem Answers.ite {c : Prop} [Decidable c] {o o' : Host.Outcome State Fault Refusal} (h : Answers o)
    (h' : Answers o') : Answers (if c then o else o') := by
  split
  · exact h
  · exact h'

theorem finish_answers (t : State) : Answers (finish t) := answers_next _

theorem fail_answers (t : State) (e : ErrorCause) (op : BitVec 4) (arg : Byte) : Answers (fail t e op arg) :=
  finish_answers _

theorem finishEnc_answers (s t : State) (bytes : List Byte) : Answers (finishEnc s t bytes) :=
  .ite (finish_answers _) (answers_next _)

theorem finishDec_answers (s t : State) (bytes : List Byte) : Answers (finishDec s t bytes) :=
  .ite (finish_answers _) (answers_next _)

theorem rejectWrite_answers (s : State) (e : ErrorCause) (a : Addr) : Answers (rejectWrite s e a) := answers_next _

theorem acceptWrite_answers (s : State) (a : Addr) (t : State) : Answers (acceptWrite s a t) :=
  .ite (rejectWrite_answers ..) (answers_next _)

theorem answer_answers (s : State) (v : Word) : Answers (answer s v) := answers_next _

theorem answerDraw_answers (s : State) (f : Word → Word) : Answers (answerDraw s f) := answers_next _

theorem answerIdle_answers (s : State) (v : Word) : Answers (answerIdle s v) :=
  .ite (answerDraw_answers ..) (answer_answers ..)

theorem moveTo_answers (s : State) (nxt : NodeIx) : Answers (moveTo s nxt) :=
  .ite (finishDec_answers ..) (finish_answers _)

theorem decCharMulti_answers (chr : Byte) (s : State) : Answers (decCharMulti chr s) := by
  unfold decCharMulti
  split
  · exact moveTo_answers ..
  · exact fail_answers ..

theorem execBuild_answers (s : State) : Answers (execBuild s) :=
  .ite (fail_answers ..) (finish_answers _)

theorem execEncode_answers (sym : Byte) (s : State) : Answers (execEncode sym s) :=
  .ite (fail_answers ..) (.ite (finishEnc_answers ..) (.ite (finish_answers _) (fail_answers ..)))

theorem execDecChar_answers (chr : Byte) (s : State) : Answers (execDecChar chr s) :=
  .ite (fail_answers ..) (.ite (finish_answers _) (decCharMulti_answers ..))

theorem execDecEnd_answers (s : State) : Answers (execDecEnd s) :=
  .ite (fail_answers ..) (.ite (finishDec_answers ..) (.ite (fail_answers ..) (finish_answers _)))

theorem exec_answers (i : Instr) (s : State) : Answers (exec i s) := by
  cases i
  case nop | clrFreq | reset => exact finish_answers _
  case build => exact execBuild_answers _
  case count | genCodes | decStart => exact .ite (fail_answers ..) (finish_answers _)
  case encode => exact execEncode_answers ..
  case decChar => exact execDecChar_answers ..
  case decEnd => exact execDecEnd_answers _
  case illegal => exact fail_answers ..
  case wrCmd | wrNodeSel | wrFreq => exact acceptWrite_answers ..
  case wrErr | wrIrqEn => exact answers_next _
  case wrBad => exact rejectWrite_answers ..
  case rdStatus => exact .ite (answerDraw_answers ..) (answer_answers ..)
  case rdId | rdCmd | rdErr | rdErrInfo | rdIrqEn | rdNodeSel | rdParam | rdUnmapped => exact answer_answers ..
  case rdRoot | rdTotal | rdDecCur | rdNodeFreq | rdNodeRep | rdNodeLink => exact answerIdle_answers ..
  case rdFreq | rdCodeLow | rdCodeMid | rdCodeHigh => exact answerIdle_answers ..

theorem engineStep_answers (s : State) : Answers (engineStep s) := by
  unfold engineStep
  split
  · exact exec_answers ..
  · exact answers_next _

theorem perform_answers (e : Event) (s : State) : Answers (perform e s) := by
  cases e with
  | read | write => exact exec_answers ..
  | engine => exact engineStep_answers _
  | hardReset | consumer => exact answers_next _

theorem step_answers (s : State) : Answers (step s) := by
  unfold step nextAct
  split
  · exact engineStep_answers _
  · exact perform_answers ..

end Sys2Proof.Machine

namespace Sys2Proof

open Sys2Proof.Machine

/-- Settles O9: a case per operation, each by the shared operation it ends in, and a step is one of them, a hardware
reset, a change of the consumer, or idling. -/
theorem everyOperationAnswersNext : Obligations.EveryOperationAnswersNext := ⟨exec_answers, step_answers⟩

end Sys2Proof
end

section
/-! O28, O29 and O30: what a raise records, and that an operation but RESET and the ERR write touches the error
registers by one raise or not at all (`exec_errorEffect`). -/

namespace Sys2Proof.Machine

theorem causeCode_toNat_bounds (e : ErrorCause) : 1 ≤ (causeCode e).toNat ∧ (causeCode e).toNat ≤ 8 := by
  cases e <;> decide

/-- A field of ERR_INFO as a number; each of its four is this at one place (10_state.md R39). -/
theorem errorRecord_extractLsb'_toNat (e : ErrorCause) (op : BitVec 4) (arg : Byte) (addr : Addr) (lo n : Nat) :
    ((errorRecord e op arg addr).extractLsb' lo n).toNat
      = ((causeCode e).toNat + 16 * op.toNat + 256 * arg.toNat + 65536 * addr.toNat) / 2 ^ lo % 2 ^ n := by
  rw [extractLsb'_toNat_eq_div, errorRecord_toNat]

section Fields
variable (e : ErrorCause) (op : BitVec 4) (arg : Byte) (addr : Addr)

theorem errorRecord_cause : (errorRecord e op arg addr).extractLsb' 0 4 = causeCode e :=
  BitVec.eq_of_toNat_eq (by rw [errorRecord_extractLsb'_toNat]; omega)

theorem errorRecord_op : (errorRecord e op arg addr).extractLsb' 4 4 = op :=
  BitVec.eq_of_toNat_eq (by rw [errorRecord_extractLsb'_toNat]; omega)

theorem errorRecord_arg : (errorRecord e op arg addr).extractLsb' 8 8 = arg :=
  BitVec.eq_of_toNat_eq (by rw [errorRecord_extractLsb'_toNat]; omega)

theorem errorRecord_addr : (errorRecord e op arg addr).extractLsb' 16 16 = addr :=
  BitVec.eq_of_toNat_eq (by rw [errorRecord_extractLsb'_toNat]; omega)

end Fields

/-- The ERR write sets no bit of ERR, so it is no first error (60_exceptions.md R223). -/
theorem State.clearErrors_err_of_zero {s : State} (h : s.err = 0#8) (v : Word) : (s.clearErrors v).err = 0#8 := by
  rw [State.clearErrors_err, h, BitVec.zero_and]

end Sys2Proof.Machine

namespace Sys2Proof

open Sys2Proof.Machine

/-- Settles O28: the bit below the cause's code by `raise_err_getLsbD`, and the record field by field. -/
theorem raiseRecordsError : Obligations.RaiseRecordsError := by
  refine ⟨⟨rfl, rfl, rfl, rfl, rfl, rfl, rfl, rfl⟩, fun s e op arg addr => ?_⟩
  obtain ⟨hlow, hhigh⟩ := causeCode_toNat_bounds e
  refine ⟨hlow, hhigh, fun n _ => ?_, fun hzero => ?_, fun hset => ?_, rfl⟩
  · have hbit : n + 1 = (causeCode e).toNat ↔ n = (causeCode e).toNat - 1 := by omega
    rw [State.raise_err_getLsbD, decide_eq_decide.2 hbit]
  · rw [State.raise_errInfo, if_pos hzero]
    exact ⟨errorRecord_cause .., errorRecord_op .., errorRecord_arg .., errorRecord_addr ..⟩
  · rw [State.raise_errInfo, if_neg hset]

/-- Settles O29: the ERR write keeps ERR_INFO and raises nothing; any other operation keeps both registers or takes one
raise, which writes ERR_INFO only when ERR was 0. -/
theorem firstErrorRecordKept : Obligations.FirstErrorRecordKept := by
  intro i s t h hreset
  rcases exec_errorEffect h with hi | ⟨v, rfl⟩ | ⟨herr, hinfo⟩ | ⟨e, op, arg, addr, herr, hinfo⟩
  · exact absurd hi hreset
  · obtain rfl := execWrErr_next.1 h
    exact ⟨fun _ => rfl, fun hne => absurd rfl hne, fun hzero hset =>
      absurd (s.clearErrors_err_of_zero hzero v) hset⟩
  · exact ⟨fun _ => hinfo, fun hne => absurd hinfo hne, fun hzero hset => absurd (herr.trans hzero) hset⟩
  · have hkept (hset : s.err ≠ 0#8) : t.errInfo = s.errInfo := by rw [hinfo, if_neg hset]
    refine ⟨hkept, fun hne => ⟨by_contra fun hset => hne (hkept hset), ?_⟩, fun hzero _ => ?_⟩
    · rw [herr]
      exact s.raise_err_ne_zero e op arg addr
    · rw [hinfo, if_pos hzero, errorRecord_cause]
      exact causeCode_toNat_bounds e

/-- Settles O30: the effect of one raise on ERR, or none. -/
theorem errorBitsSticky : Obligations.ErrorBitsSticky := by
  intro i s t h hreset hwrErr
  rcases exec_errorEffect h with hi | ⟨v, hi⟩ | ⟨herr, -⟩ | ⟨e, -, -, -, herr, -⟩
  · exact absurd hi hreset
  · exact absurd hi (hwrErr v)
  · exact .inl herr
  · exact .inr ⟨e, herr⟩

end Sys2Proof
end

section
/-! O23 and O24: the ERR and IRQ_EN writes, accepted in every state, and the level of irq (60_exceptions.md R223, R227,
R228). -/

namespace Sys2Proof.Machine

/-- The ERR write, bit by bit (60_exceptions.md R223). -/
theorem State.clearErrors_err_getLsbD (s : State) (v : Word) {n : Nat} (hn : n < 8) :
    (s.clearErrors v).err.getLsbD n = (s.err.getLsbD n && !v.getLsbD n) := by
  simp [hn]

theorem State.errAny_iff (s : State) : s.errAny = true ↔ s.err ≠ 0#8 := decide_eq_true_iff

theorem State.irq_iff (s : State) : s.irq = true ↔
    (s.irqEn.getLsbD 0 = true ∧ s.busy = false) ∨ (s.irqEn.getLsbD 1 = true ∧ s.err ≠ 0#8) := by
  rw [State.irq, Bool.or_eq_true, Bool.and_eq_true, Bool.and_eq_true, Bool.not_eq_true', s.errAny_iff]

end Sys2Proof.Machine

namespace Sys2Proof

open Sys2Proof.Machine

/-- Settles O23: the ERR write is `clearErrors` and nothing else. -/
theorem errWriteClearsOnes : Obligations.ErrWriteClearsOnes := fun s v =>
  ⟨s.clearErrors v, execWrErr_next.2 rfl, rfl, fun _ hn => s.clearErrors_err_getLsbD v hn⟩

/-- Settles O24: IRQ_EN takes the low two bits of the data, and irq is R227's formula. -/
theorem interruptEnableAndLevel : Obligations.InterruptEnableAndLevel := by
  refine ⟨fun s v => ⟨_, execWrIrqEn_next.2 rfl, rfl, ?_, ?_⟩, State.irq_iff⟩
  · simp
  · simp

end Sys2Proof
end

section
/-! O10, O11 and O12: hardware reset (70_reset_and_hazards.md R250, R251). A state whose registers are cleared, with
nothing pending, reads as the reset column; the streams are the one thing a pending command leaves a mark on. -/

namespace Sys2Proof.Machine

/-! ## The reset column (10_state.md section 3) -/

theorem State.busy_clearRegisters {s : State} (h : s.pending = none) : s.clearRegisters.busy = false :=
  (State.busy_eq_false_iff _).2 h

theorem State.irq_clearRegisters (s : State) : s.clearRegisters.irq = false := by
  simp [State.irq]

/-- No node is valid without a tree (10_state.md R27). -/
theorem State.nodeValid_clearRegisters (s : State) (i : NodeIx) : s.clearRegisters.nodeValid i = false := by
  simp [State.nodeValid]

/-- The registers and their reset values. -/
def resetColumn (param : Word) : List (Addr × Word) :=
  [(0x0000, 0x48554631), (0x0004, 0), (0x0008, 0), (0x000C, 0), (0x0010, 0), (0x0014, 0), (0x0018, 0x1FF),
    (0x001C, 0), (0x0020, 0x1FF), (0x0024, 0), (0x0028, 0), (0x002C, 0), (0x0030, 0), (0x0034, param)]

theorem resetColumn_register (param : Word) :
    ∀ p ∈ resetColumn param, p.1.toNat % 4 = 0 ∧ p.1.toNat < 0x0038 := by
  simp [resetColumn]

theorem readValue_clearRegisters {s : State} (h : s.pending = none) :
    ∀ p ∈ resetColumn (BitVec.ofNat 32 (s.freqW % 64)), readValue s.clearRegisters p.1.toNat = p.2 := by
  have hstatus : statusValue s.clearRegisters = 0 := by
    simp [statusValue, State.busy_clearRegisters h, treeCode, decCode]
  simp [resetColumn, readValue, hstatus, State.nodeValid_clearRegisters]

/-- The reads give the reset column, and every FREQ word and CODE word reads 0. -/
def State.ReadsReset (t : State) (param : Word) : Prop :=
  (∀ p ∈ resetColumn param,
    exec (decode (.read p.1)) t = .next { t with reads := t.reads ++ [p.2] }) ∧
  (∀ sym : Byte, exec (.rdFreq sym) t = .next { t with reads := t.reads ++ [0#32] }) ∧
  ∀ (sym : Byte) (w : BitVec 4), t.codeWindowWord sym w = 0#32

theorem State.clearRegisters_readsReset {s : State} (h : s.pending = none) :
    s.clearRegisters.ReadsReset (BitVec.ofNat 32 (s.freqW % 64)) := by
  have hidle := State.busy_clearRegisters h
  refine ⟨fun p hp => ?_, fun sym => answerIdle_of_idle hidle _, fun _ _ => rfl⟩
  obtain ⟨hal, hreg⟩ := resetColumn_register _ p hp
  rw [decode, exec_read_register _ hal hreg, mappedAnswer_idle hidle, readValue_clearRegisters h p hp]

/-! ## Abandoning the pending command (70_reset_and_hazards.md R251) -/

theorem State.abandon_pending (s : State) : s.abandon.pending = none := by
  obtain ⟨a, b, d, h⟩ := s.abandon_eq
  rw [h]

theorem State.abandon_freqW (s : State) : s.abandon.freqW = s.freqW := by
  obtain ⟨a, b, d, h⟩ := s.abandon_eq
  rw [h]

theorem State.abandon_of_idle {s : State} (h : s.pending = none) : s.abandon = s :=
  if_neg (by simp [State.busy, h])

theorem State.abandon_of_pending {s : State} {w : Word} (h : s.pending = some w) :
    s.abandon = { s with
      encOut := s.encOut ++ acceptedPart s.draws (pendingOutput s).1
      decOut := s.decOut ++ acceptedPart s.draws (pendingOutput s).2
      draws := s.draws + 1
      pending := none } :=
  if_pos (by simp [State.busy, h])

theorem pendingOutput_of_pending {s u : State} {w : Word} (hw : s.pending = some w)
    (h : exec (decode (.command w)) { s with encReady := true, decReady := true } = .next u) :
    pendingOutput s = (u.encOut.drop s.encOut.length, u.decOut.drop s.decOut.length) := by
  have hengine : engineStep { s with encReady := true, decReady := true } = .next u :=
    Eq.trans (engineStep_some hw) h
  rw [pendingOutput, hengine]

end Sys2Proof.Machine

namespace Sys2Proof

open Sys2Proof.Machine

/-- Settles O12: abandoning the command is all hardware reset does before it clears the registers, and what it appends
to each stream is `acceptedPart`, the first bytes of the command's output. -/
theorem hardwareResetCutsOutput : Obligations.HardwareResetCutsOutput := by
  refine fun s => ⟨s.abandon.clearRegisters, rfl, ?_, fun hidle => ?_, fun w u hw h => ?_⟩
  · obtain ⟨a, b, d, h⟩ := s.abandon_eq
    rw [h]
    rfl
  · rw [State.abandon_of_idle hidle]
    exact ⟨rfl, rfl, rfl⟩
  · rw [State.abandon_of_pending hw, pendingOutput_of_pending hw h]
    exact ⟨_, _, rfl, rfl⟩

/-- Settles O10: the reset state is a state with its registers cleared and nothing pending. -/
theorem resetStateReadsAsMap : Obligations.ResetStateReadsAsMap := by
  obtain ⟨hregs, hfreq, hcode⟩ := State.clearRegisters_readsReset (s := State.reset) rfl
  exact ⟨hregs, hfreq, hcode, rfl, rfl⟩

/-- Settles O11: hardware reset ends in `clearRegisters`, with the pending command abandoned. -/
theorem hardwareResetValues : Obligations.HardwareResetValues := by
  intro s
  have hreads := State.clearRegisters_readsReset s.abandon_pending
  rw [s.abandon_freqW] at hreads
  obtain ⟨hregs, hfreq, hcode⟩ := hreads
  exact ⟨_, rfl, fun _ => rfl, rfl, rfl, rfl, rfl, rfl, rfl, rfl, rfl, rfl, rfl, s.abandon.irq_clearRegisters, rfl,
    s.abandon_pending, hregs, hfreq, hcode⟩

end Sys2Proof
end
